-- ==== Sys2Proof/Word.lean ====
section
/-! DEFINITION. The word types of the C25519 engine: bytes, 256-bit registers, 512-bit register pairs and the
register numbers (spec/10_state.md R20, R22; spec/00_scope.md R14, R15). A byte string of 32 or 64 bytes is
held as the bit vector whose unsigned value is `le` of the string (R15, R51): byte 0 is the least significant. -/

namespace Sys2Proof

/-- One byte. -/
abbrev Byte := BitVec 8

/-- The 32 bytes of one general register (R20), byte 0 in bits 7 to 0. -/
abbrev Word := BitVec 256

/-- The 64 bytes of a register pair (R22), byte 0 in bits 7 to 0. -/
abbrev DWord := BitVec 512

/-- A register number, `x0` to `x15` (R20, R80). -/
abbrev Reg := Fin 16

end Sys2Proof
end

