-- ==== Sys2Proof/Config.lean ====
section
/-! DEFINITION. What an implementation of the engine fixes and the spec leaves OPEN (spec/00_scope.md R12, R13, R14;
spec/93_implementation_defined.md U1, U2, U4). The two opaque constants have no body: no proof can evaluate
them, so a claim that mentions them holds for every choice of them. -/

namespace Sys2Proof

/-- The hash function `H` (R12): a total function from byte strings to 64 bytes, of which nothing else may be
assumed. Log entry 1. -/
opaque Config.hash : List Byte → DWord

/-- The 32-byte padding block `PAD32` that opens the nonce hash input (R13). Log entry 2. -/
opaque Config.pad32 : Word

/-- The default size of the message memory in bytes (R14). The size itself is a field of State, so that a
claim about every state holds for every size. Log entry 3. -/
def Config.defaultMsgMax : BitVec 16 := 4096#16

end Sys2Proof
end

