-- ==== Sys2Proof/Syntax.lean ====
section
/-! DEFINITION. The 30 commands of C25519-CMD (spec/30_encoding.md R86), one constructor per row of
spec/opcode_table.json, with operands in assembler order (R90); and the error codes of a command (spec/60_exceptions.md R220). -/

namespace Sys2Proof

/-- A command. A field that the opcode map marks `pair` names the even register of `x[n], x[n+1]` (R22);
`Instr.WellFormed` says that it is even. -/
inductive Instr where
  /-- `NOP` (R210) -/
  | nop
  /-- `ZEROIZE` (R211) -/
  | zeroize
  /-- `FADD rd, rs1, rs2` (R104) -/
  | fadd (rd rs1 rs2 : Reg)
  /-- `FSUB rd, rs1, rs2` (R105) -/
  | fsub (rd rs1 rs2 : Reg)
  /-- `FMUL rd, rs1, rs2` (R106) -/
  | fmul (rd rs1 rs2 : Reg)
  /-- `FSQR rd, rs1` (R107) -/
  | fsqr (rd rs1 : Reg)
  /-- `FINV rd, rs1` (R108) -/
  | finv (rd rs1 : Reg)
  /-- `FCSWAP rd, rs1, rs2`: `rd` and `rs1` are both read and written (R109) -/
  | fcswap (rd rs1 rs2 : Reg)
  /-- `FCAN rd, rs1` (R110) -/
  | fcan (rd rs1 : Reg)
  /-- `SCLAMP rd, rs1` (R121) -/
  | sclamp (rd rs1 : Reg)
  /-- `SRED rd, rs1`, `rs1` a pair (R123) -/
  | sred (rd rs1 : Reg)
  /-- `SMULADD rd, rs1, rs2, rs3` (R124) -/
  | smuladd (rd rs1 rs2 rs3 : Reg)
  /-- `SEQ rs1, rs2` (R125) -/
  | seq (rs1 rs2 : Reg)
  /-- `SLTL rs1` (R126) -/
  | sltl (rs1 : Reg)
  /-- `LADDER rd, rs1, rs2` (R142) -/
  | ladder (rd rs1 rs2 : Reg)
  /-- `LADDERB rd, rs1` (R143) -/
  | ladderb (rd rs1 : Reg)
  /-- `PADD rd, rs1, rs2` (R160) -/
  | padd (rd rs1 rs2 : Reg)
  /-- `PDBL rd, rs1` (R161) -/
  | pdbl (rd rs1 : Reg)
  /-- `PSMULB rd, rs1` (R162) -/
  | psmulb (rd rs1 : Reg)
  /-- `PDSMUL rd, rs1, rs2, rs3` (R163) -/
  | pdsmul (rd rs1 rs2 rs3 : Reg)
  /-- `PDEC rd, rs1` (R164) -/
  | pdec (rd rs1 : Reg)
  /-- `E2M rd, rs1` (R165) -/
  | e2m (rd rs1 : Reg)
  /-- `M2E rd, rs1, rs2` (R166) -/
  | m2e (rd rs1 rs2 : Reg)
  /-- `GENKEY rd, rs1`, `rd` a pair (R185) -/
  | genkey (rd rs1 : Reg)
  /-- `SHARED rd, rs1, rs2` (R186) -/
  | shared (rd rs1 rs2 : Reg)
  /-- `SIGN rd, rs1`, `rd` a pair (R187) -/
  | sign (rd rs1 : Reg)
  /-- `SIGNR rd, rs1, rs2`, `rd` and `rs2` pairs (R188) -/
  | signr (rd rs1 rs2 : Reg)
  /-- `VERIFY rs1, rs2`, `rs2` a pair (R189) -/
  | verify (rs1 rs2 : Reg)
  /-- `SIGNMSG rs1` (R191) -/
  | signmsg (rs1 : Reg)
  /-- `OPENMSG rs1` (R192) -/
  | openmsg (rs1 : Reg)
  deriving DecidableEq, Repr

/-- The error code in `STATUS.ERR` (R220): the codes 5 to 15 are never produced and cannot be written down
(spec/93_implementation_defined.md U9). -/
inductive ErrCode where
  /-- 0: the command completed and was performed -/
  | none
  /-- 1: the opcode is none of the 30 -/
  | illop
  /-- 2: a must-be-zero field of a known opcode is not zero -/
  | rsvd
  /-- 3: a pair field is odd -/
  | pair
  /-- 4: the message length is out of range for the command -/
  | mlen
  deriving DecidableEq, Repr

end Sys2Proof
end

