-- ==== Sys2Proof/WellFormed.lean ====
section
/-! DEFINITION. When a command is well formed: every field the opcode map marks `pair` is even (spec/30_encoding.md
R81, R86; spec/60_exceptions.md R222). A register field is 0 to 15 by its type, and a field that a command does
not use is not in its constructor. -/

namespace Sys2Proof

/-- A pair field must be even: it names `x[n]` and `x[n+1]` (R22, R81). -/
def Reg.isPair (n : Reg) : Bool := n.val % 2 == 0

/-- The pair fields of a command, as R222 lists them. -/
def Instr.pairFields : Instr → List Reg
  | .nop => []
  | .zeroize => []
  | .fadd _ _ _ => []
  | .fsub _ _ _ => []
  | .fmul _ _ _ => []
  | .fsqr _ _ => []
  | .finv _ _ => []
  | .fcswap _ _ _ => []
  | .fcan _ _ => []
  | .sclamp _ _ => []
  | .sred _ rs1 => [rs1]
  | .smuladd _ _ _ _ => []
  | .seq _ _ => []
  | .sltl _ => []
  | .ladder _ _ _ => []
  | .ladderb _ _ => []
  | .padd _ _ _ => []
  | .pdbl _ _ => []
  | .psmulb _ _ => []
  | .pdsmul _ _ _ _ => []
  | .pdec _ _ => []
  | .e2m _ _ => []
  | .m2e _ _ _ => []
  | .genkey rd _ => [rd]
  | .shared _ _ _ => []
  | .sign rd _ => [rd]
  | .signr rd _ rs2 => [rd, rs2]
  | .verify _ rs2 => [rs2]
  | .signmsg _ => []
  | .openmsg _ => []

/-- A command that some command word stands for. -/
def Instr.wellFormed (i : Instr) : Bool := i.pairFields.all Reg.isPair

/-- `Instr.wellFormed` as a proposition. -/
abbrev Instr.WellFormed (i : Instr) : Prop := i.wellFormed = true

end Sys2Proof
end

