-- ==== Sys2Proof/Decode.lean ====
section
/-! DEFINITION. The command word (spec/30_encoding.md R80), the decoder of R87 with its errors in the order of
spec/60_exceptions.md R221, and the encoder of R90. -/

namespace Sys2Proof

/-- How a command uses one of the four register fields (R80, R86). -/
inductive FieldUse where
  /-- must be zero -/
  | unused
  /-- a register number -/
  | reg
  /-- the number of an even register, naming a pair -/
  | pair
  deriving DecidableEq, Repr

/-- One line of the opcode map (R86): the use of `rd`, `rs1`, `rs2`, `rs3` and the command they make. -/
structure OpRow where
  rd : FieldUse
  rs1 : FieldUse
  rs2 : FieldUse
  rs3 : FieldUse
  build : Reg → Reg → Reg → Reg → Instr

/-- The opcode map (R86), by the value of bits 7 to 0. -/
def opRow : Nat → Option OpRow
  | 0x00 => some ⟨.unused, .unused, .unused, .unused, fun _ _ _ _ => .nop⟩
  | 0x01 => some ⟨.unused, .unused, .unused, .unused, fun _ _ _ _ => .zeroize⟩
  | 0x10 => some ⟨.reg, .reg, .reg, .unused, fun d a b _ => .fadd d a b⟩
  | 0x11 => some ⟨.reg, .reg, .reg, .unused, fun d a b _ => .fsub d a b⟩
  | 0x12 => some ⟨.reg, .reg, .reg, .unused, fun d a b _ => .fmul d a b⟩
  | 0x13 => some ⟨.reg, .reg, .unused, .unused, fun d a _ _ => .fsqr d a⟩
  | 0x14 => some ⟨.reg, .reg, .unused, .unused, fun d a _ _ => .finv d a⟩
  | 0x15 => some ⟨.reg, .reg, .reg, .unused, fun d a b _ => .fcswap d a b⟩
  | 0x16 => some ⟨.reg, .reg, .unused, .unused, fun d a _ _ => .fcan d a⟩
  | 0x20 => some ⟨.reg, .reg, .unused, .unused, fun d a _ _ => .sclamp d a⟩
  | 0x21 => some ⟨.reg, .pair, .unused, .unused, fun d a _ _ => .sred d a⟩
  | 0x22 => some ⟨.reg, .reg, .reg, .reg, fun d a b c => .smuladd d a b c⟩
  | 0x23 => some ⟨.unused, .reg, .reg, .unused, fun _ a b _ => .seq a b⟩
  | 0x24 => some ⟨.unused, .reg, .unused, .unused, fun _ a _ _ => .sltl a⟩
  | 0x30 => some ⟨.reg, .reg, .reg, .unused, fun d a b _ => .ladder d a b⟩
  | 0x31 => some ⟨.reg, .reg, .unused, .unused, fun d a _ _ => .ladderb d a⟩
  | 0x40 => some ⟨.reg, .reg, .reg, .unused, fun d a b _ => .padd d a b⟩
  | 0x41 => some ⟨.reg, .reg, .unused, .unused, fun d a _ _ => .pdbl d a⟩
  | 0x42 => some ⟨.reg, .reg, .unused, .unused, fun d a _ _ => .psmulb d a⟩
  | 0x43 => some ⟨.reg, .reg, .reg, .reg, fun d a b c => .pdsmul d a b c⟩
  | 0x44 => some ⟨.reg, .reg, .unused, .unused, fun d a _ _ => .pdec d a⟩
  | 0x45 => some ⟨.reg, .reg, .unused, .unused, fun d a _ _ => .e2m d a⟩
  | 0x46 => some ⟨.reg, .reg, .reg, .unused, fun d a b _ => .m2e d a b⟩
  | 0x50 => some ⟨.pair, .reg, .unused, .unused, fun d a _ _ => .genkey d a⟩
  | 0x51 => some ⟨.reg, .reg, .reg, .unused, fun d a b _ => .shared d a b⟩
  | 0x52 => some ⟨.pair, .reg, .unused, .unused, fun d a _ _ => .sign d a⟩
  | 0x53 => some ⟨.pair, .reg, .pair, .unused, fun d a b _ => .signr d a b⟩
  | 0x54 => some ⟨.unused, .reg, .pair, .unused, fun _ a b _ => .verify a b⟩
  | 0x55 => some ⟨.unused, .reg, .unused, .unused, fun _ a _ _ => .signmsg a⟩
  | 0x56 => some ⟨.unused, .reg, .unused, .unused, fun _ a _ _ => .openmsg a⟩
  | _ => none

/-- The four-bit register field whose lowest bit is bit `lo` of the word (R80). -/
def regField (w : BitVec 32) (lo : Nat) : Reg := Fin.ofNat 16 (w.toNat / 2 ^ lo)

/-- The opcode, bits 7 to 0 (R80). -/
def opcodeField (w : BitVec 32) : Nat := w.toNat % 256

/-- A field the command does not use is zero (R80, R88). -/
def FieldUse.mbzOk (u : FieldUse) (n : Reg) : Bool :=
  match u with
  | .unused => n.val == 0
  | .reg => true
  | .pair => true

/-- A pair field is even (R81). -/
def FieldUse.pairOk (u : FieldUse) (n : Reg) : Bool :=
  match u with
  | .unused => true
  | .reg => true
  | .pair => n.isPair

/-- Every must-be-zero bit of the word is zero: bits 31 to 24 and the unused register fields (R80, R87). -/
def OpRow.mbzOk (r : OpRow) (w : BitVec 32) : Bool :=
  w.toNat / 2 ^ 24 == 0 && r.rd.mbzOk (regField w 8) && r.rs1.mbzOk (regField w 12)
    && r.rs2.mbzOk (regField w 16) && r.rs3.mbzOk (regField w 20)

/-- Every pair field of the word is even (R87). -/
def OpRow.pairsOk (r : OpRow) (w : BitVec 32) : Bool :=
  r.rd.pairOk (regField w 8) && r.rs1.pairOk (regField w 12)
    && r.rs2.pairOk (regField w 16) && r.rs3.pairOk (regField w 20)

/-- The decoder (R87): total, one command or exactly one first error of the word, in the order of R221. The
check of `MLEN`, which reads the state, stands in the meaning of the five message commands. -/
def decode (w : BitVec 32) : Except ErrCode Instr :=
  match opRow (opcodeField w) with
  | none => .error .illop
  | some r =>
    if r.mbzOk w = false then .error .rsvd
    else if r.pairsOk w = false then .error .pair
    else .ok (r.build (regField w 8) (regField w 12) (regField w 16) (regField w 20))

/-- The encoding of a line (R90): `opcode + (rd << 8) + (rs1 << 12) + (rs2 << 16) + (rs3 << 20)`. -/
def commandWord (op : Nat) (rd rs1 rs2 rs3 : Reg) : BitVec 32 :=
  BitVec.ofNat 32 (op + rd.val * 2 ^ 8 + rs1.val * 2 ^ 12 + rs2.val * 2 ^ 16 + rs3.val * 2 ^ 20)

/-- The command word of a command: its opcode and fields (R86), the unused fields 0 (R90). -/
def encode : Instr → BitVec 32
  | .nop => commandWord 0x00 0 0 0 0
  | .zeroize => commandWord 0x01 0 0 0 0
  | .fadd rd rs1 rs2 => commandWord 0x10 rd rs1 rs2 0
  | .fsub rd rs1 rs2 => commandWord 0x11 rd rs1 rs2 0
  | .fmul rd rs1 rs2 => commandWord 0x12 rd rs1 rs2 0
  | .fsqr rd rs1 => commandWord 0x13 rd rs1 0 0
  | .finv rd rs1 => commandWord 0x14 rd rs1 0 0
  | .fcswap rd rs1 rs2 => commandWord 0x15 rd rs1 rs2 0
  | .fcan rd rs1 => commandWord 0x16 rd rs1 0 0
  | .sclamp rd rs1 => commandWord 0x20 rd rs1 0 0
  | .sred rd rs1 => commandWord 0x21 rd rs1 0 0
  | .smuladd rd rs1 rs2 rs3 => commandWord 0x22 rd rs1 rs2 rs3
  | .seq rs1 rs2 => commandWord 0x23 0 rs1 rs2 0
  | .sltl rs1 => commandWord 0x24 0 rs1 0 0
  | .ladder rd rs1 rs2 => commandWord 0x30 rd rs1 rs2 0
  | .ladderb rd rs1 => commandWord 0x31 rd rs1 0 0
  | .padd rd rs1 rs2 => commandWord 0x40 rd rs1 rs2 0
  | .pdbl rd rs1 => commandWord 0x41 rd rs1 0 0
  | .psmulb rd rs1 => commandWord 0x42 rd rs1 0 0
  | .pdsmul rd rs1 rs2 rs3 => commandWord 0x43 rd rs1 rs2 rs3
  | .pdec rd rs1 => commandWord 0x44 rd rs1 0 0
  | .e2m rd rs1 => commandWord 0x45 rd rs1 0 0
  | .m2e rd rs1 rs2 => commandWord 0x46 rd rs1 rs2 0
  | .genkey rd rs1 => commandWord 0x50 rd rs1 0 0
  | .shared rd rs1 rs2 => commandWord 0x51 rd rs1 rs2 0
  | .sign rd rs1 => commandWord 0x52 rd rs1 0 0
  | .signr rd rs1 rs2 => commandWord 0x53 rd rs1 rs2 0
  | .verify rs1 rs2 => commandWord 0x54 0 rs1 rs2 0
  | .signmsg rs1 => commandWord 0x55 0 rs1 0 0
  | .openmsg rs1 => commandWord 0x56 0 rs1 0 0

/-- The bits of a table row's word, `nbits` of them, as the 32-bit command word (R80: one length, 32 bits); a
number with a bit above 31 is no command word. -/
def tableWord (nbits w : Nat) : Option (BitVec 32) :=
  let v := w % 2 ^ nbits
  if v < 2 ^ 32 then some (BitVec.ofNat 32 v) else none

/-- The instruction the decoder reads from a table row's word, none where it reports an error. -/
def decodeTableWord (nbits w : Nat) : Option Instr :=
  match tableWord nbits w with
  | none => none
  | some v =>
    match decode v with
    | .ok i => some i
    | .error _ => none

end Sys2Proof
end

