-- ==== Sys2Proof/Machine/State.lean ====
section
/-! DEFINITION. The state of the engine (spec/10_state.md R20 to R40), with the host that drives it (spec/20_memory.md R50,
R62; spec/30_encoding.md R91) as plain data beside it, and the state after reset (R40, R250). -/

namespace Sys2Proof.Machine

/-- The bytes of the message memory (R23), as (index, byte) pairs. -/
abbrev Memory := List Host.Cell

/-- The size of a bus access in bytes: 1, 2 or 4 (R50). -/
inductive AccessSize where
  /-- 1 byte -/
  | byte
  /-- 2 bytes -/
  | half
  /-- 4 bytes -/
  | word
  deriving DecidableEq, Repr

/-- The response of a bus access (R50). -/
inductive Resp where
  /-- `OK` -/
  | ok
  /-- `ERR`: misaligned, of a size the region does not accept, or unmapped (R53, R58) -/
  | err
  deriving DecidableEq, Repr

/-- What the engine's one bus port answers (R50): `BusRead` returns a response and data, `BusWrite` a response. -/
inductive BusReply where
  /-- the answer of `BusRead` -/
  | read (resp : Resp) (data : BitVec 32)
  /-- the answer of `BusWrite` -/
  | write (resp : Resp)
  deriving DecidableEq, Repr

/-- One step of the host agent, as the host plans it (R50, R91), and the reset pin (R250). The plan's order says
which agent moves next (log entry 5). -/
inductive HostAction where
  /-- `BusRead(addr, size)` -/
  | read (addr : BitVec 16) (size : AccessSize)
  /-- `BusWrite(addr, size, data)` -/
  | write (addr : BitVec 16) (size : AccessSize) (data : BitVec 32)
  /-- the host waits: the engine moves, and completes the command in flight if there is one (R83, R91 `WAIT`) -/
  | wait
  /-- `rst_n` is pulled low (R250, R251): `MSG` keeps its bytes, but for those that `bytes` says it takes (U3) -/
  | reset (bytes : Memory)
  deriving DecidableEq, Repr

/-- The whole state. -/
structure State where
  /-- `x0` to `x15`, 256 bits each (R20) -/
  regs : Vector Word 16
  /-- `CMD`: the last accepted command word; while `BUSY = 1`, the command in flight (R30, R38) -/
  cmd : BitVec 32
  /-- `STATUS` bit 0, `BUSY` (R31) -/
  busy : Bool
  /-- `STATUS` bit 1, `DONE`, the pending bit of the interrupt (R31, R228) -/
  done : Bool
  /-- `STATUS` bit 2, `FLAG` (R28, R31) -/
  flag : Bool
  /-- `STATUS` bit 3, `BWE`, sticky (R31, R60) -/
  bwe : Bool
  /-- `STATUS` bits 11 to 8, `ERR` (R31, R220) -/
  err : ErrCode
  /-- `CTRL` bit 0, `IE` (R32) -/
  ie : Bool
  /-- `MLEN` bits 15 to 0 (R34) -/
  mlen : BitVec 16
  /-- the message memory `MSG` (R23): the bytes that are not zero, by rising index; see `Memory.wf` -/
  msg : Memory
  /-- `CAP` bits 15 to 0, `MSG_MAX`: a constant of the implementation, which no step changes (R14, R35) -/
  msgMax : BitVec 16
  /-- the model's own: the host's actions to come, the next one first (log entry 5) -/
  agenda : List HostAction
  /-- the model's own: what the bus has answered so far, the newest first (log entry 5) -/
  replies : List BusReply
  deriving DecidableEq, Repr

/-- Why the machine would stop with a fault. The spec gives the engine none: an error of a command ends in `STATUS.ERR`
and a refused bus access in the response `ERR`, and after either the engine goes on (R225, R227). So the type has no
constructor and nothing raises it; this is safe. -/
inductive Fault : Type
  deriving DecidableEq, Repr

/-- Why an instruction would have no meaning. -/
inductive Refusal where
  /-- Raised by an arm of `exec` for a command that has no meaning yet; no arm does so now. Safe: the run ends. -/
  | notModelled (mnemonic : String)
  deriving DecidableEq, Repr

/-- What a step or a command answers. -/
abbrev Result := Host.Outcome State Fault Refusal

/-- The state after reset of an engine whose message memory holds `msg` and has `msgMax` bytes (R40, R250): the spec leaves
both to the implementation. -/
def State.resetWith (msgMax : BitVec 16) (msg : Memory) : State :=
  { regs := Vector.replicate 16 0#256
    cmd := 0#32
    busy := false
    done := false
    flag := false
    bwe := false
    err := .none
    ie := false
    mlen := 0#16
    msg := msg
    msgMax := msgMax
    agenda := []
    replies := [] }

/-- The state after reset (R40, R250), with `MSG_MAX` at its default (R14, log entry 3) and, by choice, every byte of
`MSG` zero (log entry 4). -/
def State.reset : State := State.resetWith Config.defaultMsgMax []

end Sys2Proof.Machine
end

