-- ==== Sys2Proof/Machine/Memory.lean ====
section
/-! DEFINITION. The message memory as data (spec/10_state.md R23): a list of (index, byte) pairs in one canonical form, and
the byte strings of spec/00_scope.md R15 (`le`, `bytes_n`). -/

namespace Sys2Proof.Machine

/-- What an unlisted index of `MSG` reads as. The spec leaves the power-on bytes open (U3); log entry 4. -/
def memDefault : Byte := 0#8

/-- The byte at an index. -/
def memByte (m : Memory) (a : Nat) : Byte :=
  match m with
  | [] => memDefault
  | (b, v) :: rest => if a = b then v else memByte rest a

/-- Put a byte into a list whose indices rise, in its place. -/
def memInsert (m : Memory) (a : Nat) (v : Byte) : Memory :=
  match m with
  | [] => [(a, v)]
  | (b, w) :: rest =>
    if a < b then (a, v) :: (b, w) :: rest
    else if a = b then (a, v) :: rest
    else (b, w) :: memInsert rest a v

/-- Take an index out of a list. -/
def memErase (m : Memory) (a : Nat) : Memory :=
  match m with
  | [] => []
  | (b, w) :: rest => if a = b then memErase rest a else (b, w) :: memErase rest a

/-- Store one byte, keeping the canonical form: the value of an unlisted index is not listed. -/
def memStore (m : Memory) (a : Nat) (v : Byte) : Memory :=
  if v = memDefault then memErase m a else memInsert m a v

/-- Store a byte string from index `a` upward (R16 `MemWrite`). -/
def memStoreBytes (m : Memory) (a : Nat) (bs : List Byte) : Memory :=
  match bs with
  | [] => m
  | b :: rest => memStoreBytes (memStore m a b) (a + 1) rest

/-- The byte string of `n` bytes from index `a` upward (R16 `MemRead`). -/
def memBytes (m : Memory) (a n : Nat) : List Byte :=
  (List.range n).map fun k => memByte m (a + k)

/-- Indices rise strictly. -/
def memRising (m : Memory) : Bool :=
  match m with
  | [] => true
  | [_] => true
  | (a, _) :: (b, w) :: rest => decide (a < b) && memRising ((b, w) :: rest)

/-- The canonical form of the memory of `size` bytes: indices rise strictly and are below `size`, and no listed byte is the
value of an unlisted index. -/
def Memory.wf (size : Nat) (m : Memory) : Bool :=
  memRising m && m.all fun c => decide (c.1 < size) && decide (c.2 ≠ memDefault)

/-- The `n` bytes of a bit vector, byte 0 first (R15 `bytes_n`). -/
def bytesOf (n : Nat) {w : Nat} (v : BitVec w) : List Byte :=
  (List.range n).map fun k => v.extractLsb' (8 * k) 8

/-- `le` of a byte string (R15): `Σ b[i]·256^i`. -/
def leBytes (bs : List Byte) : Nat :=
  match bs with
  | [] => 0
  | b :: rest => b.toNat + 256 * leBytes rest

end Sys2Proof.Machine
end

