-- ==== Sys2Proof/Machine/Ops.lean ====
section
/-! DEFINITION. The named operations over the state: registers and pairs (spec/10_state.md R20, R22; spec/00_scope.md R16), the message
memory (R23), issue and completion (spec/30_encoding.md R82, R83), raising an error and acknowledging it (spec/60_exceptions.md R225,
R231), reset (spec/70_reset_and_hazards.md R250, R251) and the interrupt line (R228). -/

namespace Sys2Proof.Machine

/-- `x[i]` (R16). No register is hardwired (R20). -/
def State.reg (s : State) (i : Reg) : Word := s.regs[i]

/-- `x[i] <- v` (R16). -/
def State.setReg (s : State) (i : Reg) (v : Word) : State := { s with regs := s.regs.set i v }

/-- The second register of a pair: `x[n+1]` for the even `n` (R22). -/
def pairHigh (n : Reg) : Reg := n + 1

/-- `pair(n) = x[n] ‖ x[n+1]`, `x[n]` the bytes 0 to 31 (R16, R22). -/
def State.pair (s : State) (n : Reg) : DWord := s.reg (pairHigh n) ++ s.reg n

/-- The first half of a 64-byte value, bytes 0 to 31. -/
def lowHalf (v : DWord) : Word := v.extractLsb' 0 256

/-- The second half of a 64-byte value, bytes 32 to 63. -/
def highHalf (v : DWord) : Word := v.extractLsb' 256 256

/-- `pair(n) <- v` (R16). -/
def State.setPair (s : State) (n : Reg) (v : DWord) : State :=
  (s.setReg n (lowHalf v)).setReg (pairHigh n) (highHalf v)

/-- `MSG_MAX` in bytes (R14). -/
def State.msgSize (s : State) : Nat := s.msgMax.toNat

/-- `MSG[a]` (R23). -/
def State.msgByte (s : State) (a : Nat) : Byte := memByte s.msg a

/-- `MemRead(a, n)` (R16, R213). -/
def State.memRead (s : State) (a n : Nat) : List Byte := memBytes s.msg a n

/-- `MemWrite(a, n, v)` for the byte string `bs` of `n` bytes (R16, R213). -/
def State.memWrite (s : State) (a : Nat) (bs : List Byte) : State :=
  { s with msg := memStoreBytes s.msg a bs }

/-- `M = MemRead(0, MLEN)`, the current message (R16, R23). -/
def State.message (s : State) : List Byte := s.memRead 0 s.mlen.toNat

/-- `MLEN <- n` (R34). -/
def State.setMlen (s : State) (n : BitVec 16) : State := { s with mlen := n }

/-- Every register zero (R211). -/
def State.clearRegs (s : State) : State := { s with regs := Vector.replicate 16 0#256 }

/-- Every byte of `MSG` zero (R211): `MemWrite(0, MSG_MAX, 00×MSG_MAX)`. Zero bytes are not listed. -/
def State.clearMsg (s : State) : State := { s with msg := [] }

/-- Issue (R82): the step a write of `w` to `CMD` takes while `BUSY = 0`. -/
def State.issue (s : State) (w : BitVec 32) : State :=
  { s with cmd := w, busy := true, done := false, flag := false, err := .none }

/-- The end of a command that is performed (R83): `FLAG <- v; BUSY <- 0; DONE <- 1`. -/
def finish (v : Bool) (s : State) : Result :=
  .next { s with flag := v, busy := false, done := true }

/-- `raise Error(code)` (R225, R230), the taking of an exception: `ERR <- code; FLAG <- 0; BUSY <- 0; DONE <- 1` and nothing
else. Nothing is saved, and control goes nowhere. -/
def raiseError (code : ErrCode) (s : State) : Result :=
  .next { s with err := code, flag := false, busy := false, done := true }

/-- What stands where a return from exception would (R231): the host acknowledges a completion by clearing `DONE`. -/
def State.ackDone (s : State) : State := { s with done := false }

/-- The host clears `BWE` (R31). -/
def State.clearBwe (s : State) : State := { s with bwe := false }

/-- A host write is dropped because `BUSY = 1` (R60). -/
def State.dropWrite (s : State) : State := { s with bwe := true }

/-- `irq = DONE AND IE` (R228). -/
def State.irq (s : State) : Bool := s.done && s.ie

/-- The bytes a memory of `size` bytes takes from a list of (index, byte) pairs; a pair outside it is nothing. -/
def memTake (size : Nat) (m : Memory) (bytes : Memory) : Memory :=
  match bytes with
  | [] => m
  | (a, v) :: rest => memTake size (if a < size then memStore m a v else m) rest

/-- A reset event (R250, R251): the state of R250, with `MSG` keeping its bytes but for those of `bytes`. The host's plan and what
it has read are not the engine's and stay. -/
def State.hardReset (s : State) (bytes : Memory) : State :=
  { State.resetWith s.msgMax (memTake s.msgSize s.msg bytes) with agenda := s.agenda, replies := s.replies }

end Sys2Proof.Machine
end

