-- ==== Sys2Proof/Machine/FieldMath.lean ====
section
/-! DEFINITION. The field GF(p), p = 2^255 − 19 (spec/00_scope.md R7; spec/40_field.md R100 to R103). A field element is its canonical integer in
`[0, p)` (spec/10_state.md R36). -/

namespace Sys2Proof.Machine

/-- The field prime (R7). -/
def fieldPrime : Nat := 2 ^ 255 - 19

/-- `fdec(b) = (le(b) mod 2^255) mod p` (R100). -/
def fdec (b : Word) : Nat := b.toNat % 2 ^ 255 % fieldPrime

/-- `fenc(v) = bytes_32(v mod p)` (R101). -/
def fenc (v : Nat) : Word := BitVec.ofNat 256 (v % fieldPrime)

/-- Addition in GF(p) (R103). -/
def fadd (a b : Nat) : Nat := (a + b) % fieldPrime

/-- Subtraction in GF(p) (R103): it never goes negative. -/
def fsub (a b : Nat) : Nat := (a + (fieldPrime - b % fieldPrime)) % fieldPrime

/-- Multiplication in GF(p) (R103). -/
def fmul (a b : Nat) : Nat := a * b % fieldPrime

/-- Squaring in GF(p). -/
def fsqr (a : Nat) : Nat := fmul a a

/-- `b^e mod p` for an exponent of at most `bits` bits, by squaring. -/
def fpowBits (bits b e : Nat) : Nat :=
  match bits with
  | 0 => 1
  | k + 1 =>
    if e % 2 = 1 then fmul (fpowBits k (fsqr b) (e / 2)) b else fpowBits k (fsqr b) (e / 2)

/-- `b^e mod p`, for `e < 2^256`. -/
def fpow (b e : Nat) : Nat := fpowBits 256 b e

/-- `finv(v) = v^(p−2) mod p` (R102); the inverse of 0 is 0. -/
def finv (v : Nat) : Nat := fpow v (fieldPrime - 2)

/-- Bit 255 of a register, the top bit of byte 31 (R15). -/
def topBit (b : Word) : Bool := b.getLsbD 255

/-- A register with its bit 255 replaced. -/
def withTopBit (b : Word) (v : Bool) : Word := BitVec.ofNat 256 (b.toNat % 2 ^ 255 + 2 ^ 255 * v.toNat)

end Sys2Proof.Machine
end

