-- ==== Sys2Proof/Machine/ScalarMath.lean ====
section
/-! DEFINITION. Scalars and the group order L (spec/00_scope.md R9; spec/41_scalar.md R120, R122; spec/44_protocol.md R182). -/

namespace Sys2Proof.Machine

/-- The prime order `L` of the subgroup of the base point (R9). -/
def groupOrder : Nat := 2 ^ 252 + 27742317777372353535851937790883648493

/-- `clamp(b)` (R120): clear bits 0, 1, 2 and 255, set bit 254. -/
def clamp (b : Word) : Word := (b &&& BitVec.ofNat 256 (2 ^ 255 - 8)) ||| BitVec.ofNat 256 (2 ^ 254)

/-- A scalar reduced modulo `L`, as a register holds it (R122). -/
def scalarWord (v : Nat) : Word := BitVec.ofNat 256 (v % groupOrder)

/-- `hred(s) = le(H(s)) mod L` for the hash function `H` (R182). -/
def hred (H : List Byte → DWord) (s : List Byte) : Nat := (H s).toNat % groupOrder

end Sys2Proof.Machine
end

