-- ==== Sys2Proof/Machine/MontgomeryMath.lean ====
section
/-! DEFINITION. The Montgomery ladder as spec/42_montgomery.md R140, R141 write it. -/

namespace Sys2Proof.Machine

/-- `a24 = (A_M − 2)/4` (R8). -/
def a24 : Nat := 121665

/-- `U_BASE`, the u-coordinate of the base point (R11). -/
def uBase : Nat := 9

/-- The two running points `(x2 : z2)`, `(x3 : z3)` of the ladder and its swap bit (R141). -/
structure LadderPair where
  x2 : Nat
  z2 : Nat
  x3 : Nat
  z3 : Nat
  swap : Bool
  deriving DecidableEq, Repr

/-- `cswap` of both coordinates by the bit `c`, as R141 pairs them. -/
def ladderSwap (c : Bool) (q : LadderPair) : LadderPair :=
  if c then ⟨q.x3, q.z3, q.x2, q.z2, q.swap⟩ else q

/-- The arithmetic of one iteration (R141, from `A = x2 + z2` to the new `z2`), the swap bit becoming `kt`. -/
def ladderArith (x1 : Nat) (kt : Bool) (q : LadderPair) : LadderPair :=
  let a := fadd q.x2 q.z2
  let aa := fsqr a
  let b := fsub q.x2 q.z2
  let bb := fsqr b
  let e := fsub aa bb
  let c := fadd q.x3 q.z3
  let d := fsub q.x3 q.z3
  let da := fmul d a
  let cb := fmul c b
  { x3 := fsqr (fadd da cb)
    z3 := fmul x1 (fsqr (fsub da cb))
    x2 := fmul aa bb
    z2 := fmul e (fadd aa (fmul a24 e))
    swap := kt }

/-- The iteration of R141 for bit `t` of the scalar. -/
def ladderStep (k x1 t : Nat) (q : LadderPair) : LadderPair :=
  ladderArith x1 (k.testBit t) (ladderSwap (xor q.swap (k.testBit t)) q)

/-- The iterations for the bits `n−1` down to 0. -/
def ladderLoop (k x1 n : Nat) (q : LadderPair) : LadderPair :=
  match n with
  | 0 => q
  | t + 1 => ladderLoop k x1 t (ladderStep k x1 t q)

/-- `ladder(kb, ub)` (R141): 255 iterations, the last swap, and `fenc(x2 · finv(z2))`. -/
def ladder (kb ub : Word) : Word :=
  let k := kb.toNat % 2 ^ 255
  let x1 := fdec ub
  let q := ladderLoop k x1 255 ⟨1, 0, x1, 1, false⟩
  let r := ladderSwap q.swap q
  fenc (fmul r.x2 (finv r.z2))

end Sys2Proof.Machine
end

