-- ==== Sys2Proof/Machine/EdwardsMath.lean ====
section
/-! DEFINITION. Points of the Edwards curve, their encoding, the group law and the birational map (spec/00_scope.md R10, R11;
spec/43_edwards.md R150 to R159). A point is its affine pair (R36). -/

namespace Sys2Proof.Machine

/-- The curve constant `d` (R10). -/
def curveD : Nat := 37095705934669439343138083508754565189542113879843219016388785533085940283555

/-- `I`, a square root of −1 (R10). -/
def sqrtNegOne : Nat := 19681161376707505956807079304988542015446066515923890162744021073123829784752

/-- A pair of field elements (R150); `Point.onCurve` says whether it is a point. -/
structure Point where
  x : Nat
  y : Nat
  deriving DecidableEq, Repr

/-- The base point `B` (R11). -/
def basePoint : Point :=
  ⟨15112221349535400772501151409588531511454012693041857206046113283949847762202,
   46316835694926478169428394003475163141307993866256225615783033603165251855960⟩

/-- The neutral point `(0, 1)` (R150). -/
def neutralPoint : Point := ⟨0, 1⟩

/-- `−x² + y² = 1 + d·x²·y²` in GF(p), with both coordinates canonical (R150). -/
def Point.onCurve (P : Point) : Bool :=
  decide (P.x < fieldPrime) && decide (P.y < fieldPrime) &&
    decide (fsub (fsqr P.y) (fsqr P.x) = fadd 1 (fmul curveD (fmul (fsqr P.x) (fsqr P.y))))

/-- `penc((x, y)) = bytes_32(y + 2^255·(x mod 2))` (R151). -/
def penc (P : Point) : Word := BitVec.ofNat 256 (P.y + 2 ^ 255 * (P.x % 2))

/-- A square root of `w`, if it has one: `w^((p+3)/8)`, times `I` if that is not one (R152). -/
def fsqrt (w : Nat) : Option Nat :=
  if fsqr (fpow w ((fieldPrime + 3) / 8)) = w then some (fpow w ((fieldPrime + 3) / 8))
  else if fsqr (fmul (fpow w ((fieldPrime + 3) / 8)) sqrtNegOne) = w then
    some (fmul (fpow w ((fieldPrime + 3) / 8)) sqrtNegOne)
  else none

/-- Of the two square roots `r` and `p − r`, the one of parity `s` (R152). -/
def rootOfParity (r : Nat) (s : Bool) : Nat := if r % 2 = s.toNat then r else fieldPrime - r

/-- The value `x²` must have for the y-coordinate `y`: `(y² − 1)·finv(d·y² + 1)` (R152). -/
def xSquared (y : Nat) : Nat := fmul (fsub (fsqr y) 1) (finv (fadd (fmul curveD (fsqr y)) 1))

/-- The point with y-coordinate `y` and parity `s`, if there is one (R152). -/
def recoverX (y : Nat) (s : Bool) : Option Point :=
  if xSquared y = 0 then some ⟨0, y⟩
  else
    match fsqrt (xSquared y) with
    | none => none
    | some r => some ⟨rootOfParity r s, y⟩

/-- `pdec(b)` (R152): a point, or none for `⊥`. -/
def pdec (b : Word) : Option Point := recoverX (fdec b) (topBit b)

/-- `padd(P, Q)` (R153). -/
def padd (P Q : Point) : Point :=
  let t := fmul curveD (fmul (fmul P.x Q.x) (fmul P.y Q.y))
  { x := fmul (fadd (fmul P.x Q.y) (fmul P.y Q.x)) (finv (fadd 1 t))
    y := fmul (fadd (fmul P.y Q.y) (fmul P.x Q.x)) (finv (fsub 1 t)) }

/-- `pneg(P) = ((p − x) mod p, y)` (R154). -/
def pneg (P : Point) : Point := ⟨(fieldPrime - P.x) % fieldPrime, P.y⟩

/-- `[n]P` for an `n` of at most `bits` bits, by doubling and adding with `padd`. -/
def smulBits (bits n : Nat) (P : Point) : Point :=
  match bits with
  | 0 => neutralPoint
  | k + 1 =>
    if n % 2 = 1 then padd (smulBits k (n / 2) (padd P P)) P else smulBits k (n / 2) (padd P P)

/-- `smul(n, P) = [n]P` (R155), the method being unobservable (U14); log entry 9. -/
def smul (n : Nat) (P : Point) : Point := smulBits (n.log2 + 1) n P

/-- `[s]B − [h]A = padd([s]B, pneg([h]A))` (R155). -/
def doubleSmul (s h : Nat) (A : Point) : Point := padd (smul s basePoint) (pneg (smul h A))

/-- `e2m((x, y)) = (1 + y)·finv(1 − y)` (R158). -/
def e2m (P : Point) : Nat := fmul (fadd 1 P.y) (finv (fsub 1 P.y))

/-- `m2e(ub, s)` (R159): a point, or none for `⊥`. -/
def m2e (ub : Word) (s : Bool) : Option Point :=
  if fdec ub = fieldPrime - 1 then none
  else pdec (withTopBit (fenc (fmul (fsub (fdec ub) 1) (finv (fadd (fdec ub) 1)))) s)

end Sys2Proof.Machine
end

