-- ==== Sys2Proof/Machine/ProtocolMath.lean ====
section
/-! DEFINITION. Signing and verification as functions (spec/44_protocol.md R180 to R184, R190) of the hash function `H` and the padding block, which
the meanings take from Config. -/

namespace Sys2Proof.Machine

/-- The bytes of a register, byte 0 first. -/
def wordBytes (v : Word) : List Byte := bytesOf 32 v

/-- The bytes of the random operand, nothing where it is absent (R183 step 2). -/
def randomBytes (rnd : Option DWord) : List Byte :=
  match rnd with
  | none => []
  | some r => bytesOf 64 r

/-- The clamped scalar `k = le(clamp(kb))` of a private-key operand (R180). -/
def keyScalar (kb : Word) : Nat := (clamp kb).toNat

/-- `Aenc = penc([k]B)`, the Edwards public point of a private-key operand (R181). -/
def keyPoint (kb : Word) : Word := penc (smul (keyScalar kb) basePoint)

/-- The nonce `r = hred(PAD32 ‖ kb ‖ M ‖ rnd)` (R183 step 2). -/
def signNonce (H : List Byte → DWord) (pad kb : Word) (m : List Byte) (rnd : Option DWord) : Nat :=
  hred H (wordBytes pad ++ wordBytes kb ++ m ++ randomBytes rnd)

/-- The challenge `h = hred(R ‖ A ‖ M)` (R183 step 4, R184 step 4). -/
def challenge (H : List Byte → DWord) (renc aenc : Word) (m : List Byte) : Nat :=
  hred H (wordBytes renc ++ wordBytes aenc ++ m)

/-- `sign(kb, M, rnd)` (R183): a function of the key bytes, the message and the random bytes, so equal inputs give equal signatures (R190 (b)), and
always 64 bytes by its type (R190 (c)). -/
def sign (H : List Byte → DWord) (pad kb : Word) (m : List Byte) (rnd : Option DWord) : DWord :=
  let aenc := keyPoint kb
  let r := signNonce H pad kb m rnd
  let renc := penc (smul r basePoint)
  let h := challenge H renc aenc m
  withTopBit (scalarWord (r + h * keyScalar kb)) (topBit aenc) ++ renc

/-- The steps 3 to 6 of `verify` for the scalar `S` and the reconstructed point `A` (R184). -/
def verifyPoint (H : List Byte → DWord) (m : List Byte) (renc : Word) (s : Nat) (A : Point) : Bool :=
  (pdec renc).isSome && decide (penc (doubleSmul s (challenge H renc (penc A) m) A) = renc)

/-- `verify(pb, M, sig)` (R184). It accepts what `sign` makes, for every `H` and padding block (R190 (a)), and rejects another `S` below `L` in an accepted
signature (R190 (d)). -/
def verify (H : List Byte → DWord) (pb : Word) (m : List Byte) (sig : DWord) : Bool :=
  let s := (highHalf sig).toNat % 2 ^ 255
  if groupOrder ≤ s then false
  else (m2e pb (topBit (highHalf sig))).any fun A => verifyPoint H m (lowHalf sig) s A

end Sys2Proof.Machine
end

