-- ==== Sys2Proof/Machine/Operands.lean ====
section
/-! DEFINITION. The operand forms of the commands: the five readings of a register (spec/10_state.md R21), the selector and sign bits, and the
destinations with their canonical results. -/

namespace Sys2Proof.Machine

/-- A register read as a field element or a u-coordinate (R21). -/
def State.fieldOp (s : State) (i : Reg) : Nat := fdec (s.reg i)

/-- A register read as a scalar, all 256 bits (R21). -/
def State.scalarOp (s : State) (i : Reg) : Nat := (s.reg i).toNat

/-- A register pair read as a 64-byte integer (R21, R123). -/
def State.wideOp (s : State) (n : Reg) : Nat := (s.pair n).toNat

/-- A register read as a point, none where its bytes do not decode (R21). -/
def State.pointOp (s : State) (i : Reg) : Option Point := pdec (s.reg i)

/-- The selector of `FCSWAP`: bit 0 of byte 0 (R109). -/
def State.selectorOp (s : State) (i : Reg) : Bool := (s.reg i).getLsbD 0

/-- The sign bit of `M2E`: bit 255 (R166). -/
def State.signOp (s : State) (i : Reg) : Bool := topBit (s.reg i)

/-- A field element or u-coordinate written to a register, in canonical form (R21). -/
def State.setField (s : State) (i : Reg) (v : Nat) : State := s.setReg i (fenc v)

/-- A scalar written to a register, reduced modulo `L` (R21, R122). -/
def State.setScalar (s : State) (i : Reg) (v : Nat) : State := s.setReg i (scalarWord v)

/-- A point written to a register, in its canonical encoding (R21). -/
def State.setPoint (s : State) (i : Reg) (P : Point) : State := s.setReg i (penc P)

end Sys2Proof.Machine
end

