-- ==== Sys2Proof/Machine/Flags.lean ====
section
/-! DEFINITION. The values of `FLAG` (spec/10_state.md R28) and the checks of `MLEN` (spec/60_exceptions.md R222), once for all commands. -/

namespace Sys2Proof.Machine

/-- `FLAG` of a command that cannot reject: 1 (R28). -/
def flagTrue : Bool := true

/-- `FLAG` of a rejection: 0 (R28, R224). -/
def flagReject : Bool := false

/-- `FLAG` of `SEQ`: all 256 bits equal, nothing reduced or masked (R125). -/
def flagSeq (a b : Word) : Bool := decide (a = b)

/-- `FLAG` of `SLTL`: below `L` once bit 255 is cleared (R126). -/
def flagSltl (a : Word) : Bool := decide (a.toNat % 2 ^ 255 < groupOrder)

/-- The end of a point command (R160 to R166): a rejection writes `FLAG` and no register. -/
def finishPoint (s : State) (found : Option State) : Result :=
  match found with
  | none => finish flagReject s
  | some t => finish flagTrue t

/-- The `MLEN` error of `SIGN`, `SIGNR`, `VERIFY` and `OPENMSG` (R222): `MLEN > MSG_MAX`. -/
def State.messageTooLong (s : State) : Bool := decide (s.msgSize < s.mlen.toNat)

/-- The `MLEN` error of `SIGNMSG` (R222): `MLEN + 64 > MSG_MAX`. -/
def State.noRoomForSignature (s : State) : Bool := decide (s.msgSize < s.mlen.toNat + 64)

/-- A message command that is refused with `MLEN` or goes on (R83, R222). -/
def checkMlen (bad : Bool) (s : State) (go : Result) : Result :=
  if bad then raiseError .mlen s else go

end Sys2Proof.Machine
end

