-- ==== Sys2Proof/Machine/Bus.lean ====
section
/-! DEFINITION. The host's bus accesses (spec/20_memory.md R50 to R60): the control registers (spec/10_state.md R29 to R35), the register window
and the message window. -/

namespace Sys2Proof.Machine

/-- The number of bytes an access moves (R50). -/
def AccessSize.bytes (n : AccessSize) : Nat :=
  match n with
  | .byte => 1
  | .half => 2
  | .word => 4

/-- The six control and status registers (R29). -/
inductive CtrlReg where
  | cmd
  | status
  | ctrl
  | mlen
  | id
  | cap
  deriving DecidableEq, Repr

/-- The place an access names: a control register, or an index in one of the two windows (R55). -/
inductive Place where
  | control (r : CtrlReg)
  | regs (index : Nat)
  | message (index : Nat)
  deriving DecidableEq, Repr

/-- The control register at an offset (R55). -/
def controlRegAt (addr : Nat) : Option CtrlReg :=
  match addr with
  | 0x00 => some .cmd
  | 0x04 => some .status
  | 0x08 => some .ctrl
  | 0x0C => some .mlen
  | 0x10 => some .id
  | 0x14 => some .cap
  | _ => none

/-- The place of an access of `n` bytes at `addr`, none where the response is `ERR` (R53, R55, R58): the access is aligned, is
of a size the region accepts, and lies inside one region. -/
def State.place (s : State) (addr n : Nat) : Option Place :=
  if addr % n ≠ 0 then none
  else if addr < 0x18 then
    if n = 4 then (controlRegAt addr).map Place.control else none
  else if 0x200 ≤ addr ∧ addr + n ≤ 0x400 then some (.regs (addr - 0x200))
  else if 0x1000 ≤ addr ∧ addr + n ≤ 0x1000 + s.msgSize then some (.message (addr - 0x1000))
  else none

/-- The number of an error code (R220). -/
def errNumber (e : ErrCode) : Nat :=
  match e with
  | .none => 0
  | .illop => 1
  | .rsvd => 2
  | .pair => 3
  | .mlen => 4

/-- `STATUS` as it reads (R31): reserved bits 0. -/
def State.statusWord (s : State) : BitVec 32 :=
  BitVec.ofNat 32
    (s.busy.toNat + 2 * s.done.toNat + 4 * s.flag.toNat + 8 * s.bwe.toNat + 256 * errNumber s.err)

/-- `ID` (R33). -/
def idWord : BitVec 32 := 0xC2551901#32

/-- `CAP` (R35): `MSG_MAX` and, in bits 23 to 16, `NREG` = 16. -/
def State.capWord (s : State) : BitVec 32 := BitVec.ofNat 32 (s.msgMax.toNat + 16 * 2 ^ 16)

/-- A control register as it reads (R29 to R35). -/
def State.readControl (s : State) (r : CtrlReg) : BitVec 32 :=
  match r with
  | .cmd => s.cmd
  | .status => s.statusWord
  | .ctrl => BitVec.ofNat 32 s.ie.toNat
  | .mlen => BitVec.ofNat 32 s.mlen.toNat
  | .id => idWord
  | .cap => s.capWord

/-- A byte of the register window: byte `j` of `x[i]` at index `32·i + j` (R56). -/
def State.regByte (s : State) (k : Nat) : Byte :=
  (s.reg (Fin.ofNat 16 (k / 32))).extractLsb' (8 * (k % 32)) 8

/-- A register with its byte `j` replaced. -/
def setWordByte (v : Word) (j : Nat) (b : Byte) : Word :=
  (v &&& ~~~(0xFF#256 <<< (8 * j))) ||| (b.setWidth 256 <<< (8 * j))

/-- A byte stored through the register window (R56). -/
def State.setRegByte (s : State) (k : Nat) (b : Byte) : State :=
  s.setReg (Fin.ofNat 16 (k / 32)) (setWordByte (s.reg (Fin.ofNat 16 (k / 32))) (k % 32) b)

/-- Bytes stored through the register window from index `k` upward: exactly those bytes change (R52). -/
def State.setRegBytes (s : State) (k : Nat) (bs : List Byte) : State :=
  match bs with
  | [] => s
  | b :: rest => State.setRegBytes (s.setRegByte k b) (k + 1) rest

/-- The bytes of a window from an index upward, as bus data: the byte at `a + k` in data bits `8k+7` to `8k` (R51). The
data bits above the access's bytes are 0 (log entry 7). -/
def busData (bs : List Byte) : BitVec 32 := BitVec.ofNat 32 (leBytes bs)

/-- A place as it reads: the windows read as 0 while `BUSY = 1` (R56, R57, R60). -/
def State.readPlace (s : State) (pl : Place) (n : Nat) : BitVec 32 :=
  match pl with
  | .control r => s.readControl r
  | .regs k => if s.busy then 0#32 else busData ((List.range n).map fun j => s.regByte (k + j))
  | .message k => if s.busy then 0#32 else busData (s.memRead k n)

/-- A write of a control register (R30 to R35, R60): `CMD` and `MLEN` are dropped while `BUSY = 1`, `STATUS` and `CTRL` take
effect at any time, `ID` and `CAP` ignore writes. -/
def State.writeControl (s : State) (r : CtrlReg) (data : BitVec 32) : State :=
  match r with
  | .cmd => if s.busy then s.dropWrite else s.issue data
  | .status =>
    let t := if data.getLsbD 1 then s.ackDone else s
    if data.getLsbD 3 then t.clearBwe else t
  | .ctrl => { s with ie := data.getLsbD 0 }
  | .mlen => if s.busy then s.dropWrite else s.setMlen (data.setWidth 16)
  | .id => s
  | .cap => s

/-- A write of `n` bytes of `data` to a place (R51, R52, R60). -/
def State.writePlace (s : State) (pl : Place) (n : Nat) (data : BitVec 32) : State :=
  match pl with
  | .control r => s.writeControl r data
  | .regs k => if s.busy then s.dropWrite else s.setRegBytes k (bytesOf n data)
  | .message k => if s.busy then s.dropWrite else s.memWrite k (bytesOf n data)

/-- The answer of `BusRead(addr, size)` (R50): a read has no side effect (R54). -/
def State.busRead (s : State) (addr : BitVec 16) (size : AccessSize) : BusReply :=
  match s.place addr.toNat size.bytes with
  | none => .read .err 0#32
  | some pl => .read .ok (s.readPlace pl size.bytes)

/-- The answer of `BusWrite(addr, size, data)` (R50). -/
def State.busWriteReply (s : State) (addr : BitVec 16) (size : AccessSize) : BusReply :=
  match s.place addr.toNat size.bytes with
  | none => .write .err
  | some _ => .write .ok

/-- The effect of `BusWrite(addr, size, data)` (R50): a refused access changes no state (R53, R58, R227). -/
def State.busWrite (s : State) (addr : BitVec 16) (size : AccessSize) (data : BitVec 32) : State :=
  match s.place addr.toNat size.bytes with
  | none => s
  | some pl => s.writePlace pl size.bytes data

/-- The host notes what the bus answered. -/
def State.note (s : State) (r : BusReply) : State := { s with replies := r :: s.replies }

end Sys2Proof.Machine
end

