-- ==== Sys2Proof/Machine/Edwards.lean ====
section
/-! DEFINITION. The meanings of the Edwards point commands (spec/43_edwards.md R160 to R166). An operand that does not decode is a rejection: `FLAG`
becomes 0 and the destination keeps its bytes. -/

namespace Sys2Proof.Machine

/-- `PADD rd, rs1, rs2` (R160). -/
def execPadd (rd rs1 rs2 : Reg) (s : State) : Result :=
  finishPoint s ((s.pointOp rs1).bind fun P => (s.pointOp rs2).map fun Q => s.setPoint rd (padd P Q))

/-- `PDBL rd, rs1` (R161). -/
def execPdbl (rd rs1 : Reg) (s : State) : Result :=
  finishPoint s ((s.pointOp rs1).map fun P => s.setPoint rd (padd P P))

/-- `PSMULB rd, rs1` (R162): the scalar is the whole 256-bit integer. -/
def execPsmulb (rd rs1 : Reg) (s : State) : Result :=
  finish flagTrue (s.setPoint rd (smul (s.scalarOp rs1) basePoint))

/-- `PDSMUL rd, rs1, rs2, rs3` (R163): `[s]B − [h]A`, neither scalar reduced. -/
def execPdsmul (rd rs1 rs2 rs3 : Reg) (s : State) : Result :=
  finishPoint s ((s.pointOp rs3).map fun A => s.setPoint rd (doubleSmul (s.scalarOp rs1) (s.scalarOp rs2) A))

/-- `PDEC rd, rs1` (R164). -/
def execPdec (rd rs1 : Reg) (s : State) : Result :=
  finishPoint s ((s.pointOp rs1).map fun P => s.setPoint rd P)

/-- `E2M rd, rs1` (R165). -/
def execE2m (rd rs1 : Reg) (s : State) : Result :=
  finishPoint s ((s.pointOp rs1).map fun P => s.setField rd (e2m P))

/-- `M2E rd, rs1, rs2` (R166). -/
def execM2e (rd rs1 rs2 : Reg) (s : State) : Result :=
  finishPoint s ((m2e (s.reg rs1) (s.signOp rs2)).map fun P => s.setPoint rd P)

end Sys2Proof.Machine
end

