-- ==== Sys2Proof/Machine/Field.lean ====
section
/-! DEFINITION. The meanings of the field commands (spec/40_field.md R104 to R110). -/

namespace Sys2Proof.Machine

/-- `FADD rd, rs1, rs2` (R104). -/
def execFadd (rd rs1 rs2 : Reg) (s : State) : Result :=
  finish flagTrue (s.setField rd (fadd (s.fieldOp rs1) (s.fieldOp rs2)))

/-- `FSUB rd, rs1, rs2` (R105). -/
def execFsub (rd rs1 rs2 : Reg) (s : State) : Result :=
  finish flagTrue (s.setField rd (fsub (s.fieldOp rs1) (s.fieldOp rs2)))

/-- `FMUL rd, rs1, rs2` (R106). -/
def execFmul (rd rs1 rs2 : Reg) (s : State) : Result :=
  finish flagTrue (s.setField rd (fmul (s.fieldOp rs1) (s.fieldOp rs2)))

/-- `FSQR rd, rs1` (R107). -/
def execFsqr (rd rs1 : Reg) (s : State) : Result :=
  finish flagTrue (s.setField rd (fsqr (s.fieldOp rs1)))

/-- `FINV rd, rs1` (R108). -/
def execFinv (rd rs1 : Reg) (s : State) : Result :=
  finish flagTrue (s.setField rd (finv (s.fieldOp rs1)))

/-- `FCSWAP rd, rs1, rs2` (R109): the 32 bytes are exchanged as they stand, all three registers being read first. -/
def execFcswap (rd rs1 rs2 : Reg) (s : State) : Result :=
  finish flagTrue
    (if s.selectorOp rs2 then (s.setReg rd (s.reg rs1)).setReg rs1 (s.reg rd)
     else (s.setReg rd (s.reg rd)).setReg rs1 (s.reg rs1))

/-- `FCAN rd, rs1` (R110). -/
def execFcan (rd rs1 : Reg) (s : State) : Result :=
  finish flagTrue (s.setField rd (s.fieldOp rs1))

end Sys2Proof.Machine
end

