-- ==== Sys2Proof/Machine/Montgomery.lean ====
section
/-! DEFINITION. The meanings of the ladder commands (spec/42_montgomery.md R142, R143). Neither clamps its scalar (R140). -/

namespace Sys2Proof.Machine

/-- `LADDER rd, rs1, rs2` (R142). -/
def execLadder (rd rs1 rs2 : Reg) (s : State) : Result :=
  finish flagTrue (s.setReg rd (ladder (s.reg rs1) (s.reg rs2)))

/-- `LADDERB rd, rs1` (R143): `LADDER` with `U_BASE`. -/
def execLadderb (rd rs1 : Reg) (s : State) : Result :=
  finish flagTrue (s.setReg rd (ladder (s.reg rs1) (BitVec.ofNat 256 uBase)))

end Sys2Proof.Machine
end

