-- ==== Sys2Proof/Machine/Protocol.lean ====
section
/-! DEFINITION. The meanings of the protocol commands (spec/44_protocol.md R185 to R192), with the implementation's `H` and `PAD32` (R12, R13). -/

namespace Sys2Proof.Machine

/-- `GENKEY rd, rs1` (R185): the PrivateKey to `x[rd]`, the PublicKey to `x[rd+1]`. -/
def execGenkey (rd rs1 : Reg) (s : State) : Result :=
  finish flagTrue
    ((s.setReg rd (clamp (s.reg rs1))).setReg (pairHigh rd)
      (ladder (clamp (s.reg rs1)) (BitVec.ofNat 256 uBase)))

/-- `SHARED rd, rs1, rs2` (R186): no public key is rejected, and two honest parties agree (R190 (e)). -/
def execShared (rd rs1 rs2 : Reg) (s : State) : Result :=
  finish flagTrue (s.setReg rd (ladder (clamp (s.reg rs1)) (s.reg rs2)))

/-- `SIGN rd, rs1` (R187). -/
def execSign (rd rs1 : Reg) (s : State) : Result :=
  checkMlen s.messageTooLong s
    (finish flagTrue (s.setPair rd (sign Config.hash Config.pad32 (s.reg rs1) s.message none)))

/-- `SIGNR rd, rs1, rs2` (R188). -/
def execSignr (rd rs1 rs2 : Reg) (s : State) : Result :=
  checkMlen s.messageTooLong s
    (finish flagTrue (s.setPair rd (sign Config.hash Config.pad32 (s.reg rs1) s.message (some (s.pair rs2)))))

/-- `VERIFY rs1, rs2` (R189): nothing but `FLAG` is written. -/
def execVerify (rs1 rs2 : Reg) (s : State) : Result :=
  checkMlen s.messageTooLong s
    (finish (verify Config.hash (s.reg rs1) s.message (s.pair rs2)) s)

/-- `SIGNMSG rs1` (R191): the signature is appended to the message in `MSG`, 64 bytes longer (R190 (f)). -/
def execSignmsg (rs1 : Reg) (s : State) : Result :=
  checkMlen s.noRoomForSignature s
    (finish flagTrue
      ((s.memWrite s.mlen.toNat
          (bytesOf 64 (sign Config.hash Config.pad32 (s.reg rs1) s.message none))).setMlen (s.mlen + 64#16)))

/-- The 64-byte integer of the attached signature, `MemRead(MLEN − 64, 64)` (R192). -/
def State.attachedSignature (s : State) : DWord :=
  BitVec.ofNat 512 (leBytes (s.memRead (s.mlen.toNat - 64) 64))

/-- Whether `OPENMSG` accepts (R192): `MLEN ≥ 64` and the attached signature verifies for the bytes before it. -/
def State.openAccepts (s : State) (pb : Word) : Bool :=
  decide (64 ≤ s.mlen.toNat) &&
    verify Config.hash pb (s.memRead 0 (s.mlen.toNat - 64)) s.attachedSignature

/-- `OPENMSG rs1` (R192): `MLEN` loses 64 on accept and becomes 0 on reject; no byte of `MSG` changes, so that after
`SIGNMSG` the message is as it was (R190 (f)). -/
def execOpenmsg (rs1 : Reg) (s : State) : Result :=
  checkMlen s.messageTooLong s
    (if s.openAccepts (s.reg rs1) then finish flagTrue (s.setMlen (s.mlen - 64#16))
     else finish flagReject (s.setMlen 0#16))

end Sys2Proof.Machine
end

