-- ==== Sys2Proof/Machine/Scalar.lean ====
section
/-! DEFINITION. The meanings of the scalar commands (spec/41_scalar.md R121 to R126). -/

namespace Sys2Proof.Machine

/-- `SCLAMP rd, rs1` (R121). -/
def execSclamp (rd rs1 : Reg) (s : State) : Result :=
  finish flagTrue (s.setReg rd (clamp (s.reg rs1)))

/-- `SRED rd, rs1` (R123): the 64-byte integer of the pair, reduced modulo `L`. -/
def execSred (rd rs1 : Reg) (s : State) : Result :=
  finish flagTrue (s.setScalar rd (s.wideOp rs1))

/-- `SMULADD rd, rs1, rs2, rs3` (R124): `(a + b·c) mod L`. -/
def execSmuladd (rd rs1 rs2 rs3 : Reg) (s : State) : Result :=
  finish flagTrue (s.setScalar rd (s.scalarOp rs1 + s.scalarOp rs2 * s.scalarOp rs3))

/-- `SEQ rs1, rs2` (R125): no register is written. -/
def execSeq (rs1 rs2 : Reg) (s : State) : Result :=
  finish (flagSeq (s.reg rs1) (s.reg rs2)) s

/-- `SLTL rs1` (R126): no register is written. -/
def execSltl (rs1 : Reg) (s : State) : Result :=
  finish (flagSltl (s.reg rs1)) s

end Sys2Proof.Machine
end

