-- ==== Sys2Proof/Machine/System.lean ====
section
/-! DEFINITION. The meanings of the system commands (spec/45_system.md R210, R211). -/

namespace Sys2Proof.Machine

/-- `NOP` (R210): only the completion. -/
def execNop (s : State) : Result := finish flagTrue s

/-- `ZEROIZE` (R211): every register, every byte of `MSG` and `MLEN` become 0. -/
def execZeroize (s : State) : Result :=
  finish flagTrue ((s.clearRegs.clearMsg).setMlen 0#16)

end Sys2Proof.Machine
end

