-- ==== Sys2Proof/Machine/Dispatch.lean ====
section
/-! DEFINITION. One arm per command, each one call of its meaning (spec/30_encoding.md R86). -/

namespace Sys2Proof.Machine

def exec (i : Instr) (s : State) : Host.Outcome State Fault Refusal :=
  match i with
  | .nop => Sys2Proof.Machine.execNop s
  | .zeroize => Sys2Proof.Machine.execZeroize s
  | .fadd rd rs1 rs2 => Sys2Proof.Machine.execFadd rd rs1 rs2 s
  | .fsub rd rs1 rs2 => Sys2Proof.Machine.execFsub rd rs1 rs2 s
  | .fmul rd rs1 rs2 => Sys2Proof.Machine.execFmul rd rs1 rs2 s
  | .fsqr rd rs1 => Sys2Proof.Machine.execFsqr rd rs1 s
  | .finv rd rs1 => Sys2Proof.Machine.execFinv rd rs1 s
  | .fcswap rd rs1 rs2 => Sys2Proof.Machine.execFcswap rd rs1 rs2 s
  | .fcan rd rs1 => Sys2Proof.Machine.execFcan rd rs1 s
  | .sclamp rd rs1 => Sys2Proof.Machine.execSclamp rd rs1 s
  | .sred rd rs1 => Sys2Proof.Machine.execSred rd rs1 s
  | .smuladd rd rs1 rs2 rs3 => Sys2Proof.Machine.execSmuladd rd rs1 rs2 rs3 s
  | .seq rs1 rs2 => Sys2Proof.Machine.execSeq rs1 rs2 s
  | .sltl rs1 => Sys2Proof.Machine.execSltl rs1 s
  | .ladder rd rs1 rs2 => Sys2Proof.Machine.execLadder rd rs1 rs2 s
  | .ladderb rd rs1 => Sys2Proof.Machine.execLadderb rd rs1 s
  | .padd rd rs1 rs2 => Sys2Proof.Machine.execPadd rd rs1 rs2 s
  | .pdbl rd rs1 => Sys2Proof.Machine.execPdbl rd rs1 s
  | .psmulb rd rs1 => Sys2Proof.Machine.execPsmulb rd rs1 s
  | .pdsmul rd rs1 rs2 rs3 => Sys2Proof.Machine.execPdsmul rd rs1 rs2 rs3 s
  | .pdec rd rs1 => Sys2Proof.Machine.execPdec rd rs1 s
  | .e2m rd rs1 => Sys2Proof.Machine.execE2m rd rs1 s
  | .m2e rd rs1 rs2 => Sys2Proof.Machine.execM2e rd rs1 rs2 s
  | .genkey rd rs1 => Sys2Proof.Machine.execGenkey rd rs1 s
  | .shared rd rs1 rs2 => Sys2Proof.Machine.execShared rd rs1 rs2 s
  | .sign rd rs1 => Sys2Proof.Machine.execSign rd rs1 s
  | .signr rd rs1 rs2 => Sys2Proof.Machine.execSignr rd rs1 rs2 s
  | .verify rs1 rs2 => Sys2Proof.Machine.execVerify rs1 rs2 s
  | .signmsg rs1 => Sys2Proof.Machine.execSignmsg rs1 s
  | .openmsg rs1 => Sys2Proof.Machine.execOpenmsg rs1 s

end Sys2Proof.Machine
end

