-- ==== Sys2Proof/Machine/Engine.lean ====
section
/-! DEFINITION. The two agents (spec/20_memory.md R62): the engine's completion step (spec/30_encoding.md R83) and the host's steps (R50, R82, R91), and which of
them moves. -/

namespace Sys2Proof.Machine

/-- Completion (R83): the first error of the word, or the rule of the command it names. -/
def complete (s : State) : Result :=
  match decode s.cmd with
  | .error e => raiseError e s
  | .ok i => exec i s

/-- The engine's turn: its one enabled step while `BUSY = 1` (R38, R83); idle, it waits (R250). Log entry 6. -/
def engineTurn (s : State) : Result :=
  if s.busy then complete s else .next s

/-- The host's plan without its first action. -/
def State.popAction (s : State) : State := { s with agenda := s.agenda.tail }

/-- One step of the host, or of the engine where the host waits (R50, R54, R62, R91); the state has the action already taken
from its plan. -/
def hostTurn (a : HostAction) (s : State) : Result :=
  match a with
  | .read addr size => .next (s.note (s.busRead addr size))
  | .write addr size data => .next ((s.busWrite addr size data).note (s.busWriteReply addr size))
  | .wait => engineTurn s
  | .reset bytes => .next (s.hardReset bytes)

/-- The next step of the two agents together: the host's next action, or, when it plans nothing more, the engine. -/
def nextTurn (s : State) : Result :=
  match s.agenda with
  | [] => engineTurn s
  | a :: _ => hostTurn a s.popAction

end Sys2Proof.Machine
end

