-- ==== Sys2Proof/Machine/Step.lean ====
section
/-! DEFINITION. One step of the machine, and how a command word comes to be the next to run. -/

namespace Sys2Proof.Machine

/-- One step of the machine: the host's next action, or the engine's turn. -/
def step (s : State) : Host.Outcome State Fault Refusal := nextTurn s

/-- The state in which the very next step completes the command word of a table row: the word has been issued (R82), and the host
waits before what it plans. The engine fetches nothing (R27, R65): a command comes to run by a write of `CMD`, log
entry 8. -/
def State.withFetchWord (s : State) (nbits w : Nat) : State :=
  { s.issue (BitVec.ofNat 32 (w % 2 ^ nbits)) with agenda := .wait :: s.agenda }

end Sys2Proof.Machine
end

