-- ==== Sys2Proof/Safety.lean ====
section
/-! DEFINITION. The terms in which claims are stated: the machine's invariant, what a command leaves alone, and the values of
the spec's mathematics written again, apart from the meanings: the field as `ZMod p`, points by their equations. -/

namespace Sys2Proof.Machine

/-! ### Invariant -/

/-- A size of the message memory that R14 allows. -/
def legalSize (n : BitVec 16) : Bool :=
  n.toNat % 4 == 0 && decide (64 ≤ n.toNat) && decide (n.toNat ≤ 61440)

/-- What every step keeps: the canonical form of `MSG`, a legal `MSG_MAX` (R14), a command in flight has nothing reported
yet (R28, R31, R82), and an error is never a true result (R28, R258 (b)). -/
structure State.Inv (s : State) : Prop where
  memory : Memory.wf s.msgSize s.msg = true
  size : legalSize s.msgMax = true
  inFlight : s.busy = true → s.done = false ∧ s.flag = false ∧ s.err = .none
  errorFlag : s.err ≠ .none → s.flag = false

/-! ### Frames -/

/-- What no command writes but `ERR`, when it fails: `CMD`, `BWE`, `ERR`, `IE`, `MSG_MAX`, and the host's own plan and notes. -/
structure SameControl (s t : State) : Prop where
  cmd : t.cmd = s.cmd
  bwe : t.bwe = s.bwe
  err : t.err = s.err
  ie : t.ie = s.ie
  msgMax : t.msgMax = s.msgMax
  agenda : t.agenda = s.agenda
  replies : t.replies = s.replies

/-- `FLAG <- v; BUSY <- 0; DONE <- 1` (R83). -/
structure Ends (v : Bool) (t : State) : Prop where
  flag : t.flag = v
  busy : t.busy = false
  done : t.done = true

/-- Every register but those of `rs` is as before. -/
def SameRegs (rs : List Reg) (s t : State) : Prop := ∀ j, j ∉ rs → t.reg j = s.reg j

/-- Every byte of `MSG` reads as before. -/
def SameBytes (s t : State) : Prop := ∀ a, t.msgByte a = s.msgByte a

/-- A command that ends with `FLAG = v` and writes the registers `rs` and nothing else: not `MSG`, not `MLEN`. -/
structure WritesOnly (rs : List Reg) (v : Bool) (s t : State) : Prop where
  regs : SameRegs rs s t
  bytes : SameBytes s t
  mlen : t.mlen = s.mlen
  control : SameControl s t
  ends : Ends v t

/-- `raise Error(e)` (R225): these four and nothing else change. -/
structure Raises (e : ErrCode) (s t : State) : Prop where
  err : t.err = e
  ends : Ends false t
  regs : SameRegs [] s t
  bytes : SameBytes s t
  mlen : t.mlen = s.mlen
  cmd : t.cmd = s.cmd
  bwe : t.bwe = s.bwe
  ie : t.ie = s.ie
  msgMax : t.msgMax = s.msgMax

/-! ### Command words -/

/-- The 30 opcodes (R86, R222). -/
def opcodes : List Nat :=
  [0x00, 0x01, 0x10, 0x11, 0x12, 0x13, 0x14, 0x15, 0x16, 0x20, 0x21, 0x22, 0x23, 0x24, 0x30, 0x31,
    0x40, 0x41, 0x42, 0x43, 0x44, 0x45, 0x46, 0x50, 0x51, 0x52, 0x53, 0x54, 0x55, 0x56]

/-- A must-be-zero bit of the word is not zero, as R222 lists the unused fields. -/
def ReservedBits (w : Nat) : Prop :=
  w / 2 ^ 24 ≠ 0 ∨
  (w % 256 ∈ [0x10, 0x11, 0x12, 0x15, 0x30, 0x40, 0x46, 0x51, 0x53] ∧ w / 2 ^ 20 % 16 ≠ 0) ∨
  (w % 256 ∈ [0x13, 0x14, 0x16, 0x20, 0x21, 0x31, 0x41, 0x42, 0x44, 0x45, 0x50, 0x52] ∧
    (w / 2 ^ 16 % 16 ≠ 0 ∨ w / 2 ^ 20 % 16 ≠ 0)) ∨
  (w % 256 ∈ [0x23, 0x54] ∧ (w / 2 ^ 8 % 16 ≠ 0 ∨ w / 2 ^ 20 % 16 ≠ 0)) ∨
  (w % 256 ∈ [0x24, 0x55, 0x56] ∧ (w / 2 ^ 8 % 16 ≠ 0 ∨ w / 2 ^ 16 % 16 ≠ 0 ∨ w / 2 ^ 20 % 16 ≠ 0)) ∨
  (w % 256 ∈ [0x00, 0x01] ∧
    (w / 2 ^ 8 % 16 ≠ 0 ∨ w / 2 ^ 12 % 16 ≠ 0 ∨ w / 2 ^ 16 % 16 ≠ 0 ∨ w / 2 ^ 20 % 16 ≠ 0))

/-- A pair field of the word is odd, as R222 lists the pair fields. -/
def OddPair (w : Nat) : Prop :=
  (w % 256 = 0x21 ∧ w / 2 ^ 12 % 2 = 1) ∨ (w % 256 ∈ [0x50, 0x52, 0x53] ∧ w / 2 ^ 8 % 2 = 1) ∨
  (w % 256 ∈ [0x53, 0x54] ∧ w / 2 ^ 16 % 2 = 1)

/-- `MLEN` is out of range for the word's command, as R222 says. -/
def MlenOut (w mlen msgMax : Nat) : Prop :=
  (w % 256 ∈ [0x52, 0x53, 0x54, 0x56] ∧ mlen > msgMax) ∨ (w % 256 = 0x55 ∧ mlen + 64 > msgMax)

/-- The bus accepts an access of `n` bytes at `addr` (R53, R55, R58): aligned, inside one region, 4 bytes where the region is the
control registers. -/
def BusAccepts (msgMax addr n : Nat) : Prop :=
  addr % n = 0 ∧
    ((addr < 0x18 ∧ n = 4) ∨ (0x200 ≤ addr ∧ addr + n ≤ 0x400) ∨ (0x1000 ≤ addr ∧ addr + n ≤ 0x1000 + msgMax))

/-- The reserved words of an opcode (R87, R88): all bits from bit `lo` up must be zero, and so must the field `rd` where the
command has none. -/
def ReservedAbove (op lo : Nat) (hasRd : Bool) : Prop :=
  ∀ w : BitVec 32, w.toNat % 256 = op →
    (w.toNat / 2 ^ lo ≠ 0 ∨ (hasRd = false ∧ w.toNat / 2 ^ 8 % 16 ≠ 0)) → decode w = .error .rsvd

/-- An odd pair field at bit `field` of an opcode's otherwise legal word is refused (R81, R221). -/
def PairField (op lo : Nat) (hasRd : Bool) (field : Nat) : Prop :=
  ∀ w : BitVec 32, w.toNat % 256 = op → w.toNat / 2 ^ lo = 0 → (hasRd = false → w.toNat / 2 ^ 8 % 16 = 0) →
    w.toNat / 2 ^ field % 2 = 1 → decode w = .error .pair

/-! ### The mathematics of the spec, written again -/

/-- GF(p) (R7). -/
abbrev GFp := ZMod fieldPrime

/-- A register read as a field element (R100): bit 255 ignored, the rest reduced. -/
def fieldValue (b : Word) : GFp := ((b.toNat % 2 ^ 255 : Nat) : ZMod fieldPrime)

/-- A register holds a field element in canonical form (R101). -/
def HoldsField (b : Word) (v : GFp) : Prop := b.toNat < fieldPrime ∧ ((b.toNat : Nat) : ZMod fieldPrime) = v

/-- A register holds a scalar reduced modulo `L` (R122). -/
def HoldsScalar (b : Word) (v : Nat) : Prop := b.toNat = v % groupOrder

/-- Byte `j` of a register (R15). -/
def wordByte (b : Word) (j : Nat) : Byte := b.extractLsb' (8 * j) 8

/-- The x-coordinate of a point as a field element. -/
def Point.px (P : Point) : GFp := ((P.x : Nat) : ZMod fieldPrime)

/-- The y-coordinate of a point as a field element. -/
def Point.py (P : Point) : GFp := ((P.y : Nat) : ZMod fieldPrime)

/-- The curve constant as a field element (R10). -/
def dF : GFp := ((curveD : Nat) : ZMod fieldPrime)

/-- A point of the curve (R150), its coordinates canonical integers. -/
structure IsPoint (P : Point) : Prop where
  x : P.x < fieldPrime
  y : P.y < fieldPrime
  eq : -P.px ^ 2 + P.py ^ 2 = 1 + dF * P.px ^ 2 * P.py ^ 2

/-- `b` decodes to `P` (R152): `P` is on the curve, has the y-coordinate of `b`, and, unless its x is 0, the parity of x that
bit 255 of `b` says. -/
structure DecodesTo (b : Word) (P : Point) : Prop where
  point : IsPoint P
  y : P.py = fieldValue b
  parity : P.x ≠ 0 → P.x % 2 = b.toNat / 2 ^ 255

/-- `R` is the sum of `P` and `Q` (R153), the denominators multiplied out. -/
structure IsSum (P Q R : Point) : Prop where
  point : IsPoint R
  x : R.px * (1 + dF * P.px * Q.px * P.py * Q.py) = P.px * Q.py + P.py * Q.px
  y : R.py * (1 - dF * P.px * Q.px * P.py * Q.py) = P.py * Q.py + P.px * Q.px

/-- `[n]P` as R155 defines it: the sum of `n` copies of `P`. -/
def sumOf (n : Nat) (P : Point) : Point :=
  match n with
  | 0 => neutralPoint
  | k + 1 => padd (sumOf k P) P

/-- The Edwards point over a u-coordinate with the sign bit `sgn` (R159), the denominator multiplied out. -/
structure OverU (u : GFp) (sgn : Bool) (P : Point) : Prop where
  point : IsPoint P
  y : P.py * (u + 1) = u - 1
  parity : P.x ≠ 0 → P.x % 2 = sgn.toNat

/-- The u-coordinate of a point (R158): `(1 + y)/(1 − y)`, and 0 where `y = 1`. -/
def uOf (P : Point) : GFp := (1 + P.py) * (1 - P.py)⁻¹

/-- A register holds a point in its canonical encoding (R151). -/
def HoldsPoint (b : Word) (P : Point) : Prop := b.toNat = P.y + 2 ^ 255 * (P.x % 2)

/-- `N` is the negative of `P` (R154). -/
structure IsNeg (P N : Point) : Prop where
  point : IsPoint N
  x : N.px = -P.px
  y : N.y = P.y

/-- `Q` is `[s]B − [h]A` (R155). -/
def IsDoubleMultiple (s h : Nat) (A Q : Point) : Prop := ∃ N, IsNeg (sumOf h A) N ∧ IsSum (sumOf s basePoint) N Q

/-- The 32 bytes of a register, byte 0 first. -/
def registerBytes (b : Word) : List Byte := (List.range 32).map (wordByte b)

/-- The first `n` bytes of `MSG`. -/
def State.prefixBytes (s : State) (n : Nat) : List Byte := (List.range n).map s.msgByte

/-- `hred` (R182). -/
def hashScalar (m : List Byte) : Nat := (Config.hash m).toNat % groupOrder

/-- `R ‖ S` is the signature of `m` under the key bytes `kb` and the random bytes `rnd` (R183, R193). -/
def IsSignature (kb : Word) (m rnd : List Byte) (R S : Word) : Prop :=
  ∃ (k r h : Nat) (A : Word),
    k = (clamp kb).toNat ∧ HoldsPoint A (sumOf k basePoint) ∧
    r = hashScalar (registerBytes Config.pad32 ++ registerBytes kb ++ m ++ rnd) ∧ HoldsPoint R (sumOf r basePoint) ∧
    h = hashScalar (registerBytes R ++ registerBytes A ++ m) ∧
    S.toNat % 2 ^ 255 = (r + h * k) % groupOrder ∧ S.toNat / 2 ^ 255 = (sumOf k basePoint).x % 2

/-- The six steps of verification accept `R ‖ S` for the public key `pb` and the message `m` (R184). -/
def Accepts (pb : Word) (m : List Byte) (R S : Word) : Prop :=
  S.toNat % 2 ^ 255 < groupOrder ∧
  ∃ (A : Point) (Aenc : Word), OverU (fieldValue pb) (decide (S.toNat / 2 ^ 255 = 1)) A ∧ (∃ P, DecodesTo R P) ∧
    HoldsPoint Aenc A ∧
    ∃ Q, IsDoubleMultiple (S.toNat % 2 ^ 255) (hashScalar (registerBytes R ++ registerBytes Aenc ++ m)) A Q ∧ HoldsPoint R Q

/-- A projective u-coordinate of the ladder (R141). -/
abbrev Proj := GFp × GFp

/-- The doubling formulas of R141. -/
def ladderDouble (a : Proj) : Proj :=
  let s := (a.1 + a.2) ^ 2
  let t := (a.1 - a.2) ^ 2
  (s * t, (s - t) * (s + 121665 * (s - t)))

/-- The differential addition formulas of R141. -/
def ladderAdd (x1 : GFp) (a b : Proj) : Proj :=
  let da := (b.1 - b.2) * (a.1 + a.2)
  let cb := (b.1 + b.2) * (a.1 - a.2)
  ((da + cb) ^ 2, x1 * (da - cb) ^ 2)

/-- One bit of the ladder (R141), the two running points chosen by the bit and not by swapping. -/
def ladderBit (x1 : GFp) (r : Proj × Proj) (b : Bool) : Proj × Proj :=
  if b then (ladderAdd x1 r.2 r.1, ladderDouble r.2) else (ladderDouble r.1, ladderAdd x1 r.1 r.2)

/-- The ladder for the bits 254 to 0 of `k` (R140, R141): `x2/z2`, and 0 where `z2 = 0`. -/
def ladderValue (k : Nat) (x1 : GFp) : GFp :=
  let r := (List.range 255).foldr (fun t r => ladderBit x1 r (k.testBit t)) ((1, 0), (x1, 1))
  r.1.1 * r.1.2⁻¹

/-! ### Runs -/

/-- `n` steps of the machine. -/
def steps (n : Nat) (s : State) : Result :=
  match n with
  | 0 => .next s
  | k + 1 =>
    match step s with
    | .next t => steps k t
    | .fault f => .fault f
    | .refused r => .refused r

/-- A bus access, as opposed to waiting and to reset. -/
def HostAction.isAccess (a : HostAction) : Bool :=
  match a with
  | .read _ _ => true
  | .write _ _ _ => true
  | .wait => false
  | .reset _ => false

/-- The state with `w` in flight, the engine to move next. -/
def State.inFlight (s : State) (w : BitVec 32) : State := { s with cmd := w, busy := true, agenda := [] }

end Sys2Proof.Machine

namespace Sys2Proof

open Machine

/-- The registers a command reads (R86), both of a pair. -/
def Instr.sources (i : Instr) : List Reg :=
  match i with
  | .nop => []
  | .zeroize => []
  | .fadd _ a b => [a, b]
  | .fsub _ a b => [a, b]
  | .fmul _ a b => [a, b]
  | .fsqr _ a => [a]
  | .finv _ a => [a]
  | .fcswap d a b => [d, a, b]
  | .fcan _ a => [a]
  | .sclamp _ a => [a]
  | .sred _ a => [a, pairHigh a]
  | .smuladd _ a b c => [a, b, c]
  | .seq a b => [a, b]
  | .sltl a => [a]
  | .ladder _ a b => [a, b]
  | .ladderb _ a => [a]
  | .padd _ a b => [a, b]
  | .pdbl _ a => [a]
  | .psmulb _ a => [a]
  | .pdsmul _ a b c => [a, b, c]
  | .pdec _ a => [a]
  | .e2m _ a => [a]
  | .m2e _ a b => [a, b]
  | .genkey _ a => [a]
  | .shared _ a b => [a, b]
  | .sign _ a => [a]
  | .signr _ a b => [a, b, pairHigh b]
  | .verify a b => [a, b, pairHigh b]
  | .signmsg a => [a]
  | .openmsg a => [a]

/-- The registers a command may write (R86), both of a pair; `ZEROIZE` writes all sixteen (R211). -/
def Instr.dests (i : Instr) : List Reg :=
  match i with
  | .nop => []
  | .zeroize => List.finRange 16
  | .fadd d _ _ => [d]
  | .fsub d _ _ => [d]
  | .fmul d _ _ => [d]
  | .fsqr d _ => [d]
  | .finv d _ => [d]
  | .fcswap d a _ => [d, a]
  | .fcan d _ => [d]
  | .sclamp d _ => [d]
  | .sred d _ => [d]
  | .smuladd d _ _ _ => [d]
  | .seq _ _ => []
  | .sltl _ => []
  | .ladder d _ _ => [d]
  | .ladderb d _ => [d]
  | .padd d _ _ => [d]
  | .pdbl d _ => [d]
  | .psmulb d _ => [d]
  | .pdsmul d _ _ _ => [d]
  | .pdec d _ => [d]
  | .e2m d _ => [d]
  | .m2e d _ _ => [d]
  | .genkey d _ => [d, pairHigh d]
  | .shared d _ _ => [d]
  | .sign d _ => [d, pairHigh d]
  | .signr d _ _ => [d, pairHigh d]
  | .verify _ _ => []
  | .signmsg _ => []
  | .openmsg _ => []

/-- The five commands with the implicit message operand (R23, R81). -/
def Instr.usesMessage (i : Instr) : Bool :=
  match i with
  | .nop => false
  | .zeroize => false
  | .fadd _ _ _ => false
  | .fsub _ _ _ => false
  | .fmul _ _ _ => false
  | .fsqr _ _ => false
  | .finv _ _ => false
  | .fcswap _ _ _ => false
  | .fcan _ _ => false
  | .sclamp _ _ => false
  | .sred _ _ => false
  | .smuladd _ _ _ _ => false
  | .seq _ _ => false
  | .sltl _ => false
  | .ladder _ _ _ => false
  | .ladderb _ _ => false
  | .padd _ _ _ => false
  | .pdbl _ _ => false
  | .psmulb _ _ => false
  | .pdsmul _ _ _ _ => false
  | .pdec _ _ => false
  | .e2m _ _ => false
  | .m2e _ _ _ => false
  | .genkey _ _ => false
  | .shared _ _ _ => false
  | .sign _ _ => true
  | .signr _ _ _ => true
  | .verify _ _ => true
  | .signmsg _ => true
  | .openmsg _ => true

/-- The checking commands, whose `FLAG` is an answer (R28). -/
def Instr.isChecking (i : Instr) : Bool :=
  match i with
  | .nop => false
  | .zeroize => false
  | .fadd _ _ _ => false
  | .fsub _ _ _ => false
  | .fmul _ _ _ => false
  | .fsqr _ _ => false
  | .finv _ _ => false
  | .fcswap _ _ _ => false
  | .fcan _ _ => false
  | .sclamp _ _ => false
  | .sred _ _ => false
  | .smuladd _ _ _ _ => false
  | .seq _ _ => true
  | .sltl _ => true
  | .ladder _ _ _ => false
  | .ladderb _ _ => false
  | .padd _ _ _ => true
  | .pdbl _ _ => true
  | .psmulb _ _ => false
  | .pdsmul _ _ _ _ => true
  | .pdec _ _ => true
  | .e2m _ _ => true
  | .m2e _ _ _ => true
  | .genkey _ _ => false
  | .shared _ _ _ => false
  | .sign _ _ => false
  | .signr _ _ _ => false
  | .verify _ _ => true
  | .signmsg _ => false
  | .openmsg _ => true

/-- The commands that write bytes of `MSG` (R23). -/
def Instr.writesBytes (i : Instr) : Bool :=
  match i with
  | .nop => false
  | .zeroize => true
  | .fadd _ _ _ => false
  | .fsub _ _ _ => false
  | .fmul _ _ _ => false
  | .fsqr _ _ => false
  | .finv _ _ => false
  | .fcswap _ _ _ => false
  | .fcan _ _ => false
  | .sclamp _ _ => false
  | .sred _ _ => false
  | .smuladd _ _ _ _ => false
  | .seq _ _ => false
  | .sltl _ => false
  | .ladder _ _ _ => false
  | .ladderb _ _ => false
  | .padd _ _ _ => false
  | .pdbl _ _ => false
  | .psmulb _ _ => false
  | .pdsmul _ _ _ _ => false
  | .pdec _ _ => false
  | .e2m _ _ => false
  | .m2e _ _ _ => false
  | .genkey _ _ => false
  | .shared _ _ _ => false
  | .sign _ _ => false
  | .signr _ _ _ => false
  | .verify _ _ => false
  | .signmsg _ => true
  | .openmsg _ => false

/-- The commands that write `MLEN` (R34). -/
def Instr.writesMlen (i : Instr) : Bool :=
  match i with
  | .nop => false
  | .zeroize => true
  | .fadd _ _ _ => false
  | .fsub _ _ _ => false
  | .fmul _ _ _ => false
  | .fsqr _ _ => false
  | .finv _ _ => false
  | .fcswap _ _ _ => false
  | .fcan _ _ => false
  | .sclamp _ _ => false
  | .sred _ _ => false
  | .smuladd _ _ _ _ => false
  | .seq _ _ => false
  | .sltl _ => false
  | .ladder _ _ _ => false
  | .ladderb _ _ => false
  | .padd _ _ _ => false
  | .pdbl _ _ => false
  | .psmulb _ _ => false
  | .pdsmul _ _ _ _ => false
  | .pdec _ _ => false
  | .e2m _ _ => false
  | .m2e _ _ _ => false
  | .genkey _ _ => false
  | .shared _ _ _ => false
  | .sign _ _ => false
  | .signr _ _ _ => false
  | .verify _ _ => false
  | .signmsg _ => true
  | .openmsg _ => true

/-- Whether `MLEN` is out of range for a command (R222). -/
def Instr.mlenBad (i : Instr) (s : State) : Prop :=
  match i with
  | .nop => False
  | .zeroize => False
  | .fadd _ _ _ => False
  | .fsub _ _ _ => False
  | .fmul _ _ _ => False
  | .fsqr _ _ => False
  | .finv _ _ => False
  | .fcswap _ _ _ => False
  | .fcan _ _ => False
  | .sclamp _ _ => False
  | .sred _ _ => False
  | .smuladd _ _ _ _ => False
  | .seq _ _ => False
  | .sltl _ => False
  | .ladder _ _ _ => False
  | .ladderb _ _ => False
  | .padd _ _ _ => False
  | .pdbl _ _ => False
  | .psmulb _ _ => False
  | .pdsmul _ _ _ _ => False
  | .pdec _ _ => False
  | .e2m _ _ => False
  | .m2e _ _ _ => False
  | .genkey _ _ => False
  | .shared _ _ _ => False
  | .sign _ _ => s.mlen.toNat > s.msgMax.toNat
  | .signr _ _ _ => s.mlen.toNat > s.msgMax.toNat
  | .verify _ _ => s.mlen.toNat > s.msgMax.toNat
  | .signmsg _ => s.mlen.toNat + 64 > s.msgMax.toNat
  | .openmsg _ => s.mlen.toNat > s.msgMax.toNat

end Sys2Proof
end

