-- ==== Sys2Proof/Certificates/Slice0/Obligations.lean ====
section
/-! DEFINITION. The statements for the provers. Each docstring names the rules of the spec that it formalises. -/

section

open Sys2Proof Sys2Proof.Machine

/-! ### The command word -/

/-- R80, R86, R87, R90: decoding the word of a well-formed command gives that command, every operand at every value. -/
def Obligations.DecodeOfEncodeIsTheCommand : Prop := ∀ i : Instr, i.WellFormed → decode (encode i) = .ok i

/-- R80, R87, R88: a word that decodes is the one encoding of a well-formed command; no bit of it is ignored. -/
def Obligations.DecodedWordHasOneEncoding : Prop :=
  ∀ (w : BitVec 32) (i : Instr), decode w = .ok i → i.WellFormed ∧ encode i = w

/-- R86, R90: the words that the spec's examples write out are the commands it says they are. -/
def Obligations.ExampleWordsDecode : Prop :=
  decode 0x00000000#32 = .ok .nop ∧ decode 0x00000001#32 = .ok .zeroize ∧ decode 0x00021310#32 = .ok (.fadd 3 1 2) ∧
  decode 0x00032115#32 = .ok (.fcswap 1 2 3) ∧ decode 0x00432122#32 = .ok (.smuladd 1 2 3 4) ∧
  decode 0x00002121#32 = .ok (.sred 1 2) ∧ decode 0x00021330#32 = .ok (.ladder 3 1 2) ∧
  decode 0x00321443#32 = .ok (.pdsmul 4 1 2 3) ∧ decode 0x00041253#32 = .ok (.signr 2 1 4) ∧
  decode 0x00043054#32 = .ok (.verify 3 4)

/-- R220, R221, R222: the completion of a word reports the first of the four errors that applies, and none where none does; an
error that applies first is reported whatever the rest of the word is. -/
def Obligations.FirstErrorOfEveryWord : Prop :=
  ∀ (s : State) (w : BitVec 32), ∃ t, step (s.inFlight w) = .next t ∧
    (w.toNat % 256 ∉ opcodes → t.err = .illop) ∧
    (w.toNat % 256 ∈ opcodes → ReservedBits w.toNat → t.err = .rsvd) ∧
    (w.toNat % 256 ∈ opcodes → ¬ReservedBits w.toNat → OddPair w.toNat → t.err = .pair) ∧
    (w.toNat % 256 ∈ opcodes → ¬ReservedBits w.toNat → ¬OddPair w.toNat →
      MlenOut w.toNat s.mlen.toNat s.msgMax.toNat → t.err = .mlen) ∧
    (w.toNat % 256 ∈ opcodes → ¬ReservedBits w.toNat → ¬OddPair w.toNat →
      ¬MlenOut w.toNat s.mlen.toNat s.msgMax.toNat → t.err = s.err)

/-- R225, R230: a completion that ends in an error changes `ERR`, `FLAG`, `BUSY` and `DONE` and nothing else, and `CMD` keeps the word; the next
write of `CMD` clears `ERR` and issues as always. -/
def Obligations.ErrorChangesNothingElse : Prop :=
  ∀ (s t : State) (w : BitVec 32), s.err = .none → step (s.inFlight w) = .next t → t.err ≠ .none →
    Raises t.err (s.inFlight w) t ∧
      ∀ w' : BitVec 32, t.busWrite 0x0000#16 .word w'
        = { t with cmd := w', busy := true, done := false, flag := false, err := .none }

/-! ### Steps -/

/-- R83: in a state with a command in flight the engine's turn is the meaning of the command that the word decodes to; the engine moves
when the host plans nothing or waits. -/
def Obligations.StepRunsTheDecodedCommand : Prop :=
  ∀ (s : State) (i : Instr), s.busy = true → decode s.cmd = .ok i →
    (s.agenda = [] → step s = exec i s) ∧
    (∀ rest, s.agenda = .wait :: rest → step s = exec i s.popAction)

/-- R83, log entry 8: the state in which a table row's word stands ready runs that row's command in its very next step, from the state
that the issue of the word leaves. -/
def Obligations.TableWordRunsNext : Prop :=
  ∀ (s : State) (nbits w : Nat) (i : Instr), decodeTableWord nbits w = some i →
    step (s.withFetchWord nbits w) = exec i (s.issue (BitVec.ofNat 32 (w % 2 ^ nbits)))

/-- R82, R83, R91: a host write of a command's word to `CMD` while the engine is idle, and then the engine's turn, run the command,
from the state that the issue leaves. -/
def Obligations.WrittenCommandRuns : Prop :=
  ∀ (s : State) (i : Instr) (rest : List HostAction), i.WellFormed → s.busy = false →
    s.agenda = .write 0x0000#16 .word (encode i) :: .wait :: rest →
    steps 2 s = exec i
      { s with cmd := encode i, busy := true, done := false, flag := false, err := .none, agenda := rest,
               replies := .write .ok :: s.replies }

/-- R38, R83: no state is stuck, and the engine's turn in a state with `BUSY = 1` always ends the command. -/
def Obligations.EveryStateSteps : Prop :=
  ∀ s : State, ∃ t, step s = .next t ∧
    (s.busy = true → (s.agenda = [] ∨ ∃ rest, s.agenda = .wait :: rest) → t.busy = false ∧ t.done = true)

/-- R82: an accepted write of `CMD` sets these five fields and leaves the rest, and `irq` falls; while `BUSY = 1` it is no issue. -/
def Obligations.WriteOfCmdIssues : Prop :=
  ∀ (s : State) (w : BitVec 32),
    s.busWriteReply 0x0000#16 .word = .write .ok ∧
    (s.busy = false →
      s.busWrite 0x0000#16 .word w
        = { s with cmd := w, busy := true, done := false, flag := false, err := .none } ∧
      (s.busWrite 0x0000#16 .word w).irq = false) ∧
    (s.busy = true → s.busWrite 0x0000#16 .word w = { s with bwe := true })

/-! ### The bus -/

/-- R53, R55, R58, R227: an access is refused exactly where it is misaligned, of a size the region does not take, crosses the end of a
region or is unmapped; a refused access changes no state and reads as 0. -/
def Obligations.RefusedAccessChangesNothing : Prop :=
  ∀ (s : State) (addr : BitVec 16) (size : AccessSize) (data : BitVec 32),
    (BusAccepts s.msgMax.toNat addr.toNat size.bytes →
      (∃ d, s.busRead addr size = .read .ok d) ∧ s.busWriteReply addr size = .write .ok) ∧
    (¬BusAccepts s.msgMax.toNat addr.toNat size.bytes →
      s.busRead addr size = .read .err 0#32 ∧ s.busWriteReply addr size = .write .err ∧
      s.busWrite addr size data = s)

/-- R50, R54: a host read is one step with no effect on the engine, and a host write is one step that does what `BusWrite` does; the answer is noted. -/
def Obligations.BusAccessIsOneStep : Prop :=
  ∀ (s : State) (addr : BitVec 16) (size : AccessSize) (data : BitVec 32) (rest : List HostAction),
    (s.agenda = .read addr size :: rest →
      step s = .next { s with agenda := rest, replies := s.busRead addr size :: s.replies }) ∧
    (s.agenda = .write addr size data :: rest →
      ∃ t, step s = .next t ∧ t.agenda = rest ∧ t.replies = s.busWriteReply addr size :: s.replies ∧
        t.regs = (s.busWrite addr size data).regs ∧ t.msg = (s.busWrite addr size data).msg ∧
        t.mlen = (s.busWrite addr size data).mlen ∧ t.cmd = (s.busWrite addr size data).cmd ∧
        t.statusWord = (s.busWrite addr size data).statusWord ∧ t.ie = (s.busWrite addr size data).ie)

/-- R51, R52, R56: byte `j` of `x[i]` is at offset `0x200 + 32·i + j`; an idle engine's window reads as the bytes there, and a write
changes exactly the bytes it covers and nothing outside the register file. -/
def Obligations.RegisterWindowIsBytes : Prop :=
  ∀ (s : State) (addr : BitVec 16) (size : AccessSize) (data : BitVec 32),
    s.busy = false → addr.toNat % size.bytes = 0 → 0x200 ≤ addr.toNat → addr.toNat + size.bytes ≤ 0x400 →
    (∃ d, s.busRead addr size = .read .ok d ∧
      ∀ k, k < size.bytes → ∀ (i : Reg) (j : Nat), j < 32 → addr.toNat + k = 0x200 + 32 * i.val + j →
        d.toNat / 2 ^ (8 * k) % 256 = (wordByte (s.reg i) j).toNat) ∧
    (∀ (i : Reg) (j : Nat), j < 32 →
      wordByte ((s.busWrite addr size data).reg i) j
        = if addr.toNat ≤ 0x200 + 32 * i.val + j ∧ 0x200 + 32 * i.val + j < addr.toNat + size.bytes
          then data.extractLsb' (8 * (0x200 + 32 * i.val + j - addr.toNat)) 8 else wordByte (s.reg i) j) ∧
    SameBytes s (s.busWrite addr size data) ∧ (s.busWrite addr size data).mlen = s.mlen ∧
    SameControl s (s.busWrite addr size data) ∧ (s.busWrite addr size data).statusWord = s.statusWord

/-- R51, R52, R57: byte `MSG[k]` is at offset `0x1000 + k`; an idle engine's window reads as the bytes there, and a write changes
exactly the bytes it covers and nothing but `MSG`. -/
def Obligations.MessageWindowIsBytes : Prop :=
  ∀ (s : State) (addr : BitVec 16) (size : AccessSize) (data : BitVec 32),
    s.busy = false → addr.toNat % size.bytes = 0 → 0x1000 ≤ addr.toNat →
    addr.toNat + size.bytes ≤ 0x1000 + s.msgMax.toNat →
    (∃ d, s.busRead addr size = .read .ok d ∧
      ∀ k, k < size.bytes → d.toNat / 2 ^ (8 * k) % 256 = (s.msgByte (addr.toNat + k - 0x1000)).toNat) ∧
    (∀ a, (s.busWrite addr size data).msgByte a
        = if addr.toNat ≤ 0x1000 + a ∧ 0x1000 + a < addr.toNat + size.bytes
          then data.extractLsb' (8 * (0x1000 + a - addr.toNat)) 8 else s.msgByte a) ∧
    (∀ j, (s.busWrite addr size data).reg j = s.reg j) ∧ (s.busWrite addr size data).mlen = s.mlen ∧
    SameControl s (s.busWrite addr size data) ∧ (s.busWrite addr size data).statusWord = s.statusWord

/-- R60: while `BUSY = 1` the two windows read as 0, and a write to a window, to `MLEN` or to `CMD` does nothing but set `BWE`; the answers are
`OK`; the control registers read as their values and `STATUS` and `CTRL` are written. -/
def Obligations.AccessWhileBusy : Prop :=
  ∀ (s : State) (addr : BitVec 16) (size : AccessSize) (data : BitVec 32), s.busy = true →
    BusAccepts s.msgMax.toNat addr.toNat size.bytes →
    s.busWriteReply addr size = .write .ok ∧
    (0x200 ≤ addr.toNat → s.busRead addr size = .read .ok 0#32 ∧ s.busWrite addr size data = { s with bwe := true }) ∧
    (addr = 0x0000#16 → s.busRead addr size = .read .ok s.cmd ∧ s.busWrite addr size data = { s with bwe := true }) ∧
    (addr = 0x000C#16 → s.busRead addr size = .read .ok (s.mlen.setWidth 32) ∧
      s.busWrite addr size data = { s with bwe := true }) ∧
    (addr = 0x0004#16 → s.busRead addr size = .read .ok s.statusWord ∧ s.busWrite addr size data
      = { s with done := s.done && !data.getLsbD 1, bwe := s.bwe && !data.getLsbD 3 }) ∧
    (addr = 0x0008#16 → s.busRead addr size = .read .ok (BitVec.ofNat 32 s.ie.toNat) ∧
      s.busWrite addr size data = { s with ie := data.getLsbD 0 }) ∧
    (addr = 0x0010#16 → s.busRead addr size = .read .ok idWord) ∧
    (addr = 0x0014#16 → s.busRead addr size = .read .ok s.capWord)

/-- R29 to R35: what the six control registers read as, at any time; reserved bits read as 0. -/
def Obligations.ControlRegistersRead : Prop :=
  ∀ s : State,
    s.busRead 0x0000#16 .word = .read .ok s.cmd ∧
    (∃ d, s.busRead 0x0004#16 .word = .read .ok d ∧ d.getLsbD 0 = s.busy ∧ d.getLsbD 1 = s.done ∧
      d.getLsbD 2 = s.flag ∧ d.getLsbD 3 = s.bwe ∧ d.toNat / 2 ^ 4 % 16 = 0 ∧ d.toNat / 2 ^ 12 = 0 ∧
      (s.err = .none → d.toNat / 2 ^ 8 % 16 = 0) ∧ (s.err = .illop → d.toNat / 2 ^ 8 % 16 = 1) ∧
      (s.err = .rsvd → d.toNat / 2 ^ 8 % 16 = 2) ∧ (s.err = .pair → d.toNat / 2 ^ 8 % 16 = 3) ∧
      (s.err = .mlen → d.toNat / 2 ^ 8 % 16 = 4)) ∧
    (∃ d, s.busRead 0x0008#16 .word = .read .ok d ∧ d.getLsbD 0 = s.ie ∧ d.toNat / 2 = 0) ∧
    (∃ d, s.busRead 0x000C#16 .word = .read .ok d ∧ d.toNat = s.mlen.toNat) ∧
    s.busRead 0x0010#16 .word = .read .ok 0xC2551901#32 ∧
    (∃ d, s.busRead 0x0014#16 .word = .read .ok d ∧ d.toNat % 2 ^ 16 = s.msgMax.toNat ∧ d.toNat / 2 ^ 16 = 16)

/-- R31: a write of `STATUS` clears `DONE` and `BWE` where the data has a 1, at any time, and does nothing else. -/
def Obligations.StatusWriteClears : Prop :=
  ∀ (s : State) (data : BitVec 32),
    s.busWriteReply 0x0004#16 .word = .write .ok ∧
    s.busWrite 0x0004#16 .word data
      = { s with done := if data.toNat / 2 % 2 = 1 then false else s.done,
                 bwe := if data.toNat / 8 % 2 = 1 then false else s.bwe }

/-- R32 to R35: writes of `CTRL` take effect at any time, of `MLEN` while the engine is idle, the low 16 bits counting; writes of `ID`
and `CAP` are ignored. -/
def Obligations.OtherControlWrites : Prop :=
  ∀ (s : State) (data : BitVec 32),
    (∃ b, (b = true ↔ data.toNat % 2 = 1) ∧ s.busWrite 0x0008#16 .word data = { s with ie := b }) ∧
    (s.busy = false → ∃ n : BitVec 16, n.toNat = data.toNat % 2 ^ 16 ∧
      s.busWrite 0x000C#16 .word data = { s with mlen := n }) ∧
    (s.busy = true → s.busWrite 0x000C#16 .word data = { s with bwe := true }) ∧
    s.busWrite 0x0010#16 .word data = s ∧ s.busWrite 0x0014#16 .word data = s

/-- R228: the interrupt line is `DONE AND IE` after every one of the steps that move it: completion, the two acknowledgements, the enable. -/
def Obligations.InterruptLineFollowsDone : Prop :=
  (∀ s : State, s.irq = true ↔ s.done = true ∧ s.ie = true) ∧
  (∀ (s t : State), s.busy = true → s.agenda = [] → step s = .next t → t.irq = s.ie) ∧
  (∀ (s : State) (data : BitVec 32), data.toNat / 2 % 2 = 1 → (s.busWrite 0x0004#16 .word data).irq = false) ∧
  (∀ (s : State) (data : BitVec 32), s.busy = false → (s.busWrite 0x0000#16 .word data).irq = false) ∧
  (∀ (s : State) (data : BitVec 32), data.toNat % 2 = 0 → (s.busWrite 0x0008#16 .word data).irq = false) ∧
  (∀ (s : State) (data : BitVec 32), s.done = true → data.toNat % 2 = 1 →
    (s.busWrite 0x0008#16 .word data).irq = true)

/-! ### Reset -/

/-- R40, R250: the state after reset, whatever `MSG` holds and whatever `MSG_MAX` is. -/
def Obligations.ResetStateAsSpecified : Prop :=
  ∀ (msgMax : BitVec 16) (msg : Memory),
    (∀ i, (State.resetWith msgMax msg).reg i = 0#256) ∧
    (State.resetWith msgMax msg).busRead 0x0000#16 .word = .read .ok 0#32 ∧
    (State.resetWith msgMax msg).busRead 0x0004#16 .word = .read .ok 0#32 ∧
    (State.resetWith msgMax msg).busRead 0x0008#16 .word = .read .ok 0#32 ∧
    (State.resetWith msgMax msg).busRead 0x000C#16 .word = .read .ok 0#32 ∧
    (State.resetWith msgMax msg).busRead 0x0010#16 .word = .read .ok 0xC2551901#32 ∧
    (State.resetWith 4096#16 msg).busRead 0x0014#16 .word = .read .ok 0x00101000#32 ∧
    (State.resetWith msgMax msg).irq = false ∧ (State.resetWith msgMax msg).busy = false ∧
    (∀ a, (State.resetWith msgMax msg).msgByte a = memByte msg a)

/-- R250, R251: a reset event is enabled in every state, a command in flight or not, and leaves the reset state; `MSG` keeps its bytes or takes
any bytes. -/
def Obligations.ResetEventAbandonsTheCommand : Prop :=
  ∀ (s : State) (bytes : Memory) (rest : List HostAction), s.agenda = .reset bytes :: rest →
    ∃ t, step s = .next t ∧ (∀ i, t.reg i = 0#256) ∧ t.cmd = 0#32 ∧ t.statusWord = 0#32 ∧ t.busy = false ∧
      t.ie = false ∧ t.mlen = 0#16 ∧ t.irq = false ∧ t.msgMax = s.msgMax ∧
      (∀ a, (∀ v, (a, v) ∉ bytes) → t.msgByte a = s.msgByte a) ∧
      (∀ f : Nat → Byte, ∃ b' t', step { s with agenda := .reset b' :: rest } = .next t' ∧
        ∀ a, a < s.msgMax.toNat → t'.msgByte a = f a)

/-! ### Invariants and whole-machine rules -/

/-- The reset state meets the invariant, whatever `MSG` holds, for every legal `MSG_MAX` (R14, R40). The model's own reset state is the one with the default
`MSG_MAX` and, by choice, every byte of `MSG` zero (log entries 3 and 4). -/
def Obligations.InvariantHoldsAtReset : Prop :=
  State.reset = State.resetWith 4096#16 [] ∧ State.reset.Inv ∧
  ∀ (msgMax : BitVec 16) (msg : Memory), legalSize msgMax = true → Memory.wf msgMax.toNat msg = true →
    (State.resetWith msgMax msg).Inv

/-- Every step keeps the invariant: the canonical form of `MSG` inside `MSG_MAX` bytes, and the rules of `STATUS` (R23, R28, R31, R82). -/
def Obligations.EveryStepKeepsTheInvariant : Prop :=
  ∀ s t : State, s.Inv → step s = .next t → t.Inv

/-- R60, R62 (c): whatever bus accesses the host makes between issue and completion, the command ends with the same registers, message,
`MLEN`, `FLAG`, `ERR`, `CMD`, `BUSY` and `DONE` as if it had completed at once. -/
def Obligations.HostCannotChangeACommandInFlight : Prop :=
  ∀ (s : State) (accesses rest : List HostAction), s.busy = true → (∀ a ∈ accesses, a.isAccess = true) →
    ∃ t u, step { s with agenda := [] } = .next t ∧
      steps (accesses.length + 1) { s with agenda := accesses ++ .wait :: rest } = .next u ∧
      (∀ j, u.reg j = t.reg j) ∧ SameBytes t u ∧ u.mlen = t.mlen ∧ u.flag = t.flag ∧ u.err = t.err ∧
      u.cmd = t.cmd ∧ u.busy = t.busy ∧ u.done = t.done

/-- R60, R235: while a command is in flight, bus accesses and the interrupt line give the host the same answers whatever the registers and
`MSG` hold. -/
def Obligations.BusyEngineRevealsNothing : Prop :=
  ∀ (s : State) (regs : Vector Word 16) (msg : Memory) (accesses : List HostAction), s.busy = true →
    (∀ a ∈ accesses, a.isAccess = true) →
    ∃ t u, steps accesses.length { s with agenda := accesses } = .next t ∧
      steps accesses.length { s with agenda := accesses, regs := regs, msg := msg } = .next u ∧
      t.replies = u.replies ∧ t.irq = u.irq

/-- R5, R84, R220, R222: a command is a function of the source registers its row names and, for the message commands alone, of `MLEN` and the message: two
states that agree on these give the same `FLAG`, the same results where `FLAG` is 1, the same message and the same `MLEN` where the command reads or
writes it, and the same `ERR` where it was the same. -/
def Obligations.CommandReadsOnlyItsOperands : Prop :=
  ∀ (i : Instr) (s s' : State), (∀ r ∈ i.sources, s'.reg r = s.reg r) →
    (i.usesMessage = true → s'.mlen = s.mlen ∧ s'.msgMax = s.msgMax ∧ ∀ a, a < s.mlen.toNat → s'.msgByte a = s.msgByte a) →
    ∃ t t', exec i s = .next t ∧ exec i s' = .next t' ∧ t'.flag = t.flag ∧ (s'.err = s.err → t'.err = t.err) ∧
      (i.usesMessage = true ∨ i.writesMlen = true → t'.mlen = t.mlen) ∧
      (t.flag = true → ∀ r ∈ i.dests, t'.reg r = t.reg r) ∧
      (i.usesMessage = true → t.flag = true → ∀ a, a < t.mlen.toNat → t'.msgByte a = t.msgByte a)

/-- R23, R34, R83, R84: every command ends with `BUSY = 0` and `DONE = 1`; it writes no register that its row does not list as a destination and
none at all where `FLAG` is 0; only `ZEROIZE` and `SIGNMSG` write bytes of `MSG`; only these and `OPENMSG` write `MLEN`; no command writes `CMD`, `CTRL` or `BWE`. -/
def Obligations.CommandWritesOnlyItsDestinations : Prop :=
  ∀ (i : Instr) (s : State), ∃ t, exec i s = .next t ∧ t.busy = false ∧ t.done = true ∧
    SameRegs i.dests s t ∧ (t.flag = false → SameRegs [] s t) ∧
    (i.writesBytes = false → SameBytes s t) ∧ (i.writesMlen = false → t.mlen = s.mlen) ∧
    t.cmd = s.cmd ∧ t.ie = s.ie ∧ t.bwe = s.bwe ∧ t.msgMax = s.msgMax

/-- R28, R222: a command that checks nothing ends with `FLAG = 1` unless its `MLEN` is out of range, which ends every message command with `FLAG = 0`; and no
command reads `FLAG`, `DONE`, `BWE` or `IE`. -/
def Obligations.FlagOfEveryCommand : Prop :=
  ∀ (i : Instr) (s : State), ∃ t, exec i s = .next t ∧
    (i.mlenBad s → t.flag = false ∧ t.err = .mlen) ∧
    (¬i.mlenBad s → t.err = s.err ∧ (i.isChecking = false → t.flag = true)) ∧
    ∀ f d b e : Bool, ∃ t', exec i { s with flag := f, done := d, bwe := b, ie := e } = .next t' ∧ t'.flag = t.flag ∧
      (∀ j, t'.reg j = t.reg j) ∧ SameBytes t t' ∧ t'.mlen = t.mlen

/-! ### System commands -/

/-- R210, R211: `NOP` does nothing but end; `ZEROIZE` clears every register, every byte of `MSG` and `MLEN`, whatever `MLEN` holds, and leaves the
control registers. -/
def Obligations.NopAndZeroizeEffects : Prop :=
  (∀ s : State, ∃ t, exec .nop s = .next t ∧ WritesOnly [] true s t) ∧
  decode (commandWord 0x00 0 0 0 0) = .ok .nop ∧
  ReservedAbove 0x00 8 true ∧
  (∀ s : State, ∃ t, exec .zeroize s = .next t ∧ (∀ i, t.reg i = 0#256) ∧ (∀ a, t.msgByte a = 0#8) ∧
    t.mlen = 0#16 ∧ SameControl s t ∧ Ends true t) ∧
  decode (commandWord 0x01 0 0 0 0) = .ok .zeroize ∧
  ReservedAbove 0x01 8 true

/-! ### Field commands -/

/-- R103 to R107: `FADD`, `FSUB`, `FMUL` and `FSQR` are exact in GF(p) on the decoded operands, the result canonical, and write only `rd`. -/
def Obligations.FieldArithmeticIsExact : Prop :=
  (∀ (rd rs1 rs2 : Reg) (s : State),
    (∃ t, exec (.fadd rd rs1 rs2) s = .next t ∧ WritesOnly [rd] true s t ∧
      HoldsField (t.reg rd) (fieldValue (s.reg rs1) + fieldValue (s.reg rs2))) ∧
    (∃ t, exec (.fsub rd rs1 rs2) s = .next t ∧ WritesOnly [rd] true s t ∧
      HoldsField (t.reg rd) (fieldValue (s.reg rs1) - fieldValue (s.reg rs2))) ∧
    (∃ t, exec (.fmul rd rs1 rs2) s = .next t ∧ WritesOnly [rd] true s t ∧
      HoldsField (t.reg rd) (fieldValue (s.reg rs1) * fieldValue (s.reg rs2))) ∧
    (∃ t, exec (.fsqr rd rs1) s = .next t ∧ WritesOnly [rd] true s t ∧
      HoldsField (t.reg rd) (fieldValue (s.reg rs1) ^ 2))) ∧
  (∀ rd rs1 rs2 : Reg, decode (commandWord 0x10 rd rs1 rs2 0) = .ok (.fadd rd rs1 rs2)) ∧
  ReservedAbove 0x10 20 true ∧
  (∀ rd rs1 rs2 : Reg, decode (commandWord 0x11 rd rs1 rs2 0) = .ok (.fsub rd rs1 rs2)) ∧
  ReservedAbove 0x11 20 true ∧
  (∀ rd rs1 rs2 : Reg, decode (commandWord 0x12 rd rs1 rs2 0) = .ok (.fmul rd rs1 rs2)) ∧
  ReservedAbove 0x12 20 true ∧
  (∀ rd rs1 : Reg, decode (commandWord 0x13 rd rs1 0 0) = .ok (.fsqr rd rs1)) ∧
  ReservedAbove 0x13 16 true

/-- R102, R108: `FINV` gives the power `p − 2`, which is the multiplicative inverse of a non-zero operand and 0 of 0. -/
def Obligations.FieldInversionInverts : Prop :=
  (∀ (rd rs1 : Reg) (s : State), ∃ t v, exec (.finv rd rs1) s = .next t ∧ WritesOnly [rd] true s t ∧
    HoldsField (t.reg rd) v ∧ v = fieldValue (s.reg rs1) ^ (fieldPrime - 2) ∧
    (fieldValue (s.reg rs1) = 0 → v = 0) ∧ (fieldValue (s.reg rs1) ≠ 0 → fieldValue (s.reg rs1) * v = 1)) ∧
  (∀ rd rs1 : Reg, decode (commandWord 0x14 rd rs1 0 0) = .ok (.finv rd rs1)) ∧
  ReservedAbove 0x14 16 true

/-- R109: `FCSWAP` exchanges the 32 bytes of `rd` and `rs1`, undecoded, where bit 0 of `rs2` is 1, all three read first. -/
def Obligations.ConditionalSwapExchanges : Prop :=
  (∀ (rd rs1 rs2 : Reg) (s : State), ∃ t, exec (.fcswap rd rs1 rs2) s = .next t ∧ WritesOnly [rd, rs1] true s t ∧
    ((s.reg rs2).toNat % 2 = 1 → t.reg rd = s.reg rs1 ∧ t.reg rs1 = s.reg rd) ∧
    ((s.reg rs2).toNat % 2 = 0 → t.reg rd = s.reg rd ∧ t.reg rs1 = s.reg rs1)) ∧
  (∀ rd rs1 rs2 : Reg, decode (commandWord 0x15 rd rs1 rs2 0) = .ok (.fcswap rd rs1 rs2)) ∧
  ReservedAbove 0x15 20 true

/-- R100, R101, R110: `FCAN` gives the canonical encoding of the decoded operand; exactly the operands below `p` are copied unchanged. -/
def Obligations.CanonicaliseReduces : Prop :=
  (∀ (rd rs1 : Reg) (s : State), ∃ t, exec (.fcan rd rs1) s = .next t ∧ WritesOnly [rd] true s t ∧
    HoldsField (t.reg rd) (fieldValue (s.reg rs1)) ∧
    (t.reg rd).toNat = (s.reg rs1).toNat % 2 ^ 255 % fieldPrime ∧
    (t.reg rd = s.reg rs1 ↔ (s.reg rs1).toNat < fieldPrime)) ∧
  (∀ rd rs1 : Reg, decode (commandWord 0x16 rd rs1 0 0) = .ok (.fcan rd rs1)) ∧
  ReservedAbove 0x16 16 true

/-! ### Scalar commands -/

/-- R120, R121: `SCLAMP` changes bytes 0 and 31 as said, and the result is a multiple of 8 in `[2^254, 2^255)`; such an operand is unchanged. -/
def Obligations.ClampSetsTheFixedBits : Prop :=
  (∀ (rd rs1 : Reg) (s : State), ∃ t, exec (.sclamp rd rs1) s = .next t ∧ WritesOnly [rd] true s t ∧
    wordByte (t.reg rd) 0 = wordByte (s.reg rs1) 0 &&& 0xF8#8 ∧
    (∀ j, 1 ≤ j → j ≤ 30 → wordByte (t.reg rd) j = wordByte (s.reg rs1) j) ∧
    wordByte (t.reg rd) 31 = (wordByte (s.reg rs1) 31 &&& 0x7F#8) ||| 0x40#8 ∧
    (t.reg rd).toNat % 8 = 0 ∧ 2 ^ 254 ≤ (t.reg rd).toNat ∧ (t.reg rd).toNat < 2 ^ 255 ∧
    ((s.reg rs1).toNat % 8 = 0 → 2 ^ 254 ≤ (s.reg rs1).toNat → (s.reg rs1).toNat < 2 ^ 255 → t.reg rd = s.reg rs1)) ∧
  (∀ rd rs1 : Reg, decode (commandWord 0x20 rd rs1 0 0) = .ok (.sclamp rd rs1)) ∧
  ReservedAbove 0x20 16 true

/-- R122, R123, R124: `SRED` reduces the 64-byte integer of a pair, and `SMULADD` the full 256-bit `a + b·c`, modulo `L`, without truncation. -/
def Obligations.ScalarReductionsAreExact : Prop :=
  (∀ (rd lo hi : Reg) (s : State), lo.val % 2 = 0 → hi.val = lo.val + 1 →
    ∃ t, exec (.sred rd lo) s = .next t ∧ WritesOnly [rd] true s t ∧
      HoldsScalar (t.reg rd) ((s.reg lo).toNat + 2 ^ 256 * (s.reg hi).toNat)) ∧
  (∀ (rd rs1 rs2 rs3 : Reg) (s : State), ∃ t, exec (.smuladd rd rs1 rs2 rs3) s = .next t ∧ WritesOnly [rd] true s t ∧
    HoldsScalar (t.reg rd) ((s.reg rs1).toNat + (s.reg rs2).toNat * (s.reg rs3).toNat)) ∧
  (∀ rd rs1 : Reg, rs1.val % 2 = 0 → decode (commandWord 0x21 rd rs1 0 0) = .ok (.sred rd rs1)) ∧
  ReservedAbove 0x21 16 true ∧ PairField 0x21 16 true 12 ∧
  (∀ rd rs1 rs2 rs3 : Reg, decode (commandWord 0x22 rd rs1 rs2 rs3) = .ok (.smuladd rd rs1 rs2 rs3)) ∧
  ReservedAbove 0x22 24 true

/-- R125, R126: `SEQ` answers whether all 32 bytes are equal, and `SLTL` whether the operand is below `L` or is such a value with bit 255 set; neither writes a
register. -/
def Obligations.ScalarChecksAnswerInFlag : Prop :=
  (∀ (rs1 rs2 : Reg) (s : State), ∃ t f, exec (.seq rs1 rs2) s = .next t ∧ WritesOnly [] f s t ∧
    (f = true ↔ ∀ j, j < 32 → wordByte (s.reg rs1) j = wordByte (s.reg rs2) j)) ∧
  (∀ (rs1 : Reg) (s : State), ∃ t f, exec (.sltl rs1) s = .next t ∧ WritesOnly [] f s t ∧
    (f = true ↔ ∃ n, n < groupOrder ∧ ((s.reg rs1).toNat = n ∨ (s.reg rs1).toNat = n + 2 ^ 255))) ∧
  (∀ rs1 rs2 : Reg, decode (commandWord 0x23 0 rs1 rs2 0) = .ok (.seq rs1 rs2)) ∧
  ReservedAbove 0x23 20 false ∧
  (∀ rs1 : Reg, decode (commandWord 0x24 0 rs1 0 0) = .ok (.sltl rs1)) ∧
  ReservedAbove 0x24 16 false

/-! ### Ladder commands -/

/-- R140 to R143: `LADDER` and `LADDERB` compute the ladder over the low 255 bits of the scalar, unclamped, the result canonical; the ladder written without
its swap bit, over GF(p), with a division at the end. -/
def Obligations.LadderFollowsItsFormulas : Prop :=
  (∀ (rd rs1 rs2 : Reg) (s : State), ∃ t, exec (.ladder rd rs1 rs2) s = .next t ∧ WritesOnly [rd] true s t ∧
    HoldsField (t.reg rd) (ladderValue ((s.reg rs1).toNat % 2 ^ 255) (fieldValue (s.reg rs2)))) ∧
  (∀ (rd rs1 : Reg) (s : State), ∃ t, exec (.ladderb rd rs1) s = .next t ∧ WritesOnly [rd] true s t ∧
    HoldsField (t.reg rd) (ladderValue ((s.reg rs1).toNat % 2 ^ 255) 9)) ∧
  (∀ rd rs1 rs2 : Reg, decode (commandWord 0x30 rd rs1 rs2 0) = .ok (.ladder rd rs1 rs2)) ∧
  ReservedAbove 0x30 20 true ∧
  (∀ rd rs1 : Reg, decode (commandWord 0x31 rd rs1 0 0) = .ok (.ladderb rd rs1)) ∧
  ReservedAbove 0x31 16 true

/-- R144 (a): on the u-coordinate of a curve point the ladder gives the u-coordinate of its multiple, 0 for the point at infinity. -/
def Obligations.LadderGivesTheMultiple : Prop :=
  ∀ (rd rs1 rs2 : Reg) (s : State) (P : Point), IsPoint P → fieldValue (s.reg rs2) = uOf P →
    ∃ t, exec (.ladder rd rs1 rs2) s = .next t ∧ HoldsField (t.reg rd) (uOf (sumOf ((s.reg rs1).toNat % 2 ^ 255) P))

/-- R144 (c), R158: `LADDERB` gives what `PSMULB` and then `E2M` give, for every scalar below 2^255. -/
def Obligations.FixedBaseLadderAgreesWithEdwards : Prop :=
  ∀ (rd re rs1 : Reg) (s : State), (s.reg rs1).toNat < 2 ^ 255 →
    ∃ t u v, exec (.ladderb rd rs1) s = .next t ∧ exec (.psmulb re rs1) s = .next u ∧ exec (.e2m rd re) u = .next v ∧
      v.flag = true ∧ v.reg rd = t.reg rd

/-- R144 (b), R186, R190 (e): two key pairs made by `GENKEY` agree on their shared secret. -/
def Obligations.SharedSecretsAgree : Prop :=
  ∀ (da db ra rb ea eb : Reg) (s : State), da.isPair = true → db.isPair = true → da ≠ db →
    ∃ t u v w, exec (.genkey da ra) s = .next t ∧ exec (.genkey db rb) t = .next u ∧
      exec (.shared ea da (pairHigh db)) u = .next v ∧ exec (.shared eb db (pairHigh da)) u = .next w ∧
      v.reg ea = w.reg eb

/-- R144 (e), R186: a peer key of 0, 1 or `p − 1`, in any encoding, gives the all-zero secret, with `FLAG = 1`. -/
def Obligations.WeakPeerKeysGiveZero : Prop :=
  ∀ (rd rs1 rs2 : Reg) (s : State),
    fieldValue (s.reg rs2) = 0 ∨ fieldValue (s.reg rs2) = 1 ∨ fieldValue (s.reg rs2) = -1 →
    ∃ t, exec (.shared rd rs1 rs2) s = .next t ∧ t.reg rd = 0#256 ∧ t.flag = true

/-- R144 (d), (f): the ladder does not depend on bit 255 of either operand nor on the encoding of the u-coordinate; scalar 0 or u-coordinate 0 give 0. -/
def Obligations.LadderIgnoresTopBits : Prop :=
  ∀ (rd rs1 rs2 : Reg) (s s' : State),
    (∀ t t', exec (.ladder rd rs1 rs2) s = .next t → exec (.ladder rd rs1 rs2) s' = .next t' →
      (s.reg rs1).toNat % 2 ^ 255 = (s'.reg rs1).toNat % 2 ^ 255 → fieldValue (s.reg rs2) = fieldValue (s'.reg rs2) →
      t.reg rd = t'.reg rd) ∧
    (∀ t, exec (.ladder rd rs1 rs2) s = .next t →
      (s.reg rs1).toNat % 2 ^ 255 = 0 ∨ fieldValue (s.reg rs2) = 0 → t.reg rd = 0#256)

/-! ### Point commands -/

/-- R153, R160, R161: `PADD` and `PDBL` write the canonical encoding of the sum, a curve point, of the decoded operands; an operand that does not decode
is a rejection that writes nothing but `FLAG`. -/
def Obligations.PointSumsAreComplete : Prop :=
  (∀ (rd rs1 rs2 : Reg) (s : State) (P Q : Point), DecodesTo (s.reg rs1) P → DecodesTo (s.reg rs2) Q →
    ∃ t R, exec (.padd rd rs1 rs2) s = .next t ∧ WritesOnly [rd] true s t ∧ IsSum P Q R ∧ HoldsPoint (t.reg rd) R) ∧
  (∀ (rd rs1 rs2 : Reg) (s : State), ((∀ P, ¬DecodesTo (s.reg rs1) P) ∨ ∀ Q, ¬DecodesTo (s.reg rs2) Q) →
    ∃ t, exec (.padd rd rs1 rs2) s = .next t ∧ WritesOnly [] false s t) ∧
  (∀ (rd rs1 : Reg) (s : State) (P : Point), DecodesTo (s.reg rs1) P →
    ∃ t R, exec (.pdbl rd rs1) s = .next t ∧ WritesOnly [rd] true s t ∧ IsSum P P R ∧ HoldsPoint (t.reg rd) R) ∧
  (∀ (rd rs1 : Reg) (s : State), (∀ P, ¬DecodesTo (s.reg rs1) P) →
    ∃ t, exec (.pdbl rd rs1) s = .next t ∧ WritesOnly [] false s t) ∧
  (∀ rd rs1 rs2 : Reg, decode (commandWord 0x40 rd rs1 rs2 0) = .ok (.padd rd rs1 rs2)) ∧
  ReservedAbove 0x40 20 true ∧
  (∀ rd rs1 : Reg, decode (commandWord 0x41 rd rs1 0 0) = .ok (.pdbl rd rs1)) ∧
  ReservedAbove 0x41 16 true

/-- R155, R162: `PSMULB` writes the sum of `n` copies of the base point, `n` the whole 256-bit integer; it depends on `n mod L` only. -/
def Obligations.FixedBaseMultipleIsRepeatedSum : Prop :=
  (∀ (rd rs1 : Reg) (s : State), ∃ t, exec (.psmulb rd rs1) s = .next t ∧ WritesOnly [rd] true s t ∧
    HoldsPoint (t.reg rd) (sumOf (s.reg rs1).toNat basePoint) ∧
    HoldsPoint (t.reg rd) (sumOf ((s.reg rs1).toNat % groupOrder) basePoint)) ∧
  (∀ rd rs1 : Reg, decode (commandWord 0x42 rd rs1 0 0) = .ok (.psmulb rd rs1)) ∧
  ReservedAbove 0x42 16 true

/-- R155, R163: `PDSMUL` writes `[s]B − [h]A`, neither scalar reduced; an `A` that does not decode is a rejection. -/
def Obligations.DoubleScalarMultiple : Prop :=
  (∀ (rd rs1 rs2 rs3 : Reg) (s : State) (A : Point), DecodesTo (s.reg rs3) A →
    ∃ t Q, exec (.pdsmul rd rs1 rs2 rs3) s = .next t ∧ WritesOnly [rd] true s t ∧
      IsDoubleMultiple (s.reg rs1).toNat (s.reg rs2).toNat A Q ∧ HoldsPoint (t.reg rd) Q) ∧
  (∀ (rd rs1 rs2 rs3 : Reg) (s : State), (∀ A, ¬DecodesTo (s.reg rs3) A) →
    ∃ t, exec (.pdsmul rd rs1 rs2 rs3) s = .next t ∧ WritesOnly [] false s t) ∧
  (∀ rd rs1 rs2 rs3 : Reg, decode (commandWord 0x43 rd rs1 rs2 rs3) = .ok (.pdsmul rd rs1 rs2 rs3)) ∧
  ReservedAbove 0x43 24 true

/-- R151, R152, R164: `PDEC` writes the canonical encoding of the one point that the bytes decode to; having no square root is the only cause of a
rejection. -/
def Obligations.PointDecodeChecks : Prop :=
  (∀ (rd rs1 : Reg) (s : State) (P : Point), DecodesTo (s.reg rs1) P →
    ∃ t, exec (.pdec rd rs1) s = .next t ∧ WritesOnly [rd] true s t ∧ HoldsPoint (t.reg rd) P) ∧
  (∀ (rd rs1 : Reg) (s : State), (∀ P, ¬DecodesTo (s.reg rs1) P) →
    ∃ t, exec (.pdec rd rs1) s = .next t ∧ WritesOnly [] false s t) ∧
  (∀ (b : Word) (P Q : Point), DecodesTo b P → DecodesTo b Q → P = Q) ∧
  (∀ b : Word, (∃ P, DecodesTo b P) ↔ ∃ x : GFp, x ^ 2 * (dF * fieldValue b ^ 2 + 1) = fieldValue b ^ 2 - 1) ∧
  (∀ rd rs1 : Reg, decode (commandWord 0x44 rd rs1 0 0) = .ok (.pdec rd rs1)) ∧
  ReservedAbove 0x44 16 true

/-- R158, R165: `E2M` writes the u-coordinate of the decoded point, which does not depend on its sign; 0 for the neutral point. -/
def Obligations.EdwardsToMontgomeryMap : Prop :=
  (∀ (rd rs1 : Reg) (s : State) (P : Point), DecodesTo (s.reg rs1) P →
    ∃ t, exec (.e2m rd rs1) s = .next t ∧ WritesOnly [rd] true s t ∧ HoldsField (t.reg rd) (uOf P)) ∧
  (∀ (rd rs1 : Reg) (s : State), (∀ P, ¬DecodesTo (s.reg rs1) P) →
    ∃ t, exec (.e2m rd rs1) s = .next t ∧ WritesOnly [] false s t) ∧
  (∀ rd rs1 : Reg, decode (commandWord 0x45 rd rs1 0 0) = .ok (.e2m rd rs1)) ∧
  ReservedAbove 0x45 16 true

/-- R159, R166: `M2E` writes the point over the u-coordinate with the parity that bit 255 of `rs2` says; where there is none it rejects. -/
def Obligations.MontgomeryToEdwardsMap : Prop :=
  (∀ (rd rs1 rs2 : Reg) (s : State) (P : Point),
    OverU (fieldValue (s.reg rs1)) (decide ((s.reg rs2).toNat / 2 ^ 255 = 1)) P →
    ∃ t, exec (.m2e rd rs1 rs2) s = .next t ∧ WritesOnly [rd] true s t ∧ HoldsPoint (t.reg rd) P) ∧
  (∀ (rd rs1 rs2 : Reg) (s : State),
    (∀ P, ¬OverU (fieldValue (s.reg rs1)) (decide ((s.reg rs2).toNat / 2 ^ 255 = 1)) P) →
    ∃ t, exec (.m2e rd rs1 rs2) s = .next t ∧ WritesOnly [] false s t) ∧
  (∀ rd rs1 rs2 : Reg, decode (commandWord 0x46 rd rs1 rs2 0) = .ok (.m2e rd rs1 rs2)) ∧
  ReservedAbove 0x46 20 true

/-- R159: from the Edwards curve to the Montgomery curve and back: `E2M`, and `M2E` with the point's own encoding as sign operand, give the point again, unless
it is the neutral point. -/
def Obligations.BirationalMapRoundTrip : Prop :=
  ∀ (ru re rs : Reg) (s : State) (P : Point), ru ≠ rs → DecodesTo (s.reg rs) P → P.y ≠ 1 →
    (s.reg rs).toNat / 2 ^ 255 = P.x % 2 →
    ∃ t u, exec (.e2m ru rs) s = .next t ∧ exec (.m2e re ru rs) t = .next u ∧ u.flag = true ∧ HoldsPoint (u.reg re) P

/-- R21, R151: every point that a command writes is the canonical encoding of a curve point, and decodes to it. -/
def Obligations.PointResultsAreCanonical : Prop :=
  ∀ (i : Instr) (rd a b c : Reg) (s t : State),
    i ∈ [.padd rd a b, .pdbl rd a, .psmulb rd a, .pdsmul rd a b c, .pdec rd a, .m2e rd a b] →
    exec i s = .next t → t.flag = true → ∃ P, DecodesTo (t.reg rd) P ∧ HoldsPoint (t.reg rd) P

/-! ### Protocol commands -/

/-- R180, R181, R185: `GENKEY` writes the clamped seed and its u-coordinate, by the ladder and by the birational map alike, which is never 0. -/
def Obligations.GenerateKeyPair : Prop :=
  (∀ (lo hi rs1 : Reg) (s : State), lo.val % 2 = 0 → hi.val = lo.val + 1 →
    ∃ t, exec (.genkey lo rs1) s = .next t ∧ WritesOnly [lo, hi] true s t ∧ t.reg lo = clamp (s.reg rs1) ∧
      HoldsField (t.reg hi) (ladderValue (clamp (s.reg rs1)).toNat 9) ∧
      HoldsField (t.reg hi) (uOf (sumOf (clamp (s.reg rs1)).toNat basePoint)) ∧ t.reg hi ≠ 0#256) ∧
  (∀ rd rs1 : Reg, rd.val % 2 = 0 → decode (commandWord 0x50 rd rs1 0 0) = .ok (.genkey rd rs1)) ∧
  ReservedAbove 0x50 16 true ∧ PairField 0x50 16 true 8

/-- R186: `SHARED` is the ladder of the clamped key on the peer's u-coordinate; no public key is rejected. -/
def Obligations.SharedSecretIsTheLadder : Prop :=
  (∀ (rd rs1 rs2 : Reg) (s : State), ∃ t, exec (.shared rd rs1 rs2) s = .next t ∧ WritesOnly [rd] true s t ∧
    HoldsField (t.reg rd) (ladderValue (clamp (s.reg rs1)).toNat (fieldValue (s.reg rs2)))) ∧
  (∀ rd rs1 rs2 : Reg, decode (commandWord 0x51 rd rs1 rs2 0) = .ok (.shared rd rs1 rs2)) ∧
  ReservedAbove 0x51 20 true

/-- R183, R187, R188, R193: `SIGN` and `SIGNR` write the signature of the message, `R` in the even register and `S` with the sign bit in the odd one. -/
def Obligations.SignaturesAreAsDefined : Prop :=
  (∀ (lo hi rs1 : Reg) (s : State), lo.val % 2 = 0 → hi.val = lo.val + 1 → s.mlen.toNat ≤ s.msgMax.toNat →
    ∃ t, exec (.sign lo rs1) s = .next t ∧ WritesOnly [lo, hi] true s t ∧
      IsSignature (s.reg rs1) (s.prefixBytes s.mlen.toNat) [] (t.reg lo) (t.reg hi)) ∧
  (∀ (lo hi rs1 rlo rhi : Reg) (s : State), lo.val % 2 = 0 → hi.val = lo.val + 1 → rlo.val % 2 = 0 →
    rhi.val = rlo.val + 1 → s.mlen.toNat ≤ s.msgMax.toNat →
    ∃ t, exec (.signr lo rs1 rlo) s = .next t ∧ WritesOnly [lo, hi] true s t ∧
      IsSignature (s.reg rs1) (s.prefixBytes s.mlen.toNat) (registerBytes (s.reg rlo) ++ registerBytes (s.reg rhi))
        (t.reg lo) (t.reg hi)) ∧
  (∀ (rd rs1 : Reg) (s : State), s.mlen.toNat > s.msgMax.toNat →
    ∃ t, exec (.sign rd rs1) s = .next t ∧ Raises .mlen s t) ∧
  (∀ rd rs1 : Reg, rd.val % 2 = 0 → decode (commandWord 0x52 rd rs1 0 0) = .ok (.sign rd rs1)) ∧
  ReservedAbove 0x52 16 true ∧ PairField 0x52 16 true 8 ∧
  (∀ (rd rs1 rs2 : Reg) (s : State), s.mlen.toNat > s.msgMax.toNat →
    ∃ t, exec (.signr rd rs1 rs2) s = .next t ∧ Raises .mlen s t) ∧
  (∀ rd rs1 rs2 : Reg, rd.val % 2 = 0 → rs2.val % 2 = 0 → decode (commandWord 0x53 rd rs1 rs2 0) = .ok (.signr rd rs1 rs2)) ∧
  ReservedAbove 0x53 20 true ∧ PairField 0x53 20 true 8 ∧ PairField 0x53 20 true 16

/-- R184, R189, R224: `VERIFY` writes nothing but `FLAG`, which is 1 exactly where the six steps accept. -/
def Obligations.VerificationAnswersInFlag : Prop :=
  (∀ (rs1 lo hi : Reg) (s : State), lo.val % 2 = 0 → hi.val = lo.val + 1 → s.mlen.toNat ≤ s.msgMax.toNat →
    ∃ t f, exec (.verify rs1 lo) s = .next t ∧ WritesOnly [] f s t ∧
      (f = true ↔ Accepts (s.reg rs1) (s.prefixBytes s.mlen.toNat) (s.reg lo) (s.reg hi))) ∧
  (∀ (rs1 rs2 : Reg) (s : State), s.mlen.toNat > s.msgMax.toNat →
    ∃ t, exec (.verify rs1 rs2) s = .next t ∧ Raises .mlen s t) ∧
  (∀ rs1 rs2 : Reg, rs2.val % 2 = 0 → decode (commandWord 0x54 0 rs1 rs2 0) = .ok (.verify rs1 rs2)) ∧
  ReservedAbove 0x54 20 false ∧ PairField 0x54 20 false 16

/-- R191: `SIGNMSG` appends the 64 bytes of the signature at `MLEN`, adds 64 to `MLEN`, and changes no register and no other byte. -/
def Obligations.SignMessageAppends : Prop :=
  (∀ (rs1 : Reg) (s : State), s.mlen.toNat + 64 ≤ s.msgMax.toNat →
    ∃ t R S, exec (.signmsg rs1) s = .next t ∧ IsSignature (s.reg rs1) (s.prefixBytes s.mlen.toNat) [] R S ∧
      t.mlen.toNat = s.mlen.toNat + 64 ∧
      (∀ j, j < 32 → t.msgByte (s.mlen.toNat + j) = wordByte R j ∧ t.msgByte (s.mlen.toNat + 32 + j) = wordByte S j) ∧
      (∀ a, a < s.mlen.toNat ∨ s.mlen.toNat + 64 ≤ a → t.msgByte a = s.msgByte a) ∧
      SameRegs [] s t ∧ SameControl s t ∧ Ends true t) ∧
  (∀ (rs1 : Reg) (s : State), s.mlen.toNat + 64 > s.msgMax.toNat →
    ∃ t, exec (.signmsg rs1) s = .next t ∧ Raises .mlen s t) ∧
  (∀ rs1 : Reg, decode (commandWord 0x55 0 rs1 0 0) = .ok (.signmsg rs1)) ∧
  ReservedAbove 0x55 16 false

/-- R192, R224: `OPENMSG` checks the last 64 bytes of the message as the signature of the bytes before them; it strips them where they verify, and
otherwise, as for a message below 64 bytes, sets `MLEN` to 0; no byte and no register changes. -/
def Obligations.OpenMessageStrips : Prop :=
  (∀ (rs1 : Reg) (s : State) (R S : Word), s.mlen.toNat ≤ s.msgMax.toNat → 64 ≤ s.mlen.toNat →
    (∀ j, j < 32 → s.msgByte (s.mlen.toNat - 64 + j) = wordByte R j ∧ s.msgByte (s.mlen.toNat - 32 + j) = wordByte S j) →
    ∃ t f, exec (.openmsg rs1) s = .next t ∧ Ends f t ∧
      (f = true ↔ Accepts (s.reg rs1) (s.prefixBytes (s.mlen.toNat - 64)) R S) ∧
      t.mlen.toNat = (if f then s.mlen.toNat - 64 else 0) ∧ SameBytes s t ∧ SameRegs [] s t ∧ SameControl s t) ∧
  (∀ (rs1 : Reg) (s : State), s.mlen.toNat ≤ s.msgMax.toNat → s.mlen.toNat < 64 →
    ∃ t, exec (.openmsg rs1) s = .next t ∧ Ends false t ∧ t.mlen = 0#16 ∧ SameBytes s t ∧ SameRegs [] s t ∧
      SameControl s t) ∧
  (∀ (rs1 : Reg) (s : State), s.mlen.toNat > s.msgMax.toNat →
    ∃ t, exec (.openmsg rs1) s = .next t ∧ Raises .mlen s t) ∧
  (∀ rs1 : Reg, decode (commandWord 0x56 0 rs1 0 0) = .ok (.openmsg rs1)) ∧
  ReservedAbove 0x56 16 false

/-- R190 (a): a signature of the message made by `SIGN` or `SIGNR` under any key bytes is accepted by `VERIFY` with any register that holds the PublicKey of
that key, before the signing or after it, for every hash function and padding block. A register of the pair that signing overwrites counts where
it holds the PublicKey after the signing. -/
def Obligations.VerifyAcceptsOwnSignatures : Prop :=
  ∀ (rk g rnd : Reg) (s : State), g.isPair = true → rnd.isPair = true → s.mlen.toNat ≤ s.msgMax.toNat →
    ∀ i, i ∈ [Instr.sign g rk, .signr g rk rnd] → ∃ t, exec i s = .next t ∧
      ∀ rp, (rp ∉ [g, pairHigh g] ∧ s.reg rp = ladder (clamp (s.reg rk)) 9#256) ∨ t.reg rp = ladder (clamp (s.reg rk)) 9#256 →
        ∃ u, exec (.verify rp g) t = .next u ∧ u.flag = true

/-- R190 (f), R192: `OPENMSG` after `SIGNMSG` with the matching PublicKey accepts, and restores `MLEN` and the message. -/
def Obligations.OpenAfterSignRestores : Prop :=
  ∀ (rk rp : Reg) (s : State), s.mlen.toNat + 64 ≤ s.msgMax.toNat → s.reg rp = ladder (clamp (s.reg rk)) 9#256 →
    ∃ t u, exec (.signmsg rk) s = .next t ∧ exec (.openmsg rp) t = .next u ∧ u.flag = true ∧ u.mlen = s.mlen ∧
      u.prefixBytes u.mlen.toNat = s.prefixBytes s.mlen.toNat

/-- R190 (d): where a signature is accepted, the same signature with another scalar below `L` is rejected. -/
def Obligations.ChangedScalarIsRejected : Prop :=
  ∀ (rp lo hi : Reg) (s t : State) (S' : Word), lo.val % 2 = 0 → hi.val = lo.val + 1 → rp ≠ hi →
    exec (.verify rp lo) s = .next t → t.flag = true →
    S'.toNat / 2 ^ 255 = (s.reg hi).toNat / 2 ^ 255 → S'.toNat % 2 ^ 255 < groupOrder → S' ≠ s.reg hi →
    ∃ u, exec (.verify rp lo) (s.setReg hi S') = .next u ∧ u.flag = false

/-- R8 to R11, R153, R158: the constants of the spec have the relations it gives: `a24`, `d`, `I`, the base point on the curve, over `u = 9`, of order `L`. -/
def Obligations.ParameterIdentities : Prop :=
  4 * a24 + 2 = 486662 ∧ (curveD * 121666 + 121665) % fieldPrime = 0 ∧
  sqrtNegOne * sqrtNegOne % fieldPrime = fieldPrime - 1 ∧ IsPoint basePoint ∧ 5 * basePoint.y % fieldPrime = 4 ∧
  basePoint.x % 2 = 0 ∧ HoldsPoint 0x6666666666666666666666666666666666666666666666666666666666666658#256 basePoint ∧
  e2m basePoint = 9 ∧ Nat.Prime groupOrder ∧ sumOf groupOrder basePoint = neutralPoint

end
end

