-- ==== Sys2Proof/Laws/State.lean ====
section
/-! SUPPORT. What each update of the state leaves in each field, one lemma a field, so that no later proof unfolds a record update. -/

namespace Sys2Proof.Machine

variable (s : State)

@[simp] theorem State.setReg_regs (i : Reg) (v : Word) : (s.setReg i v).regs = s.regs.set i v := rfl
@[simp] theorem State.setReg_cmd (i : Reg) (v : Word) : (s.setReg i v).cmd = s.cmd := rfl
@[simp] theorem State.setReg_busy (i : Reg) (v : Word) : (s.setReg i v).busy = s.busy := rfl
@[simp] theorem State.setReg_done (i : Reg) (v : Word) : (s.setReg i v).done = s.done := rfl
@[simp] theorem State.setReg_flag (i : Reg) (v : Word) : (s.setReg i v).flag = s.flag := rfl
@[simp] theorem State.setReg_bwe (i : Reg) (v : Word) : (s.setReg i v).bwe = s.bwe := rfl
@[simp] theorem State.setReg_err (i : Reg) (v : Word) : (s.setReg i v).err = s.err := rfl
@[simp] theorem State.setReg_ie (i : Reg) (v : Word) : (s.setReg i v).ie = s.ie := rfl
@[simp] theorem State.setReg_mlen (i : Reg) (v : Word) : (s.setReg i v).mlen = s.mlen := rfl
@[simp] theorem State.setReg_msg (i : Reg) (v : Word) : (s.setReg i v).msg = s.msg := rfl
@[simp] theorem State.setReg_msgMax (i : Reg) (v : Word) : (s.setReg i v).msgMax = s.msgMax := rfl
@[simp] theorem State.setReg_agenda (i : Reg) (v : Word) : (s.setReg i v).agenda = s.agenda := rfl
@[simp] theorem State.setReg_replies (i : Reg) (v : Word) : (s.setReg i v).replies = s.replies := rfl
@[simp] theorem State.setReg_msgByte (i : Reg) (v : Word) (a : Nat) : (s.setReg i v).msgByte a = s.msgByte a := rfl

@[simp] theorem State.setPair_cmd (n : Reg) (v : DWord) : (s.setPair n v).cmd = s.cmd := rfl
@[simp] theorem State.setPair_busy (n : Reg) (v : DWord) : (s.setPair n v).busy = s.busy := rfl
@[simp] theorem State.setPair_done (n : Reg) (v : DWord) : (s.setPair n v).done = s.done := rfl
@[simp] theorem State.setPair_flag (n : Reg) (v : DWord) : (s.setPair n v).flag = s.flag := rfl
@[simp] theorem State.setPair_bwe (n : Reg) (v : DWord) : (s.setPair n v).bwe = s.bwe := rfl
@[simp] theorem State.setPair_err (n : Reg) (v : DWord) : (s.setPair n v).err = s.err := rfl
@[simp] theorem State.setPair_ie (n : Reg) (v : DWord) : (s.setPair n v).ie = s.ie := rfl
@[simp] theorem State.setPair_mlen (n : Reg) (v : DWord) : (s.setPair n v).mlen = s.mlen := rfl
@[simp] theorem State.setPair_msg (n : Reg) (v : DWord) : (s.setPair n v).msg = s.msg := rfl
@[simp] theorem State.setPair_msgMax (n : Reg) (v : DWord) : (s.setPair n v).msgMax = s.msgMax := rfl
@[simp] theorem State.setPair_agenda (n : Reg) (v : DWord) : (s.setPair n v).agenda = s.agenda := rfl
@[simp] theorem State.setPair_replies (n : Reg) (v : DWord) : (s.setPair n v).replies = s.replies := rfl
@[simp] theorem State.setPair_msgByte (n : Reg) (v : DWord) (a : Nat) : (s.setPair n v).msgByte a = s.msgByte a := rfl

@[simp] theorem State.setField_cmd (i : Reg) (v : Nat) : (s.setField i v).cmd = s.cmd := rfl
@[simp] theorem State.setField_busy (i : Reg) (v : Nat) : (s.setField i v).busy = s.busy := rfl
@[simp] theorem State.setField_done (i : Reg) (v : Nat) : (s.setField i v).done = s.done := rfl
@[simp] theorem State.setField_flag (i : Reg) (v : Nat) : (s.setField i v).flag = s.flag := rfl
@[simp] theorem State.setField_bwe (i : Reg) (v : Nat) : (s.setField i v).bwe = s.bwe := rfl
@[simp] theorem State.setField_err (i : Reg) (v : Nat) : (s.setField i v).err = s.err := rfl
@[simp] theorem State.setField_ie (i : Reg) (v : Nat) : (s.setField i v).ie = s.ie := rfl
@[simp] theorem State.setField_mlen (i : Reg) (v : Nat) : (s.setField i v).mlen = s.mlen := rfl
@[simp] theorem State.setField_msg (i : Reg) (v : Nat) : (s.setField i v).msg = s.msg := rfl
@[simp] theorem State.setField_msgMax (i : Reg) (v : Nat) : (s.setField i v).msgMax = s.msgMax := rfl
@[simp] theorem State.setField_agenda (i : Reg) (v : Nat) : (s.setField i v).agenda = s.agenda := rfl
@[simp] theorem State.setField_replies (i : Reg) (v : Nat) : (s.setField i v).replies = s.replies := rfl
@[simp] theorem State.setField_msgByte (i : Reg) (v : Nat) (a : Nat) : (s.setField i v).msgByte a = s.msgByte a := rfl

@[simp] theorem State.setScalar_cmd (i : Reg) (v : Nat) : (s.setScalar i v).cmd = s.cmd := rfl
@[simp] theorem State.setScalar_busy (i : Reg) (v : Nat) : (s.setScalar i v).busy = s.busy := rfl
@[simp] theorem State.setScalar_done (i : Reg) (v : Nat) : (s.setScalar i v).done = s.done := rfl
@[simp] theorem State.setScalar_flag (i : Reg) (v : Nat) : (s.setScalar i v).flag = s.flag := rfl
@[simp] theorem State.setScalar_bwe (i : Reg) (v : Nat) : (s.setScalar i v).bwe = s.bwe := rfl
@[simp] theorem State.setScalar_err (i : Reg) (v : Nat) : (s.setScalar i v).err = s.err := rfl
@[simp] theorem State.setScalar_ie (i : Reg) (v : Nat) : (s.setScalar i v).ie = s.ie := rfl
@[simp] theorem State.setScalar_mlen (i : Reg) (v : Nat) : (s.setScalar i v).mlen = s.mlen := rfl
@[simp] theorem State.setScalar_msg (i : Reg) (v : Nat) : (s.setScalar i v).msg = s.msg := rfl
@[simp] theorem State.setScalar_msgMax (i : Reg) (v : Nat) : (s.setScalar i v).msgMax = s.msgMax := rfl
@[simp] theorem State.setScalar_agenda (i : Reg) (v : Nat) : (s.setScalar i v).agenda = s.agenda := rfl
@[simp] theorem State.setScalar_replies (i : Reg) (v : Nat) : (s.setScalar i v).replies = s.replies := rfl
@[simp] theorem State.setScalar_msgByte (i : Reg) (v : Nat) (a : Nat) : (s.setScalar i v).msgByte a = s.msgByte a := rfl

@[simp] theorem State.setPoint_cmd (i : Reg) (P : Point) : (s.setPoint i P).cmd = s.cmd := rfl
@[simp] theorem State.setPoint_busy (i : Reg) (P : Point) : (s.setPoint i P).busy = s.busy := rfl
@[simp] theorem State.setPoint_done (i : Reg) (P : Point) : (s.setPoint i P).done = s.done := rfl
@[simp] theorem State.setPoint_flag (i : Reg) (P : Point) : (s.setPoint i P).flag = s.flag := rfl
@[simp] theorem State.setPoint_bwe (i : Reg) (P : Point) : (s.setPoint i P).bwe = s.bwe := rfl
@[simp] theorem State.setPoint_err (i : Reg) (P : Point) : (s.setPoint i P).err = s.err := rfl
@[simp] theorem State.setPoint_ie (i : Reg) (P : Point) : (s.setPoint i P).ie = s.ie := rfl
@[simp] theorem State.setPoint_mlen (i : Reg) (P : Point) : (s.setPoint i P).mlen = s.mlen := rfl
@[simp] theorem State.setPoint_msg (i : Reg) (P : Point) : (s.setPoint i P).msg = s.msg := rfl
@[simp] theorem State.setPoint_msgMax (i : Reg) (P : Point) : (s.setPoint i P).msgMax = s.msgMax := rfl
@[simp] theorem State.setPoint_agenda (i : Reg) (P : Point) : (s.setPoint i P).agenda = s.agenda := rfl
@[simp] theorem State.setPoint_replies (i : Reg) (P : Point) : (s.setPoint i P).replies = s.replies := rfl
@[simp] theorem State.setPoint_msgByte (i : Reg) (P : Point) (a : Nat) : (s.setPoint i P).msgByte a = s.msgByte a := rfl

@[simp] theorem State.memWrite_regs (a : Nat) (bs : List Byte) : (s.memWrite a bs).regs = s.regs := rfl
@[simp] theorem State.memWrite_cmd (a : Nat) (bs : List Byte) : (s.memWrite a bs).cmd = s.cmd := rfl
@[simp] theorem State.memWrite_busy (a : Nat) (bs : List Byte) : (s.memWrite a bs).busy = s.busy := rfl
@[simp] theorem State.memWrite_done (a : Nat) (bs : List Byte) : (s.memWrite a bs).done = s.done := rfl
@[simp] theorem State.memWrite_flag (a : Nat) (bs : List Byte) : (s.memWrite a bs).flag = s.flag := rfl
@[simp] theorem State.memWrite_bwe (a : Nat) (bs : List Byte) : (s.memWrite a bs).bwe = s.bwe := rfl
@[simp] theorem State.memWrite_err (a : Nat) (bs : List Byte) : (s.memWrite a bs).err = s.err := rfl
@[simp] theorem State.memWrite_ie (a : Nat) (bs : List Byte) : (s.memWrite a bs).ie = s.ie := rfl
@[simp] theorem State.memWrite_mlen (a : Nat) (bs : List Byte) : (s.memWrite a bs).mlen = s.mlen := rfl
@[simp] theorem State.memWrite_msg (a : Nat) (bs : List Byte) : (s.memWrite a bs).msg = memStoreBytes s.msg a bs := rfl
@[simp] theorem State.memWrite_msgMax (a : Nat) (bs : List Byte) : (s.memWrite a bs).msgMax = s.msgMax := rfl
@[simp] theorem State.memWrite_agenda (a : Nat) (bs : List Byte) : (s.memWrite a bs).agenda = s.agenda := rfl
@[simp] theorem State.memWrite_replies (a : Nat) (bs : List Byte) : (s.memWrite a bs).replies = s.replies := rfl
@[simp] theorem State.memWrite_reg (a : Nat) (bs : List Byte) (j : Reg) : (s.memWrite a bs).reg j = s.reg j := rfl

@[simp] theorem State.setMlen_regs (n : BitVec 16) : (s.setMlen n).regs = s.regs := rfl
@[simp] theorem State.setMlen_cmd (n : BitVec 16) : (s.setMlen n).cmd = s.cmd := rfl
@[simp] theorem State.setMlen_busy (n : BitVec 16) : (s.setMlen n).busy = s.busy := rfl
@[simp] theorem State.setMlen_done (n : BitVec 16) : (s.setMlen n).done = s.done := rfl
@[simp] theorem State.setMlen_flag (n : BitVec 16) : (s.setMlen n).flag = s.flag := rfl
@[simp] theorem State.setMlen_bwe (n : BitVec 16) : (s.setMlen n).bwe = s.bwe := rfl
@[simp] theorem State.setMlen_err (n : BitVec 16) : (s.setMlen n).err = s.err := rfl
@[simp] theorem State.setMlen_ie (n : BitVec 16) : (s.setMlen n).ie = s.ie := rfl
@[simp] theorem State.setMlen_mlen (n : BitVec 16) : (s.setMlen n).mlen = n := rfl
@[simp] theorem State.setMlen_msg (n : BitVec 16) : (s.setMlen n).msg = s.msg := rfl
@[simp] theorem State.setMlen_msgMax (n : BitVec 16) : (s.setMlen n).msgMax = s.msgMax := rfl
@[simp] theorem State.setMlen_agenda (n : BitVec 16) : (s.setMlen n).agenda = s.agenda := rfl
@[simp] theorem State.setMlen_replies (n : BitVec 16) : (s.setMlen n).replies = s.replies := rfl
@[simp] theorem State.setMlen_reg (n : BitVec 16) (j : Reg) : (s.setMlen n).reg j = s.reg j := rfl
@[simp] theorem State.setMlen_msgByte (n : BitVec 16) (a : Nat) : (s.setMlen n).msgByte a = s.msgByte a := rfl

@[simp] theorem State.clearRegs_regs : s.clearRegs.regs = Vector.replicate 16 0#256 := rfl
@[simp] theorem State.clearRegs_cmd : s.clearRegs.cmd = s.cmd := rfl
@[simp] theorem State.clearRegs_busy : s.clearRegs.busy = s.busy := rfl
@[simp] theorem State.clearRegs_done : s.clearRegs.done = s.done := rfl
@[simp] theorem State.clearRegs_flag : s.clearRegs.flag = s.flag := rfl
@[simp] theorem State.clearRegs_bwe : s.clearRegs.bwe = s.bwe := rfl
@[simp] theorem State.clearRegs_err : s.clearRegs.err = s.err := rfl
@[simp] theorem State.clearRegs_ie : s.clearRegs.ie = s.ie := rfl
@[simp] theorem State.clearRegs_mlen : s.clearRegs.mlen = s.mlen := rfl
@[simp] theorem State.clearRegs_msg : s.clearRegs.msg = s.msg := rfl
@[simp] theorem State.clearRegs_msgMax : s.clearRegs.msgMax = s.msgMax := rfl
@[simp] theorem State.clearRegs_agenda : s.clearRegs.agenda = s.agenda := rfl
@[simp] theorem State.clearRegs_replies : s.clearRegs.replies = s.replies := rfl
@[simp] theorem State.clearRegs_msgByte (a : Nat) : s.clearRegs.msgByte a = s.msgByte a := rfl

@[simp] theorem State.clearMsg_regs : s.clearMsg.regs = s.regs := rfl
@[simp] theorem State.clearMsg_cmd : s.clearMsg.cmd = s.cmd := rfl
@[simp] theorem State.clearMsg_busy : s.clearMsg.busy = s.busy := rfl
@[simp] theorem State.clearMsg_done : s.clearMsg.done = s.done := rfl
@[simp] theorem State.clearMsg_flag : s.clearMsg.flag = s.flag := rfl
@[simp] theorem State.clearMsg_bwe : s.clearMsg.bwe = s.bwe := rfl
@[simp] theorem State.clearMsg_err : s.clearMsg.err = s.err := rfl
@[simp] theorem State.clearMsg_ie : s.clearMsg.ie = s.ie := rfl
@[simp] theorem State.clearMsg_mlen : s.clearMsg.mlen = s.mlen := rfl
@[simp] theorem State.clearMsg_msg : s.clearMsg.msg = [] := rfl
@[simp] theorem State.clearMsg_msgMax : s.clearMsg.msgMax = s.msgMax := rfl
@[simp] theorem State.clearMsg_agenda : s.clearMsg.agenda = s.agenda := rfl
@[simp] theorem State.clearMsg_replies : s.clearMsg.replies = s.replies := rfl
@[simp] theorem State.clearMsg_reg (j : Reg) : s.clearMsg.reg j = s.reg j := rfl

@[simp] theorem State.issue_regs (w : BitVec 32) : (s.issue w).regs = s.regs := rfl
@[simp] theorem State.issue_cmd (w : BitVec 32) : (s.issue w).cmd = w := rfl
@[simp] theorem State.issue_busy (w : BitVec 32) : (s.issue w).busy = true := rfl
@[simp] theorem State.issue_done (w : BitVec 32) : (s.issue w).done = false := rfl
@[simp] theorem State.issue_flag (w : BitVec 32) : (s.issue w).flag = false := rfl
@[simp] theorem State.issue_bwe (w : BitVec 32) : (s.issue w).bwe = s.bwe := rfl
@[simp] theorem State.issue_err (w : BitVec 32) : (s.issue w).err = .none := rfl
@[simp] theorem State.issue_ie (w : BitVec 32) : (s.issue w).ie = s.ie := rfl
@[simp] theorem State.issue_mlen (w : BitVec 32) : (s.issue w).mlen = s.mlen := rfl
@[simp] theorem State.issue_msg (w : BitVec 32) : (s.issue w).msg = s.msg := rfl
@[simp] theorem State.issue_msgMax (w : BitVec 32) : (s.issue w).msgMax = s.msgMax := rfl
@[simp] theorem State.issue_agenda (w : BitVec 32) : (s.issue w).agenda = s.agenda := rfl
@[simp] theorem State.issue_replies (w : BitVec 32) : (s.issue w).replies = s.replies := rfl
@[simp] theorem State.issue_reg (w : BitVec 32) (j : Reg) : (s.issue w).reg j = s.reg j := rfl
@[simp] theorem State.issue_msgByte (w : BitVec 32) (a : Nat) : (s.issue w).msgByte a = s.msgByte a := rfl

@[simp] theorem State.ackDone_regs : s.ackDone.regs = s.regs := rfl
@[simp] theorem State.ackDone_cmd : s.ackDone.cmd = s.cmd := rfl
@[simp] theorem State.ackDone_busy : s.ackDone.busy = s.busy := rfl
@[simp] theorem State.ackDone_done : s.ackDone.done = false := rfl
@[simp] theorem State.ackDone_flag : s.ackDone.flag = s.flag := rfl
@[simp] theorem State.ackDone_bwe : s.ackDone.bwe = s.bwe := rfl
@[simp] theorem State.ackDone_err : s.ackDone.err = s.err := rfl
@[simp] theorem State.ackDone_ie : s.ackDone.ie = s.ie := rfl
@[simp] theorem State.ackDone_mlen : s.ackDone.mlen = s.mlen := rfl
@[simp] theorem State.ackDone_msg : s.ackDone.msg = s.msg := rfl
@[simp] theorem State.ackDone_msgMax : s.ackDone.msgMax = s.msgMax := rfl
@[simp] theorem State.ackDone_agenda : s.ackDone.agenda = s.agenda := rfl
@[simp] theorem State.ackDone_replies : s.ackDone.replies = s.replies := rfl
@[simp] theorem State.ackDone_reg (j : Reg) : s.ackDone.reg j = s.reg j := rfl
@[simp] theorem State.ackDone_msgByte (a : Nat) : s.ackDone.msgByte a = s.msgByte a := rfl

@[simp] theorem State.clearBwe_regs : s.clearBwe.regs = s.regs := rfl
@[simp] theorem State.clearBwe_cmd : s.clearBwe.cmd = s.cmd := rfl
@[simp] theorem State.clearBwe_busy : s.clearBwe.busy = s.busy := rfl
@[simp] theorem State.clearBwe_done : s.clearBwe.done = s.done := rfl
@[simp] theorem State.clearBwe_flag : s.clearBwe.flag = s.flag := rfl
@[simp] theorem State.clearBwe_bwe : s.clearBwe.bwe = false := rfl
@[simp] theorem State.clearBwe_err : s.clearBwe.err = s.err := rfl
@[simp] theorem State.clearBwe_ie : s.clearBwe.ie = s.ie := rfl
@[simp] theorem State.clearBwe_mlen : s.clearBwe.mlen = s.mlen := rfl
@[simp] theorem State.clearBwe_msg : s.clearBwe.msg = s.msg := rfl
@[simp] theorem State.clearBwe_msgMax : s.clearBwe.msgMax = s.msgMax := rfl
@[simp] theorem State.clearBwe_agenda : s.clearBwe.agenda = s.agenda := rfl
@[simp] theorem State.clearBwe_replies : s.clearBwe.replies = s.replies := rfl
@[simp] theorem State.clearBwe_reg (j : Reg) : s.clearBwe.reg j = s.reg j := rfl
@[simp] theorem State.clearBwe_msgByte (a : Nat) : s.clearBwe.msgByte a = s.msgByte a := rfl

@[simp] theorem State.dropWrite_regs : s.dropWrite.regs = s.regs := rfl
@[simp] theorem State.dropWrite_cmd : s.dropWrite.cmd = s.cmd := rfl
@[simp] theorem State.dropWrite_busy : s.dropWrite.busy = s.busy := rfl
@[simp] theorem State.dropWrite_done : s.dropWrite.done = s.done := rfl
@[simp] theorem State.dropWrite_flag : s.dropWrite.flag = s.flag := rfl
@[simp] theorem State.dropWrite_bwe : s.dropWrite.bwe = true := rfl
@[simp] theorem State.dropWrite_err : s.dropWrite.err = s.err := rfl
@[simp] theorem State.dropWrite_ie : s.dropWrite.ie = s.ie := rfl
@[simp] theorem State.dropWrite_mlen : s.dropWrite.mlen = s.mlen := rfl
@[simp] theorem State.dropWrite_msg : s.dropWrite.msg = s.msg := rfl
@[simp] theorem State.dropWrite_msgMax : s.dropWrite.msgMax = s.msgMax := rfl
@[simp] theorem State.dropWrite_agenda : s.dropWrite.agenda = s.agenda := rfl
@[simp] theorem State.dropWrite_replies : s.dropWrite.replies = s.replies := rfl
@[simp] theorem State.dropWrite_reg (j : Reg) : s.dropWrite.reg j = s.reg j := rfl
@[simp] theorem State.dropWrite_msgByte (a : Nat) : s.dropWrite.msgByte a = s.msgByte a := rfl

@[simp] theorem State.popAction_regs : s.popAction.regs = s.regs := rfl
@[simp] theorem State.popAction_cmd : s.popAction.cmd = s.cmd := rfl
@[simp] theorem State.popAction_busy : s.popAction.busy = s.busy := rfl
@[simp] theorem State.popAction_done : s.popAction.done = s.done := rfl
@[simp] theorem State.popAction_flag : s.popAction.flag = s.flag := rfl
@[simp] theorem State.popAction_bwe : s.popAction.bwe = s.bwe := rfl
@[simp] theorem State.popAction_err : s.popAction.err = s.err := rfl
@[simp] theorem State.popAction_ie : s.popAction.ie = s.ie := rfl
@[simp] theorem State.popAction_mlen : s.popAction.mlen = s.mlen := rfl
@[simp] theorem State.popAction_msg : s.popAction.msg = s.msg := rfl
@[simp] theorem State.popAction_msgMax : s.popAction.msgMax = s.msgMax := rfl
@[simp] theorem State.popAction_agenda : s.popAction.agenda = s.agenda.tail := rfl
@[simp] theorem State.popAction_replies : s.popAction.replies = s.replies := rfl
@[simp] theorem State.popAction_reg (j : Reg) : s.popAction.reg j = s.reg j := rfl
@[simp] theorem State.popAction_msgByte (a : Nat) : s.popAction.msgByte a = s.msgByte a := rfl

@[simp] theorem State.note_regs (r : BusReply) : (s.note r).regs = s.regs := rfl
@[simp] theorem State.note_cmd (r : BusReply) : (s.note r).cmd = s.cmd := rfl
@[simp] theorem State.note_busy (r : BusReply) : (s.note r).busy = s.busy := rfl
@[simp] theorem State.note_done (r : BusReply) : (s.note r).done = s.done := rfl
@[simp] theorem State.note_flag (r : BusReply) : (s.note r).flag = s.flag := rfl
@[simp] theorem State.note_bwe (r : BusReply) : (s.note r).bwe = s.bwe := rfl
@[simp] theorem State.note_err (r : BusReply) : (s.note r).err = s.err := rfl
@[simp] theorem State.note_ie (r : BusReply) : (s.note r).ie = s.ie := rfl
@[simp] theorem State.note_mlen (r : BusReply) : (s.note r).mlen = s.mlen := rfl
@[simp] theorem State.note_msg (r : BusReply) : (s.note r).msg = s.msg := rfl
@[simp] theorem State.note_msgMax (r : BusReply) : (s.note r).msgMax = s.msgMax := rfl
@[simp] theorem State.note_agenda (r : BusReply) : (s.note r).agenda = s.agenda := rfl
@[simp] theorem State.note_replies (r : BusReply) : (s.note r).replies = r :: s.replies := rfl
@[simp] theorem State.note_reg (r : BusReply) (j : Reg) : (s.note r).reg j = s.reg j := rfl
@[simp] theorem State.note_msgByte (r : BusReply) (a : Nat) : (s.note r).msgByte a = s.msgByte a := rfl

@[simp] theorem State.clearRegs_reg (j : Reg) : s.clearRegs.reg j = 0#256 := by
  simp [State.reg, State.clearRegs]

@[simp] theorem State.clearMsg_msgByte (a : Nat) : s.clearMsg.msgByte a = 0#8 := rfl

/-- A register write is seen in that register and no other (R16, R20). -/
theorem State.setReg_reg (i : Reg) (v : Word) (j : Reg) : (s.setReg i v).reg j = if j = i then v else s.reg j := by
  simp only [State.reg, State.setReg, Fin.getElem_fin, Vector.getElem_set]
  by_cases h : j = i
  · subst h; simp
  · rw [if_neg (fun h2 => h (Fin.ext h2.symm)), if_neg h]

@[simp] theorem State.setReg_reg_self (i : Reg) (v : Word) : (s.setReg i v).reg i = v := by
  rw [State.setReg_reg, if_pos rfl]

theorem State.setReg_reg_of_ne {i j : Reg} (v : Word) (h : j ≠ i) : (s.setReg i v).reg j = s.reg j := by
  rw [State.setReg_reg, if_neg h]

/-- States with the same registers read alike have the same register file. -/
theorem State.regs_ext {s t : State} (h : ∀ j, s.reg j = t.reg j) : s.regs = t.regs := by
  apply Vector.ext
  intro i hi
  exact h ⟨i, hi⟩

end Sys2Proof.Machine
end

