-- ==== Sys2Proof/Laws/Memory.lean ====
section
/-! SUPPORT. The message memory: a read after a write, and the canonical form that every operation keeps (spec/10_state.md R23; spec/00_scope.md R16). -/

namespace Sys2Proof.Machine

theorem memByte_memInsert (m : Memory) (a : Nat) (v : Byte) (c : Nat) :
    memByte (memInsert m a v) c = if c = a then v else memByte m c := by
  induction m with
  | nil => simp [memInsert, memByte]
  | cons x rest ih =>
    obtain ⟨b, w⟩ := x
    simp only [memInsert]
    split
    · simp [memByte]
    · split
      · rename_i h; subst h; simp only [memByte]; split <;> simp_all
      · rename_i h
        simp only [memByte, ih]
        by_cases hc : c = b
        · subst hc; simp [Ne.symm h]
        · simp [hc]

theorem memByte_memErase (m : Memory) (a : Nat) (c : Nat) :
    memByte (memErase m a) c = if c = a then memDefault else memByte m c := by
  induction m with
  | nil => simp [memErase, memByte]
  | cons x rest ih =>
    obtain ⟨b, w⟩ := x
    simp only [memErase]
    split
    · rename_i h; subst h; rw [ih]; simp only [memByte]; split <;> simp_all
    · rename_i h
      simp only [memByte, ih]
      by_cases hc : c = b
      · subst hc; simp [Ne.symm h]
      · simp [hc]

/-- A byte stored is read back, and no other byte changes. -/
theorem memByte_memStore (m : Memory) (a : Nat) (v : Byte) (c : Nat) :
    memByte (memStore m a v) c = if c = a then v else memByte m c := by
  unfold memStore
  split
  · rename_i h; rw [memByte_memErase, h]
  · exact memByte_memInsert m a v c

/-- A byte string stored is read back, and no other byte changes. -/
theorem memByte_memStoreBytes (m : Memory) (a : Nat) (bs : List Byte) (c : Nat) :
    memByte (memStoreBytes m a bs) c = if h : a ≤ c ∧ c < a + bs.length then bs[c - a] else memByte m c := by
  induction bs generalizing m a with
  | nil => simp only [memStoreBytes, List.length_nil]; rw [dif_neg (by omega)]
  | cons b rest ih =>
    rw [memStoreBytes, ih]
    by_cases h1 : a + 1 ≤ c ∧ c < a + 1 + rest.length
    · rw [dif_pos h1, dif_pos (by simp only [List.length_cons]; omega)]
      obtain ⟨k, hk⟩ : ∃ k, c - a = k + 1 := ⟨c - a - 1, by omega⟩
      simp only [hk, List.getElem_cons_succ]
      congr 1; omega
    · rw [dif_neg h1, memByte_memStore]
      by_cases h2 : c = a
      · subst h2
        rw [if_pos rfl, dif_pos (by simp)]
        simp
      · rw [if_neg h2, dif_neg (by simp only [List.length_cons]; omega)]

/-- Every index of a list is above a bound. -/
def memAbove (n : Nat) (m : Memory) : Prop := ∀ c ∈ m, n < c.1

theorem memRising_cons (c : Host.Cell) (m : Memory) : memRising (c :: m) = true ↔ memAbove c.1 m ∧ memRising m = true := by
  induction m generalizing c with
  | nil => simp [memRising, memAbove]
  | cons d rest ih =>
    obtain ⟨a, v⟩ := c; obtain ⟨b, w⟩ := d
    rw [memRising, Bool.and_eq_true, decide_eq_true_eq]
    constructor
    · rintro ⟨h1, h2⟩
      refine ⟨?_, h2⟩
      have h3 := ((ih (b, w)).1 h2).1
      intro e he
      rcases List.mem_cons.1 he with rfl | he
      · exact h1
      · exact h1.trans (h3 e he)
    · rintro ⟨h1, h2⟩
      exact ⟨h1 _ (List.mem_cons_self ..), h2⟩

theorem mem_memErase {m : Memory} {a : Nat} {c : Host.Cell} (h : c ∈ memErase m a) : c ∈ m := by
  induction m with
  | nil => exact h
  | cons x rest ih =>
    obtain ⟨b, w⟩ := x
    simp only [memErase] at h
    split at h
    · exact List.mem_cons_of_mem _ (ih h)
    · rcases List.mem_cons.1 h with h | h
      · exact h ▸ List.mem_cons_self ..
      · exact List.mem_cons_of_mem _ (ih h)

theorem mem_memInsert {m : Memory} {a : Nat} {v : Byte} {c : Host.Cell} (h : c ∈ memInsert m a v) : c = (a, v) ∨ c ∈ m := by
  induction m with
  | nil => simpa [memInsert] using h
  | cons x rest ih =>
    obtain ⟨b, w⟩ := x
    simp only [memInsert] at h
    split at h
    · exact List.mem_cons.1 h
    · split at h
      · rcases List.mem_cons.1 h with h | h
        · exact .inl h
        · exact .inr (List.mem_cons_of_mem _ h)
      · rcases List.mem_cons.1 h with h | h
        · exact .inr (h ▸ List.mem_cons_self ..)
        · exact (ih h).imp_right (List.mem_cons_of_mem _)

theorem memRising_memErase {m : Memory} (a : Nat) (h : memRising m = true) : memRising (memErase m a) = true := by
  induction m with
  | nil => rfl
  | cons x rest ih =>
    obtain ⟨b, w⟩ := x
    obtain ⟨h1, h2⟩ := (memRising_cons _ _).1 h
    simp only [memErase]
    split
    · exact ih h2
    · exact (memRising_cons _ _).2 ⟨fun c hc => h1 c (mem_memErase hc), ih h2⟩

theorem memRising_memInsert {m : Memory} (a : Nat) (v : Byte) (h : memRising m = true) : memRising (memInsert m a v) = true := by
  induction m with
  | nil => rfl
  | cons x rest ih =>
    obtain ⟨b, w⟩ := x
    obtain ⟨h1, h2⟩ := (memRising_cons _ _).1 h
    simp only [memInsert]
    split
    · rename_i hab
      refine (memRising_cons _ _).2 ⟨fun c hc => ?_, h⟩
      rcases List.mem_cons.1 hc with rfl | hc
      · exact hab
      · exact hab.trans (h1 c hc)
    · split
      · rename_i hab
        subst hab
        exact (memRising_cons _ _).2 ⟨h1, h2⟩
      · refine (memRising_cons _ _).2 ⟨fun c hc => ?_, ih h2⟩
        rcases mem_memInsert hc with rfl | hc
        · dsimp only; omega
        · exact h1 c hc

theorem Memory.wf_iff (size : Nat) (m : Memory) :
    Memory.wf size m = true ↔ memRising m = true ∧ ∀ c ∈ m, c.1 < size ∧ c.2 ≠ memDefault := by
  simp only [Memory.wf, Bool.and_eq_true, List.all_eq_true, decide_eq_true_eq]

/-- Storing a byte inside the memory keeps the canonical form. -/
theorem Memory.wf_memStore {size : Nat} {m : Memory} {a : Nat} (v : Byte) (h : Memory.wf size m = true) (ha : a < size) :
    Memory.wf size (memStore m a v) = true := by
  rw [Memory.wf_iff] at *
  unfold memStore
  split
  · exact ⟨memRising_memErase a h.1, fun c hc => h.2 c (mem_memErase hc)⟩
  · rename_i hv
    refine ⟨memRising_memInsert a v h.1, fun c hc => ?_⟩
    rcases mem_memInsert hc with rfl | hc
    · exact ⟨ha, hv⟩
    · exact h.2 c hc

/-- Storing a byte string inside the memory keeps the canonical form. -/
theorem Memory.wf_memStoreBytes {size : Nat} {m : Memory} {a : Nat} {bs : List Byte} (h : Memory.wf size m = true)
    (ha : a + bs.length ≤ size) : Memory.wf size (memStoreBytes m a bs) = true := by
  induction bs generalizing m a with
  | nil => exact h
  | cons b rest ih =>
    simp only [List.length_cons] at ha
    exact ih (Memory.wf_memStore b h (by omega)) (by omega)

/-- What a reset event gives `MSG` keeps the canonical form (R251). -/
theorem Memory.wf_memTake {size : Nat} {m : Memory} (bytes : Memory) (h : Memory.wf size m = true) :
    Memory.wf size (memTake size m bytes) = true := by
  induction bytes generalizing m with
  | nil => exact h
  | cons x rest ih =>
    obtain ⟨a, v⟩ := x
    rw [memTake]
    split
    · rename_i ha; exact ih (Memory.wf_memStore v h ha)
    · exact ih h

theorem Memory.wf_nil (size : Nat) : Memory.wf size [] = true := rfl

/-- An index below every listed one reads as an unlisted one does. -/
theorem memByte_of_above {n : Nat} {m : Memory} (h : memAbove n m) : memByte m n = memDefault := by
  induction m with
  | nil => rfl
  | cons x rest ih =>
    obtain ⟨b, w⟩ := x
    have h1 := h (b, w) (List.mem_cons_self ..)
    dsimp only at h1
    rw [memByte, if_neg (by omega)]
    exact ih fun c hc => h c (List.mem_cons_of_mem _ hc)

@[simp] theorem length_bytesOf (n : Nat) {w : Nat} (v : BitVec w) : (bytesOf n v).length = n := by simp [bytesOf]

@[simp] theorem length_memBytes (m : Memory) (a n : Nat) : (memBytes m a n).length = n := by simp [memBytes]

/-- Memories that read alike give the same byte strings. -/
theorem memBytes_congr {m m' : Memory} {a n : Nat} (h : ∀ k, k < n → memByte m (a + k) = memByte m' (a + k)) :
    memBytes m a n = memBytes m' a n := by
  apply List.map_congr_left
  intro k hk
  exact h k (List.mem_range.1 hk)

theorem leBytes_lt (bs : List Byte) : leBytes bs < 256 ^ bs.length := by
  induction bs with
  | nil => simp [leBytes]
  | cons b rest ih =>
    have := b.isLt
    rw [leBytes, List.length_cons, pow_succ]
    omega

/-- `le(bytes_n(v)) = v mod 256^n` (R15). -/
theorem leBytes_bytesOf (n : Nat) {w : Nat} (v : BitVec w) : leBytes (bytesOf n v) = v.toNat % 256 ^ n := by
  have key : ∀ n j, leBytes ((List.range n).map fun k => v.extractLsb' (8 * (j + k)) 8) = v.toNat / 256 ^ j % 256 ^ n := by
    intro n
    induction n with
    | zero => intro j; simp [leBytes, Nat.mod_one]
    | succ n ih =>
      intro j
      rw [List.range_succ_eq_map, List.map_cons, List.map_map, leBytes]
      have e : ((fun k => v.extractLsb' (8 * (j + k)) 8) ∘ Nat.succ) = fun k => v.extractLsb' (8 * (j + 1 + k)) 8 := by
        funext k; simp only [Function.comp]; congr 2; omega
      rw [e, ih (j + 1), BitVec.extractLsb'_toNat, Nat.shiftRight_eq_div_pow, Nat.add_zero, pow_mul,
        show (2 : Nat) ^ 8 = 256 from rfl, pow_succ 256 j, ← Nat.div_div_eq_div_mul, pow_succ, mul_comm (256 ^ n) 256,
        Nat.mod_mul]
  have := key n 0
  simpa [bytesOf] using this

/-- A byte that a reset's list does not name is kept (R251). -/
theorem memByte_memTake_of_notMem {size : Nat} {bytes : Memory} {a : Nat} (h : ∀ v, (a, v) ∉ bytes) (m : Memory) :
    memByte (memTake size m bytes) a = memByte m a := by
  induction bytes generalizing m with
  | nil => rfl
  | cons c r ih =>
    obtain ⟨b, v⟩ := c
    rw [memTake, ih (fun v hv => h v (List.mem_cons_of_mem _ hv))]
    split
    · rw [memByte_memStore, if_neg]; rintro rfl; exact h v (List.mem_cons_self)
    · rfl

/-- A list of bytes for some indices gives these indices those bytes (R251). -/
theorem memByte_memTake_map (f : Nat → Byte) {size a : Nat} (l : List Nat) (m : Memory) (hl : ∀ k ∈ l, k < size) (ha : a ∈ l) :
    memByte (memTake size m (l.map fun k => (k, f k))) a = f a := by
  induction l generalizing m with
  | nil => cases ha
  | cons x r ih =>
    rw [List.map_cons, memTake, if_pos (hl x (List.mem_cons_self))]
    by_cases hr : a ∈ r
    · exact ih _ (fun k hk => hl k (List.mem_cons_of_mem _ hk)) hr
    · rcases List.mem_cons.1 ha with rfl | h
      · rw [memByte_memTake_of_notMem, memByte_memStore, if_pos rfl]
        intro v hv
        rw [List.mem_map] at hv
        obtain ⟨k, hk, e⟩ := hv
        cases e; exact hr hk
      · exact absurd h hr

end Sys2Proof.Machine
end

