-- ==== Sys2Proof/Laws/Ops.lean ====
section
/-! SUPPORT. What each shared operation can do, once: the ends of a command, the register and pair writes, the rejections, the checks. -/

-- One theorem at a time: each evaluation in the kernel waits for the theorems before it, and would hold a thread while it waits.
set_option Elab.async false

namespace Sys2Proof.Machine

theorem SameRegs.refl (rs : List Reg) (s : State) : SameRegs rs s s := fun _ _ => rfl
theorem SameBytes.refl (s : State) : SameBytes s s := fun _ => rfl
theorem SameControl.refl (s : State) : SameControl s s := ⟨rfl, rfl, rfl, rfl, rfl, rfl, rfl⟩

theorem pairHigh_ne (n : Reg) : pairHigh n ≠ n := by revert n; decide

theorem pairHigh_val {n : Reg} (h : n.isPair = true) : (pairHigh n).val = n.val + 1 := by revert n; decide

/-- Two pairs are the same or have no register in common. -/
theorem pair_disjoint (m n : Reg) (hm : m.isPair = true) (hn : n.isPair = true) (h : m ≠ n) :
    m ∉ [n, pairHigh n] ∧ pairHigh m ∉ [n, pairHigh n] := by
  revert m n; decide

/-- The end of a command whose effect so far is `u` (R83). -/
theorem finish_spec {rs : List Reg} {s u : State} (v : Bool) (hr : SameRegs rs s u) (hb : SameBytes s u) (hm : u.mlen = s.mlen)
    (hc : SameControl s u) : ∃ t, finish v u = .next t ∧ WritesOnly rs v s t ∧ ∀ j, t.reg j = u.reg j :=
  ⟨_, rfl, ⟨hr, hb, hm, ⟨hc.cmd, hc.bwe, hc.err, hc.ie, hc.msgMax, hc.agenda, hc.replies⟩, ⟨rfl, rfl, rfl⟩⟩, fun _ => rfl⟩

/-- A command that writes nothing but `FLAG`. -/
theorem finish_flag (v : Bool) (s : State) : ∃ t, finish v s = .next t ∧ WritesOnly [] v s t := by
  obtain ⟨t, h1, h2, _⟩ := finish_spec v (SameRegs.refl [] s) (SameBytes.refl s) rfl (SameControl.refl s)
  exact ⟨t, h1, h2⟩

/-- A command that writes one register. -/
theorem finish_setReg (v : Bool) (s : State) (rd : Reg) (w : Word) :
    ∃ t, finish v (s.setReg rd w) = .next t ∧ WritesOnly [rd] v s t ∧ t.reg rd = w := by
  obtain ⟨t, h1, h2, h3⟩ := finish_spec (rs := [rd]) (s := s) (u := s.setReg rd w) v
    (fun j hj => State.setReg_reg_of_ne s w (by simpa using hj)) (fun _ => rfl) rfl ⟨rfl, rfl, rfl, rfl, rfl, rfl, rfl⟩
  exact ⟨t, h1, h2, by rw [h3, State.setReg_reg_self]⟩

/-- A command that writes two registers, the second last. -/
theorem finish_setReg_setReg (v : Bool) (s : State) (a b : Reg) (x y : Word) :
    ∃ t, finish v ((s.setReg a x).setReg b y) = .next t ∧ WritesOnly [a, b] v s t ∧
      t.reg b = y ∧ (a ≠ b → t.reg a = x) := by
  obtain ⟨t, h1, h2, h3⟩ := finish_spec (rs := [a, b]) (s := s) (u := (s.setReg a x).setReg b y) v
    (fun j hj => by
      simp only [List.mem_cons, List.not_mem_nil, or_false, not_or] at hj
      rw [State.setReg_reg_of_ne _ _ hj.2, State.setReg_reg_of_ne _ _ hj.1])
    (fun _ => rfl) rfl ⟨rfl, rfl, rfl, rfl, rfl, rfl, rfl⟩
  refine ⟨t, h1, h2, by rw [h3, State.setReg_reg_self], fun hab => ?_⟩
  rw [h3, State.setReg_reg_of_ne _ _ hab, State.setReg_reg_self]

/-- A command that writes a pair (R16, R22). -/
theorem finish_setPair (v : Bool) (s : State) (n : Reg) (w : DWord) :
    ∃ t, finish v (s.setPair n w) = .next t ∧ WritesOnly [n, pairHigh n] v s t ∧
      t.reg n = lowHalf w ∧ t.reg (pairHigh n) = highHalf w := by
  obtain ⟨t, h1, h2, h3, h4⟩ := finish_setReg_setReg v s n (pairHigh n) (lowHalf w) (highHalf w)
  exact ⟨t, h1, h2, h4 (pairHigh_ne n).symm, h3⟩

/-- `raise Error(e)` changes these four fields and nothing else (R225). -/
theorem raiseError_spec (e : ErrCode) (s : State) : ∃ t, raiseError e s = .next t ∧ Raises e s t :=
  ⟨_, rfl, ⟨rfl, ⟨rfl, rfl, rfl⟩, fun _ _ => rfl, fun _ => rfl, rfl, rfl, rfl, rfl, rfl⟩⟩

theorem checkMlen_of_bad {bad : Bool} (h : bad = true) (s : State) (go : Result) : checkMlen bad s go = raiseError .mlen s := if_pos h

theorem checkMlen_of_ok {bad : Bool} (h : bad = false) (s : State) (go : Result) : checkMlen bad s go = go := by
  rw [checkMlen, h]; rfl

theorem messageTooLong_iff (s : State) : s.messageTooLong = true ↔ s.mlen.toNat > s.msgMax.toNat := decide_eq_true_iff

theorem messageTooLong_false_iff (s : State) : s.messageTooLong = false ↔ s.mlen.toNat ≤ s.msgMax.toNat :=
  decide_eq_false_iff_not.trans Nat.not_lt

theorem noRoomForSignature_iff (s : State) : s.noRoomForSignature = true ↔ s.mlen.toNat + 64 > s.msgMax.toNat :=
  decide_eq_true_iff

theorem noRoomForSignature_false_iff (s : State) : s.noRoomForSignature = false ↔ s.mlen.toNat + 64 ≤ s.msgMax.toNat :=
  decide_eq_false_iff_not.trans Nat.not_lt

theorem finishPoint_none (s : State) : finishPoint s none = finish false s := rfl
theorem finishPoint_some (s t : State) : finishPoint s (some t) = finish true t := rfl

/-- The two ends of a point command that writes one register. -/
theorem finishPoint_spec (s : State) (rd : Reg) (o : Option Word) :
    ∃ t, finishPoint s (o.map fun w => s.setReg rd w) = .next t ∧
      (o = none → WritesOnly [] false s t) ∧ (∀ w, o = some w → WritesOnly [rd] true s t ∧ t.reg rd = w) := by
  cases o with
  | none =>
    obtain ⟨t, h1, h2⟩ := finish_flag false s
    exact ⟨t, h1, fun _ => h2, fun w hw => by cases hw⟩
  | some w =>
    obtain ⟨t, h1, h2, h3⟩ := finish_setReg true s rd w
    exact ⟨t, h1, fun h => (by cases h), fun w' hw => by cases hw; exact ⟨h2, h3⟩⟩

/-- The halves of a 64-byte value put together again (R22). -/
theorem highHalf_append_lowHalf (v : DWord) : highHalf v ++ lowHalf v = v := by
  apply BitVec.eq_of_toNat_eq
  rw [BitVec.toNat_append, lowHalf, highHalf, BitVec.extractLsb'_toNat, BitVec.extractLsb'_toNat]
  have := v.isLt
  rw [← Nat.shiftLeft_add_eq_or_of_lt (Nat.mod_lt _ (by decide +kernel)), Nat.shiftRight_eq_div_pow, Nat.shiftRight_eq_div_pow,
    Nat.shiftLeft_eq]
  omega

theorem lowHalf_append (a b : Word) : lowHalf (a ++ b : DWord) = b := by
  apply BitVec.eq_of_toNat_eq
  rw [lowHalf, BitVec.extractLsb'_toNat, BitVec.toNat_append,
    ← Nat.shiftLeft_add_eq_or_of_lt b.isLt, Nat.shiftRight_eq_div_pow, Nat.shiftLeft_eq]
  have := b.isLt
  omega

theorem highHalf_append (a b : Word) : highHalf (a ++ b : DWord) = a := by
  apply BitVec.eq_of_toNat_eq
  rw [highHalf, BitVec.extractLsb'_toNat, BitVec.toNat_append,
    ← Nat.shiftLeft_add_eq_or_of_lt b.isLt, Nat.shiftRight_eq_div_pow, Nat.shiftLeft_eq]
  have := b.isLt
  have := a.isLt
  omega

/-- The number of a pair (R22, R123). -/
theorem wideOp_eq (s : State) (n : Reg) : s.wideOp n = (s.reg n).toNat + 2 ^ 256 * (s.reg (pairHigh n)).toNat := by
  rw [State.wideOp, State.pair, BitVec.toNat_append, ← Nat.shiftLeft_add_eq_or_of_lt (s.reg n).isLt, Nat.shiftLeft_eq]
  ring

end Sys2Proof.Machine
end

