-- ==== Sys2Proof/Laws/Window.lean ====
section
/-! SUPPORT. The register window as an array of bytes (spec/20_memory.md R52, R56). -/

namespace Sys2Proof.Machine

theorem extract_setWordByte (v : Word) {j i : Nat} (b : Byte) (hj : j < 32) (hi : i < 32) :
    (setWordByte v j b).extractLsb' (8 * i) 8 = if i = j then b else v.extractLsb' (8 * i) 8 := by
  apply BitVec.eq_of_getLsbD_eq
  intro k hk
  have h256 : 8 * i + k < 256 := by omega
  have hff : ∀ m (h : m < 256), (255#256)[m] = decide (m < 8) := by
    intro m h
    rw [show 255#256 = BitVec.ofNat 256 (2 ^ 8 - 1) from by decide, ← BitVec.getLsbD_eq_getElem, BitVec.getLsbD_ofNat,
      Nat.testBit_two_pow_sub_one]
    simp [h]
  by_cases hij : i = j
  · subst hij
    rw [if_pos rfl]
    simp [setWordByte, hk, h256, hff]
  · rw [if_neg hij]
    by_cases hlt : 8 * i + k < 8 * j
    · simp [setWordByte, hk, h256, hlt]
    · have h8 : ¬(8 * i + k - 8 * j < 8) := by omega
      have hb : b.getLsbD (8 * i + k - 8 * j) = false := BitVec.getLsbD_of_ge _ _ (by omega)
      simp [setWordByte, hk, h256, hlt, hff, h8, hb]

theorem ofNat16_val {k : Nat} (h : k < 512) : (Fin.ofNat 16 (k / 32) : Reg).val = k / 32 := by
  show k / 32 % 16 = k / 32
  omega

/-- A byte stored through the window is read back, and no other byte of the window changes. -/
theorem regByte_setRegByte (s : State) {k c : Nat} (b : Byte) (hk : k < 512) (hc : c < 512) :
    (s.setRegByte k b).regByte c = if c = k then b else s.regByte c := by
  unfold State.regByte State.setRegByte
  rw [State.setReg_reg]
  by_cases hreg : (Fin.ofNat 16 (c / 32) : Reg) = Fin.ofNat 16 (k / 32)
  · have h1 := congrArg Fin.val hreg
    rw [ofNat16_val hc, ofNat16_val hk] at h1
    rw [if_pos hreg, extract_setWordByte _ _ (Nat.mod_lt _ (by decide)) (Nat.mod_lt _ (by decide)), hreg]
    by_cases h2 : c = k
    · subst h2; rw [if_pos rfl, if_pos rfl]
    · rw [if_neg h2, if_neg (by omega)]
  · rw [if_neg hreg, if_neg]
    rintro rfl; exact hreg rfl

theorem regByte_setRegBytes (s : State) {k c : Nat} (bs : List Byte) (hk : k + bs.length ≤ 512) (hc : c < 512) :
    (s.setRegBytes k bs).regByte c = if h : k ≤ c ∧ c < k + bs.length then bs[c - k] else s.regByte c := by
  induction bs generalizing s k with
  | nil => simp only [State.setRegBytes, List.length_nil]; rw [dif_neg (by omega)]
  | cons b rest ih =>
    simp only [List.length_cons] at hk
    rw [State.setRegBytes, ih _ (by omega)]
    by_cases h1 : k + 1 ≤ c ∧ c < k + 1 + rest.length
    · rw [dif_pos h1, dif_pos (by simp only [List.length_cons]; omega)]
      obtain ⟨j, hj⟩ : ∃ j, c - k = j + 1 := ⟨c - k - 1, by omega⟩
      simp only [hj, List.getElem_cons_succ]
      congr 1; omega
    · rw [dif_neg h1, regByte_setRegByte _ _ (by omega) hc]
      by_cases h2 : c = k
      · subst h2; rw [if_pos rfl, dif_pos (by simp)]; simp
      · rw [if_neg h2, dif_neg (by simp only [List.length_cons]; omega)]

/-- Byte stores through the window touch nothing but the register file. -/
theorem setRegBytes_eq (s : State) (k : Nat) (bs : List Byte) : ∃ r, s.setRegBytes k bs = { s with regs := r } := by
  induction bs generalizing s k with
  | nil => exact ⟨s.regs, rfl⟩
  | cons b rest ih =>
    obtain ⟨r, hr⟩ := ih (s.setRegByte k b) (k + 1)
    exact ⟨r, hr⟩

/-- A register is its 32 bytes: registers that agree in every byte are equal. -/
theorem word_ext {v w : Word} (h : ∀ j, j < 32 → v.extractLsb' (8 * j) 8 = w.extractLsb' (8 * j) 8) : v = w := by
  apply BitVec.eq_of_getLsbD_eq
  intro i hi
  have h1 := congrArg (fun b => BitVec.getLsbD b (i % 8)) (h (i / 8) (by omega))
  simp only [BitVec.getLsbD_extractLsb'] at h1
  have h2 : i % 8 < 8 := Nat.mod_lt _ (by decide)
  have h3 : 8 * (i / 8) + i % 8 = i := Nat.div_add_mod i 8
  simpa [h2, h3] using h1

end Sys2Proof.Machine
end

