-- ==== Sys2Proof/Laws/Bus.lean ====
section
/-! SUPPORT. The bus and the two agents, once (spec/20_memory.md R50 to R60; spec/30_encoding.md R83): which access has a place, where the control registers are,
what an access does while the engine is busy, and what a step can do. -/

namespace Sys2Proof.Machine

/-- An access has no place exactly where the bus refuses it (R53, R55, R58). -/
theorem place_eq_none_iff (s : State) (addr : BitVec 16) (size : AccessSize) :
    s.place addr.toNat size.bytes = none ↔ ¬BusAccepts s.msgMax.toNat addr.toNat size.bytes := by
  unfold State.place BusAccepts State.msgSize
  generalize addr.toNat = a
  have hb : size.bytes = 1 ∨ size.bytes = 2 ∨ size.bytes = 4 := by cases size <;> simp [AccessSize.bytes]
  generalize size.bytes = n at hb
  by_cases h0 : a % n = 0
  · simp only [h0, ne_eq, not_true, if_false, true_and]
    by_cases h1 : a < 0x18
    · simp only [h1, if_true, true_and]
      by_cases h2 : n = 4
      · subst h2
        have : a = 0 ∨ a = 4 ∨ a = 8 ∨ a = 12 ∨ a = 16 ∨ a = 20 := by omega
        rcases this with rfl | rfl | rfl | rfl | rfl | rfl <;> simp [controlRegAt]
      · simp [h2]; omega
    · simp only [h1, if_false, false_and, false_or]
      split
      · simp_all
      · split
        · simp_all
        · simp; omega
  · simp [h0]

@[simp] theorem place_cmd (s : State) : s.place (0x0000#16).toNat AccessSize.word.bytes = some (.control .cmd) := rfl
@[simp] theorem place_status (s : State) : s.place (0x0004#16).toNat AccessSize.word.bytes = some (.control .status) := rfl
@[simp] theorem place_ctrl (s : State) : s.place (0x0008#16).toNat AccessSize.word.bytes = some (.control .ctrl) := rfl
@[simp] theorem place_mlen (s : State) : s.place (0x000C#16).toNat AccessSize.word.bytes = some (.control .mlen) := rfl
@[simp] theorem place_id (s : State) : s.place (0x0010#16).toNat AccessSize.word.bytes = some (.control .id) := rfl
@[simp] theorem place_cap (s : State) : s.place (0x0014#16).toNat AccessSize.word.bytes = some (.control .cap) := rfl

/-- The place of an aligned access inside the register window (R56). -/
theorem place_regs (s : State) {a n : Nat} (h0 : a % n = 0) (h1 : 0x200 ≤ a) (h2 : a + n ≤ 0x400) :
    s.place a n = some (.regs (a - 0x200)) := by
  rw [State.place, if_neg (by simp [h0]), if_neg (by omega), if_pos ⟨h1, h2⟩]

/-- The place of an aligned access inside the message window (R57). -/
theorem place_message (s : State) {a n : Nat} (h0 : a % n = 0) (h1 : 0x1000 ≤ a) (h2 : a + n ≤ 0x1000 + s.msgMax.toNat) :
    s.place a n = some (.message (a - 0x1000)) := by
  rw [State.place, if_neg (by simp [h0]), if_neg (by omega), if_neg (by omega), if_pos ⟨h1, h2⟩]

/-- What a place says of its access: the windows lie inside their regions. -/
theorem place_cases (s : State) {a n : Nat} {pl : Place} (h : s.place a n = some pl) :
    (∃ r, pl = .control r) ∨ (∃ k, pl = .regs k ∧ a = 0x200 + k ∧ k + n ≤ 512) ∨
    (∃ k, pl = .message k ∧ a = 0x1000 + k ∧ k + n ≤ s.msgMax.toNat) := by
  unfold State.place at h
  split at h
  · cases h
  · split at h
    · split at h
      · rw [Option.map_eq_some_iff] at h
        obtain ⟨r, _, hr⟩ := h
        exact .inl ⟨r, hr.symm⟩
      · cases h
    · split at h
      · cases h; exact .inr (.inl ⟨_, rfl, by omega, by omega⟩)
      · split at h
        · cases h
          rename_i h4
          exact .inr (.inr ⟨_, rfl, by omega, by have := h4.2; simp only [State.msgSize] at this; omega⟩)
        · cases h

/-- The place of an access depends on nothing but `MSG_MAX`. -/
theorem place_congr {s t : State} (h : t.msgMax = s.msgMax) (a n : Nat) : t.place a n = s.place a n := by
  unfold State.place State.msgSize; rw [h]

/-- A host write to a busy engine changes `DONE`, `BWE` and `IE` at most, and sets no `DONE` (R31, R32, R60). -/
theorem busWrite_busy {s : State} (hb : s.busy = true) (addr : BitVec 16) (size : AccessSize) (data : BitVec 32) :
    ∃ d b e, (d = true → s.done = true) ∧ s.busWrite addr size data = { s with done := d, bwe := b, ie := e } := by
  unfold State.busWrite
  split
  · exact ⟨_, _, _, id, rfl⟩
  · rename_i pl hpl
    clear hpl
    cases pl with
    | control r =>
      cases r
      · refine ⟨s.done, true, s.ie, id, ?_⟩
        simp [State.writePlace, State.writeControl, hb, State.dropWrite]
      · refine ⟨if data.getLsbD 1 then false else s.done, if data.getLsbD 3 then false else s.bwe, s.ie, ?_, ?_⟩
        · intro h; split at h
          · cases h
          · exact h
        · simp only [State.writePlace, State.writeControl, State.ackDone, State.clearBwe]
          split <;> split <;> rfl
      · exact ⟨_, _, _, id, rfl⟩
      · refine ⟨s.done, true, s.ie, id, ?_⟩
        simp [State.writePlace, State.writeControl, hb, State.dropWrite]
      · exact ⟨_, _, _, id, rfl⟩
      · exact ⟨_, _, _, id, rfl⟩
    | regs k =>
      refine ⟨s.done, true, s.ie, id, ?_⟩
      simp [State.writePlace, hb, State.dropWrite]
    | message k =>
      refine ⟨s.done, true, s.ie, id, ?_⟩
      simp [State.writePlace, hb, State.dropWrite]

/-- Every command answers a next state in which it has ended (R83). -/
theorem exec_next (i : Instr) (s : State) : ∃ t, exec i s = .next t ∧ t.busy = false ∧ t.done = true := by
  have hp : ∀ o, ∃ t, finishPoint s o = .next t ∧ t.busy = false ∧ t.done = true := by
    intro o; cases o <;> exact ⟨_, rfl, rfl, rfl⟩
  have hm : ∀ b v u, ∃ t, checkMlen b s (finish v u) = .next t ∧ t.busy = false ∧ t.done = true := by
    intro b v u; cases b <;> exact ⟨_, rfl, rfl, rfl⟩
  cases i
  case padd => exact hp _
  case pdbl => exact hp _
  case pdsmul => exact hp _
  case pdec => exact hp _
  case e2m => exact hp _
  case m2e => exact hp _
  case sign => exact hm _ _ _
  case signr => exact hm _ _ _
  case verify => exact hm _ _ _
  case signmsg => exact hm _ _ _
  case openmsg =>
    simp only [exec, execOpenmsg]
    split <;> exact hm _ _ _
  all_goals exact ⟨_, rfl, rfl, rfl⟩

/-- The completion of the word in `CMD` always answers a next state in which the command has ended (R83). -/
theorem complete_next (s : State) : ∃ t, complete s = .next t ∧ t.busy = false ∧ t.done = true := by
  unfold complete
  split
  · exact ⟨_, rfl, rfl, rfl⟩
  · exact exec_next _ s

theorem engineTurn_busy {s : State} (h : s.busy = true) : engineTurn s = complete s := if_pos h

theorem engineTurn_idle {s : State} (h : s.busy = false) : engineTurn s = .next s := by rw [engineTurn, h]; rfl

theorem step_nil {s : State} (h : s.agenda = []) : step s = engineTurn s := by simp only [step, nextTurn, h]

theorem step_cons {s : State} {a : HostAction} {rest : List HostAction} (h : s.agenda = a :: rest) :
    step s = hostTurn a s.popAction := by simp only [step, nextTurn, h]

/-- What a step can do: the engine's turn on `s`, or on `s` without the host's `wait`; an access; a reset. -/
theorem step_cases (s : State) :
    (s.agenda = [] ∧ step s = engineTurn s) ∨
    (∃ rest, s.agenda = .wait :: rest ∧ step s = engineTurn s.popAction) ∨
    (∃ addr size rest, s.agenda = .read addr size :: rest ∧
      step s = .next (s.popAction.note (s.popAction.busRead addr size))) ∨
    (∃ addr size data rest, s.agenda = .write addr size data :: rest ∧
      step s = .next ((s.popAction.busWrite addr size data).note (s.popAction.busWriteReply addr size))) ∨
    (∃ bytes rest, s.agenda = .reset bytes :: rest ∧ step s = .next (s.popAction.hardReset bytes)) := by
  cases h : s.agenda with
  | nil => exact .inl ⟨rfl, step_nil h⟩
  | cons a rest =>
    right
    have hs := step_cons h
    cases a with
    | read addr size => exact .inr (.inl ⟨addr, size, rest, rfl, hs⟩)
    | write addr size data => exact .inr (.inr (.inl ⟨addr, size, data, rest, rfl, hs⟩))
    | wait => exact .inl ⟨rest, rfl, hs⟩
    | reset bytes => exact .inr (.inr (.inr ⟨bytes, rest, rfl, hs⟩))

/-- One more step at the end of a run. -/
theorem steps_succ {n : Nat} {s t : State} (h : steps n s = .next t) : steps (n + 1) s = step t := by
  induction n generalizing s with
  | zero => cases h; rw [steps]; cases step t <;> rfl
  | succ n ih =>
    rw [steps] at h ⊢
    cases hs : step s with
    | next v => rw [hs] at h; exact ih h
    | fault f => rw [hs] at h; cases h
    | refused r => rw [hs] at h; cases h

/-- A point command's end, the new value apart from where it goes. -/
theorem finishPoint_map {α : Type} (s : State) (o : Option α) (f : α → Word) (rd : Reg) :
    finishPoint s (o.map fun P => s.setReg rd (f P)) = finishPoint s ((o.map f).map fun w => s.setReg rd w) := by
  cases o <;> rfl

theorem execPadd_eq (rd a b : Reg) (s : State) :
    execPadd rd a b s =
      finishPoint s (((s.pointOp a).bind fun P => (s.pointOp b).map fun Q => penc (padd P Q)).map fun w => s.setReg rd w) := by
  unfold execPadd
  cases s.pointOp a <;> cases s.pointOp b <;> rfl

end Sys2Proof.Machine
end

