-- ==== Sys2Proof/Laws/Codec.lean ====
section
/-! SUPPORT. The fields of an encoded command word (spec/30_encoding.md R80, R90). -/

namespace Sys2Proof

theorem commandWord_toNat {op : Nat} (h : op < 256) (a b c d : Reg) :
    (commandWord op a b c d).toNat = op + a.val * 2 ^ 8 + b.val * 2 ^ 12 + c.val * 2 ^ 16 + d.val * 2 ^ 20 := by
  rw [commandWord, BitVec.toNat_ofNat]
  apply Nat.mod_eq_of_lt
  omega

theorem opcodeField_commandWord {op : Nat} (h : op < 256) (a b c d : Reg) : opcodeField (commandWord op a b c d) = op := by
  rw [opcodeField, commandWord_toNat h]; omega

theorem regField_val (w : BitVec 32) (lo : Nat) : (regField w lo).val = w.toNat / 2 ^ lo % 16 := rfl

theorem regField_rd {op : Nat} (h : op < 256) (a b c d : Reg) : regField (commandWord op a b c d) 8 = a := by
  apply Fin.ext
  rw [regField_val, commandWord_toNat h]; omega

theorem regField_rs1 {op : Nat} (h : op < 256) (a b c d : Reg) : regField (commandWord op a b c d) 12 = b := by
  apply Fin.ext
  rw [regField_val, commandWord_toNat h]; omega

theorem regField_rs2 {op : Nat} (h : op < 256) (a b c d : Reg) : regField (commandWord op a b c d) 16 = c := by
  apply Fin.ext
  rw [regField_val, commandWord_toNat h]; omega

theorem regField_rs3 {op : Nat} (h : op < 256) (a b c d : Reg) : regField (commandWord op a b c d) 20 = d := by
  apply Fin.ext
  rw [regField_val, commandWord_toNat h]; omega

theorem commandWord_lt {op : Nat} (h : op < 256) (a b c d : Reg) : (commandWord op a b c d).toNat < 2 ^ 24 := by
  rw [commandWord_toNat h]; omega

theorem commandWord_high {op : Nat} (h : op < 256) (a b c d : Reg) : (commandWord op a b c d).toNat / 2 ^ 24 = 0 := by
  rw [commandWord_toNat h]; omega

/-- The word of a line of the opcode map, its unused fields 0 and its pair fields even, decodes to the command of that line (R87). -/
theorem decode_commandWord {op : Nat} {r : OpRow} (h : op < 256) (hr : opRow op = some r) (a b c d : Reg)
    (hm : (r.rd.mbzOk a && r.rs1.mbzOk b && r.rs2.mbzOk c && r.rs3.mbzOk d) = true)
    (hp : (r.rd.pairOk a && r.rs1.pairOk b && r.rs2.pairOk c && r.rs3.pairOk d) = true) :
    decode (commandWord op a b c d) = .ok (r.build a b c d) := by
  have hm' : r.mbzOk (commandWord op a b c d) = true := by
    rw [OpRow.mbzOk, commandWord_high h, regField_rd h, regField_rs1 h, regField_rs2 h, regField_rs3 h]
    exact hm
  have hp' : r.pairsOk (commandWord op a b c d) = true := by
    rw [OpRow.pairsOk, regField_rd h, regField_rs1 h, regField_rs2 h, regField_rs3 h]
    exact hp
  rw [decode, opcodeField_commandWord h, hr]
  dsimp only
  rw [if_neg (by rw [hm']; exact Bool.noConfusion), if_neg (by rw [hp']; exact Bool.noConfusion), regField_rd h, regField_rs1 h,
    regField_rs2 h, regField_rs3 h]

end Sys2Proof
end

