-- ==== Sys2Proof/Laws/Curve.lean ====
section
/-! SUPPORT. The group law of the curve `−x² + y² = 1 + d·x²·y²` over a field in which `−1` is a square and `d` is not (spec/43_edwards.md
R153): completeness, closure, associativity. The polynomial identities were found by reducing modulo the three curve equations. -/

namespace Sys2Proof.Laws.Curve

variable {F : Type} [Field F]

/-- The curve equation (R150). -/
def On (d : F) (P : F × F) : Prop := -P.1 ^ 2 + P.2 ^ 2 = 1 + d * P.1 ^ 2 * P.2 ^ 2

/-- The product `d·x1·x2·y1·y2` of the addition law (R153). -/
def tee (d : F) (P Q : F × F) : F := d * P.1 * Q.1 * P.2 * Q.2

/-- The addition law (R153). -/
def add (d : F) (P Q : F × F) : F × F :=
  ((P.1 * Q.2 + P.2 * Q.1) / (1 + tee d P Q), (P.2 * Q.2 + P.1 * Q.1) / (1 - tee d P Q))

/-- What makes the law complete: 2 is not 0, `−1` is a square and `d` is not (R10). -/
structure Complete (d i : F) : Prop where
  two : (2 : F) ≠ 0
  sq : i ^ 2 = -1
  nonsq : ∀ z : F, z ^ 2 ≠ d

variable {d i : F} {P Q R : F × F}

theorem tee_sq_ne_one (hc : Complete d i) (hP : On d P) (hQ : On d Q) : tee d P Q ^ 2 ≠ 1 := by
  obtain ⟨x1, y1⟩ := P
  obtain ⟨x2, y2⟩ := Q
  simp only [On, tee] at *
  intro he
  have hx1 : x1 ≠ 0 := by rintro rfl; simp at he
  have hy1 : y1 ≠ 0 := by rintro rfl; simp at he
  have hy2 : y2 ≠ 0 := by rintro rfl; simp at he
  have hi := hc.sq
  have key : ∀ j : F, j ^ 2 = -1 → j * x2 + y2 = 0 := by
    intro j hj
    by_contra hne
    refine hc.nonsq ((j * x1 + d * x1 * x2 * y1 * y2 * y1) / (x1 * y1 * (j * x2 + y2))) ?_
    rw [div_pow, div_eq_iff (pow_ne_zero 2 (mul_ne_zero (mul_ne_zero hx1 hy1) hne))]
    linear_combination (x1 ^ 2 - d * x1 ^ 2 * y1 ^ 2 * x2 ^ 2) * hj + (y1 ^ 2 - 1) * he + hP
      - d * x1 ^ 2 * y1 ^ 2 * hQ
  have h1 := key i hi
  have h2 := key (-i) (by rw [neg_sq, hi])
  have h3 : 2 * y2 = 0 := by linear_combination h1 + h2
  rcases mul_eq_zero.1 h3 with h | h
  · exact hc.two h
  · exact hy2 h

theorem one_add_tee_ne (hc : Complete d i) (hP : On d P) (hQ : On d Q) : 1 + tee d P Q ≠ 0 := fun h =>
  tee_sq_ne_one hc hP hQ (by rw [eq_neg_of_add_eq_zero_right h]; ring)

theorem one_sub_tee_ne (hc : Complete d i) (hP : On d P) (hQ : On d Q) : 1 - tee d P Q ≠ 0 := fun h =>
  tee_sq_ne_one hc hP hQ (by rw [← sub_eq_zero.1 h]; ring)

theorem add_comm' (P Q : F × F) : add d P Q = add d Q P := by
  simp only [add, tee, Prod.mk.injEq]
  constructor <;> congr 1 <;> ring

/-- The curve equation of a pair of fractions. -/
theorem on_div {a b u v : F} (hu : u ≠ 0) (hv : v ≠ 0)
    (h : -a ^ 2 * v ^ 2 + b ^ 2 * u ^ 2 = u ^ 2 * v ^ 2 + d * a ^ 2 * b ^ 2) : On d (a / u, b / v) := by
  simp only [On]
  field_simp
  linear_combination h

theorem on_add (hc : Complete d i) (hP : On d P) (hQ : On d Q) : On d (add d P Q) := by
  refine on_div (one_add_tee_ne hc hP hQ) (one_sub_tee_ne hc hP hQ) ?_
  obtain ⟨x1, y1⟩ := P
  obtain ⟨x2, y2⟩ := Q
  simp only [On, tee] at hP hQ ⊢
  linear_combination (- x1 ^ 2 * y1 ^ 2 * x2 ^ 4 * y2 ^ 2 * d ^ 2 + x1 ^ 2 * y1 ^ 2 * x2 ^ 2 * y2 ^ 4 * d ^ 2 - x1 ^ 2 * y1 ^ 2 *
        x2 ^ 2 * y2 ^ 2 * d ^ 2 + x1 ^ 2 * x2 ^ 2 * y2 ^ 2 * d - y1 ^ 2 * x2 ^ 2 * y2 ^ 2 * d - x2 ^ 2 * y2 ^ 2 * d -
        x2 ^ 2 + y2 ^ 2) * hP
      + (x1 ^ 4 * y1 ^ 4 * x2 ^ 2 * y2 ^ 2 * d ^ 3 + x1 ^ 2 * y1 ^ 2 * x2 ^ 2 * d - x1 ^ 2 * y1 ^ 2 * y2 ^ 2 * d + 1)
        * hQ

/-- The neutral point (R150). -/
def zero : F × F := (0, 1)

theorem on_zero : On d (zero : F × F) := by simp [On, zero]

theorem add_zero' (P : F × F) : add d P zero = P := by simp [add, tee, zero]

theorem zero_add' (P : F × F) : add d zero P = P := by simp [add, tee, zero]

/-- Negation (R154). -/
def neg (P : F × F) : F × F := (-P.1, P.2)

theorem on_neg (hP : On d P) : On d (neg P) := by
  simpa [On, neg] using hP

theorem add_neg' (hc : Complete d i) (hP : On d P) : add d P (neg P) = zero := by
  have hs := one_sub_tee_ne hc hP (on_neg hP)
  obtain ⟨x, y⟩ := P
  simp only [On, add, neg, zero, Prod.mk.injEq] at *
  refine ⟨by rw [div_eq_zero_iff]; left; ring, ?_⟩
  rw [div_eq_iff hs]
  simp only [tee] at *
  linear_combination hP

/-- The x-coordinate of a sum whose first term is a pair of fractions. -/
theorem sum_x {a b u v x y : F} (hu : u ≠ 0) (hv : v ≠ 0) :
    (a / u * y + b / v * x) / (1 + d * (a / u) * x * (b / v) * y)
      = (a * v * y + b * u * x) / (u * v + d * a * b * x * y) := by
  have h1 : a / u * y + b / v * x = (a * v * y + b * u * x) / (u * v) := by field_simp
  have h2 : 1 + d * (a / u) * x * (b / v) * y = (u * v + d * a * b * x * y) / (u * v) := by field_simp
  rw [h1, h2, div_div_div_cancel_right₀ (mul_ne_zero hu hv)]

/-- The y-coordinate of a sum whose first term is a pair of fractions. -/
theorem sum_y {a b u v x y : F} (hu : u ≠ 0) (hv : v ≠ 0) :
    (b / v * y + a / u * x) / (1 - d * (a / u) * x * (b / v) * y)
      = (b * u * y + a * v * x) / (u * v - d * a * b * x * y) := by
  have h1 : b / v * y + a / u * x = (b * u * y + a * v * x) / (u * v) := by field_simp
  have h2 : 1 - d * (a / u) * x * (b / v) * y = (u * v - d * a * b * x * y) / (u * v) := by field_simp
  rw [h1, h2, div_div_div_cancel_right₀ (mul_ne_zero hu hv)]

theorem den_add {a b u v x y : F} (hu : u ≠ 0) (hv : v ≠ 0) (h : 1 + d * (a / u) * x * (b / v) * y ≠ 0) :
    u * v + d * a * b * x * y ≠ 0 := by
  intro h0; apply h
  have h2 : 1 + d * (a / u) * x * (b / v) * y = (u * v + d * a * b * x * y) / (u * v) := by field_simp
  rw [h2, h0, zero_div]

theorem den_sub {a b u v x y : F} (hu : u ≠ 0) (hv : v ≠ 0) (h : 1 - d * (a / u) * x * (b / v) * y ≠ 0) :
    u * v - d * a * b * x * y ≠ 0 := by
  intro h0; apply h
  have h2 : 1 - d * (a / u) * x * (b / v) * y = (u * v - d * a * b * x * y) / (u * v) := by field_simp
  rw [h2, h0, zero_div]

theorem add_assoc' (hc : Complete d i) (h1 : On d P) (h2 : On d Q) (h3 : On d R) :
    add d (add d P Q) R = add d P (add d Q R) := by
  rw [add_comm' P (add d Q R)]
  have a12 := one_add_tee_ne hc h1 h2
  have s12 := one_sub_tee_ne hc h1 h2
  have a23 := one_add_tee_ne hc h2 h3
  have s23 := one_sub_tee_ne hc h2 h3
  have al := den_add a12 s12 (one_add_tee_ne hc (on_add hc h1 h2) h3)
  have sl := den_sub a12 s12 (one_sub_tee_ne hc (on_add hc h1 h2) h3)
  have ar := den_add a23 s23 (one_add_tee_ne hc (on_add hc h2 h3) h1)
  have sr := den_sub a23 s23 (one_sub_tee_ne hc (on_add hc h2 h3) h1)
  refine Prod.ext ?_ ?_
  · refine (sum_x a12 s12).trans (Eq.trans ?_ (sum_x a23 s23).symm)
    rw [div_eq_div_iff al ar]
    obtain ⟨x1, y1⟩ := P
    obtain ⟨x2, y2⟩ := Q
    obtain ⟨x3, y3⟩ := R
    simp only [On, tee] at h1 h2 h3 ⊢
    linear_combination (x1 * x2 ^ 3 * y2 ^ 2 * x3 ^ 3 * y3 ^ 2 * d ^ 2 + x1 * x2 ^ 2 * y2 ^ 3 * x3 ^ 2 * y3 ^ 3 * d ^ 2 + x1 * x2 ^ 2
        * y2 * x3 ^ 2 * y3 * d + x1 * x2 * y2 ^ 2 * x3 * y3 ^ 2 * d + y1 * x2 ^ 3 * y2 ^ 2 * x3 ^ 2 * y3 ^ 3 * d ^ 2 +
        y1 * x2 ^ 2 * y2 ^ 3 * x3 ^ 3 * y3 ^ 2 * d ^ 2 - y1 * x2 ^ 2 * y2 * x3 * y3 ^ 2 * d - y1 * x2 * y2 ^ 2 * x3 ^
        2 * y3 * d) * h1
      + (- x1 ^ 3 * y1 ^ 2 * x2 ^ 2 * y2 * x3 ^ 2 * y3 * d ^ 2 - x1 ^ 3 * y1 ^ 2 * x2 * y2 ^ 2 * x3 * y3 ^ 2 * d ^ 2 +
        x1 ^ 2 * y1 ^ 3 * x2 ^ 2 * y2 * x3 * y3 ^ 2 * d ^ 2 + x1 ^ 2 * y1 ^ 3 * x2 * y2 ^ 2 * x3 ^ 2 * y3 * d ^ 2 + x1
        ^ 2 * y1 * x2 ^ 2 * y2 * x3 ^ 3 * y3 ^ 2 * d ^ 2 - x1 ^ 2 * y1 * x2 * y2 ^ 2 * x3 ^ 2 * y3 ^ 3 * d ^ 2 - x1 *
        y1 ^ 2 * x2 ^ 2 * y2 * x3 ^ 2 * y3 ^ 3 * d ^ 2 + x1 * y1 ^ 2 * x2 * y2 ^ 2 * x3 ^ 3 * y3 ^ 2 * d ^ 2) * h2
      + (- x1 ^ 3 * y1 ^ 2 * x2 ^ 3 * y2 ^ 2 * x3 * d ^ 2 - x1 ^ 3 * y1 ^ 2 * x2 ^ 2 * y2 ^ 3 * y3 * d ^ 2 - x1 ^ 2 *
        y1 ^ 3 * x2 ^ 3 * y2 ^ 2 * y3 * d ^ 2 - x1 ^ 2 * y1 ^ 3 * x2 ^ 2 * y2 ^ 3 * x3 * d ^ 2 - x1 ^ 2 * y1 * x2 ^ 2
        * y2 * x3 * d + x1 ^ 2 * y1 * x2 * y2 ^ 2 * y3 * d + x1 * y1 ^ 2 * x2 ^ 2 * y2 * y3 * d - x1 * y1 ^ 2 * x2 *
        y2 ^ 2 * x3 * d) * h3
  · refine (sum_y a12 s12).trans (Eq.trans ?_ (sum_y a23 s23).symm)
    rw [div_eq_div_iff sl sr]
    obtain ⟨x1, y1⟩ := P
    obtain ⟨x2, y2⟩ := Q
    obtain ⟨x3, y3⟩ := R
    simp only [On, tee] at h1 h2 h3 ⊢
    linear_combination (x1 * x2 ^ 3 * y2 ^ 2 * x3 ^ 2 * y3 ^ 3 * d ^ 2 + x1 * x2 ^ 2 * y2 ^ 3 * x3 ^ 3 * y3 ^ 2 * d ^ 2 - x1 * x2 ^ 2
        * y2 * x3 * y3 ^ 2 * d - x1 * x2 * y2 ^ 2 * x3 ^ 2 * y3 * d + y1 * x2 ^ 3 * y2 ^ 2 * x3 ^ 3 * y3 ^ 2 * d ^ 2 +
        y1 * x2 ^ 2 * y2 ^ 3 * x3 ^ 2 * y3 ^ 3 * d ^ 2 + y1 * x2 ^ 2 * y2 * x3 ^ 2 * y3 * d + y1 * x2 * y2 ^ 2 * x3 *
        y3 ^ 2 * d) * h1
      + (x1 ^ 3 * y1 ^ 2 * x2 ^ 2 * y2 * x3 * y3 ^ 2 * d ^ 2 + x1 ^ 3 * y1 ^ 2 * x2 * y2 ^ 2 * x3 ^ 2 * y3 * d ^ 2 -
        x1 ^ 2 * y1 ^ 3 * x2 ^ 2 * y2 * x3 ^ 2 * y3 * d ^ 2 - x1 ^ 2 * y1 ^ 3 * x2 * y2 ^ 2 * x3 * y3 ^ 2 * d ^ 2 + x1
        ^ 2 * y1 * x2 ^ 2 * y2 * x3 ^ 2 * y3 ^ 3 * d ^ 2 - x1 ^ 2 * y1 * x2 * y2 ^ 2 * x3 ^ 3 * y3 ^ 2 * d ^ 2 - x1 *
        y1 ^ 2 * x2 ^ 2 * y2 * x3 ^ 3 * y3 ^ 2 * d ^ 2 + x1 * y1 ^ 2 * x2 * y2 ^ 2 * x3 ^ 2 * y3 ^ 3 * d ^ 2) * h2
      + (- x1 ^ 3 * y1 ^ 2 * x2 ^ 3 * y2 ^ 2 * y3 * d ^ 2 - x1 ^ 3 * y1 ^ 2 * x2 ^ 2 * y2 ^ 3 * x3 * d ^ 2 - x1 ^ 2 *
        y1 ^ 3 * x2 ^ 3 * y2 ^ 2 * x3 * d ^ 2 - x1 ^ 2 * y1 ^ 3 * x2 ^ 2 * y2 ^ 3 * y3 * d ^ 2 - x1 ^ 2 * y1 * x2 ^ 2
        * y2 * y3 * d + x1 ^ 2 * y1 * x2 * y2 ^ 2 * x3 * d + x1 * y1 ^ 2 * x2 ^ 2 * y2 * x3 * d - x1 * y1 ^ 2 * x2 *
        y2 ^ 2 * y3 * d) * h3

end Sys2Proof.Laws.Curve
end

