-- ==== Sys2Proof/Laws/Prime.lean ====
section
/-! SUPPORT. The field prime `p` and the group order `L` are prime (spec/00_scope.md R7, R9), by Lucas's test on the factors of `n − 1`. -/

-- One theorem at a time: each evaluation in the kernel waits for the theorems before it, and would hold a thread while it waits.
set_option Elab.async false

namespace Sys2Proof.Laws

/-- `b^e mod m` for an exponent of at most `bits` bits. -/
def powMod (m bits b e : Nat) : Nat :=
  match bits with
  | 0 => 1 % m
  | k + 1 => if e % 2 = 1 then powMod m k (b * b % m) (e / 2) * b % m else powMod m k (b * b % m) (e / 2)

theorem powMod_cast (m bits b e : Nat) (h : e < 2 ^ bits) :
    ((powMod m bits b e : Nat) : ZMod m) = (b : ZMod m) ^ e := by
  induction bits generalizing b e with
  | zero => obtain rfl : e = 0 := by simpa using h
            simp [powMod]
  | succ k ih =>
    have h2 : e / 2 < 2 ^ k := by omega
    have hsq : (((b * b % m : Nat) : ZMod m)) ^ (e / 2) = (b : ZMod m) ^ (2 * (e / 2)) := by
      rw [ZMod.natCast_mod, Nat.cast_mul, ← pow_two, ← pow_mul]
    unfold powMod
    split
    · rename_i ho
      rw [ZMod.natCast_mod, Nat.cast_mul, ih _ _ h2, hsq, ← pow_succ]
      congr 1; omega
    · rename_i he
      rw [ih _ _ h2, hsq]
      congr 1; omega

/-- The test of Lucas: `a` has order `n − 1` modulo `n`. -/
def lucasTest (n a : Nat) (l : List Nat) : Bool :=
  decide (1 < n) && decide (n - 1 < 2 ^ 256) && decide (powMod n 256 a (n - 1) = 1) &&
    l.all fun q => decide (powMod n 256 a ((n - 1) / q) ≠ 1)

theorem powMod_lt (m bits b e : Nat) (hm : 1 < m) : powMod m bits b e < m := by
  induction bits generalizing b e with
  | zero => simpa [powMod] using Nat.mod_lt 1 (by omega : 0 < m)
  | succ k ih =>
    unfold powMod
    split
    · exact Nat.mod_lt _ (by omega)
    · exact ih _ _

theorem prime_of_witness {n a : Nat} {l m : List Nat} (ht : lucasTest n a l = true)
    (hl : ∀ q ∈ l, Nat.Prime q) (hm : m.prod = n - 1) (hml : (m.all fun q => decide (q ∈ l)) = true) :
    Nat.Prime n := by
  simp only [lucasTest, Bool.and_eq_true, decide_eq_true_eq, List.all_eq_true] at ht
  obtain ⟨⟨⟨h1, h256⟩, hone⟩, hq⟩ := ht
  have hz : ∀ k, k < 2 ^ 256 → ((a : ZMod n) ^ k = 1 ↔ powMod n 256 a k = 1) := by
    intro k hk
    rw [← powMod_cast n 256 a k hk]
    constructor
    · intro h
      have h' : ((powMod n 256 a k : Nat) : ZMod n) = ((1 : Nat) : ZMod n) := by simpa using h
      rw [ZMod.natCast_eq_natCast_iff'] at h'
      rwa [Nat.mod_eq_of_lt (powMod_lt _ _ _ _ h1), Nat.mod_eq_of_lt h1] at h'
    · intro h; simp [h]
  refine lucas_primality n (a : ZMod n) ((hz _ h256).2 hone) fun q hqp hqd => ?_
  have hmem : q ∈ l := by
    rw [← hm] at hqd
    obtain ⟨r, hr, hqr⟩ := (Nat.Prime.prime hqp).dvd_prod_iff.1 hqd
    have hrl : r ∈ l := by simpa using (List.all_eq_true.1 hml) r hr
    rwa [(Nat.prime_dvd_prime_iff_eq hqp (hl r hrl)).1 hqr]
  rw [Ne, hz _ (lt_of_le_of_lt (Nat.div_le_self _ _) h256)]
  exact hq q hmem

/-- Primes gathered with their proofs. -/
theorem forall_prime_mem (l : List (Subtype Nat.Prime)) : ∀ q ∈ l.map Subtype.val, Nat.Prime q := by
  intro q hq
  obtain ⟨x, _, rfl⟩ := List.mem_map.1 hq
  exact x.2

theorem prime_132049 : Nat.Prime 132049 := by norm_num

theorem prime_132667 : Nat.Prime 132667 := by norm_num

theorem prime_137849 : Nat.Prime 137849 := by norm_num

theorem prime_409477 : Nat.Prime 409477 := by norm_num

theorem prime_430751 : Nat.Prime 430751 := by norm_num

theorem prime_531581 : Nat.Prime 531581 := by norm_num

theorem prime_569003 : Nat.Prime 569003 := by norm_num

theorem prime_1224481 : Nat.Prime 1224481 := by norm_num

theorem prime_1923133 : Nat.Prime 1923133 := by norm_num

theorem prime_8574133 : Nat.Prime 8574133 := by norm_num

theorem prime_14741173 : Nat.Prime 14741173 :=
  prime_of_witness (a := 2) (l := [2, 3, 409477]) (by decide +kernel)
    (forall_prime_mem [⟨2, (by norm_num)⟩, ⟨3, (by norm_num)⟩, ⟨409477, prime_409477⟩])
    (m := [2, 2, 3, 3, 409477]) (by decide +kernel) (by decide +kernel)

theorem prime_58964693 : Nat.Prime 58964693 :=
  prime_of_witness (a := 2) (l := [2, 14741173]) (by decide +kernel)
    (forall_prime_mem [⟨2, (by norm_num)⟩, ⟨14741173, prime_14741173⟩])
    (m := [2, 2, 14741173]) (by decide +kernel) (by decide +kernel)

theorem prime_292386187 : Nat.Prime 292386187 :=
  prime_of_witness (a := 2) (l := [2, 3, 307, 5879]) (by decide +kernel)
    (forall_prime_mem [⟨2, (by norm_num)⟩, ⟨3, (by norm_num)⟩, ⟨307, (by norm_num)⟩, ⟨5879, (by norm_num)⟩])
    (m := [2, 3, 3, 3, 3, 307, 5879]) (by decide +kernel) (by decide +kernel)

theorem prime_2773320623 : Nat.Prime 2773320623 :=
  prime_of_witness (a := 5) (l := [2, 2437, 569003]) (by decide +kernel)
    (forall_prime_mem [⟨2, (by norm_num)⟩, ⟨2437, (by norm_num)⟩, ⟨569003, prime_569003⟩])
    (m := [2, 2437, 569003]) (by decide +kernel) (by decide +kernel)

theorem prime_72106336199 : Nat.Prime 72106336199 :=
  prime_of_witness (a := 7) (l := [2, 13, 2773320623]) (by decide +kernel)
    (forall_prime_mem [⟨2, (by norm_num)⟩, ⟨13, (by norm_num)⟩, ⟨2773320623, prime_2773320623⟩])
    (m := [2, 13, 2773320623]) (by decide +kernel) (by decide +kernel)

theorem prime_213441916511 : Nat.Prime 213441916511 :=
  prime_of_witness (a := 13) (l := [2, 5, 73, 292386187]) (by decide +kernel)
    (forall_prime_mem [⟨2, (by norm_num)⟩, ⟨5, (by norm_num)⟩, ⟨73, (by norm_num)⟩, ⟨292386187, prime_292386187⟩])
    (m := [2, 5, 73, 292386187]) (by decide +kernel) (by decide +kernel)

theorem prime_1257559732178653 : Nat.Prime 1257559732178653 :=
  prime_of_witness (a := 2) (l := [2, 3, 7, 23, 531581, 1224481]) (by decide +kernel)
    (forall_prime_mem [⟨2, (by norm_num)⟩, ⟨3, (by norm_num)⟩, ⟨7, (by norm_num)⟩, ⟨23, (by norm_num)⟩, ⟨531581, prime_531581⟩, ⟨1224481, prime_1224481⟩])
    (m := [2, 2, 3, 7, 23, 531581, 1224481]) (by decide +kernel) (by decide +kernel)

theorem prime_1919519569386763 : Nat.Prime 1919519569386763 :=
  prime_of_witness (a := 2) (l := [2, 3, 7, 19, 47, 127, 8574133]) (by decide +kernel)
    (forall_prime_mem [⟨2, (by norm_num)⟩, ⟨3, (by norm_num)⟩, ⟨7, (by norm_num)⟩, ⟨19, (by norm_num)⟩, ⟨47, (by norm_num)⟩, ⟨127, (by norm_num)⟩, ⟨8574133, prime_8574133⟩])
    (m := [2, 3, 7, 19, 47, 47, 127, 8574133]) (by decide +kernel) (by decide +kernel)

theorem prime_31757755568855353 : Nat.Prime 31757755568855353 :=
  prime_of_witness (a := 10) (l := [2, 3, 31, 107, 223, 4153, 430751]) (by decide +kernel)
    (forall_prime_mem [⟨2, (by norm_num)⟩, ⟨3, (by norm_num)⟩, ⟨31, (by norm_num)⟩, ⟨107, (by norm_num)⟩, ⟨223, (by norm_num)⟩, ⟨4153, (by norm_num)⟩, ⟨430751, prime_430751⟩])
    (m := [2, 2, 2, 3, 31, 107, 223, 4153, 430751]) (by decide +kernel) (by decide +kernel)

theorem prime_4434155615661930479 : Nat.Prime 4434155615661930479 :=
  prime_of_witness (a := 17) (l := [2, 41, 43, 1257559732178653]) (by decide +kernel)
    (forall_prime_mem [⟨2, (by norm_num)⟩, ⟨41, (by norm_num)⟩, ⟨43, (by norm_num)⟩, ⟨1257559732178653, prime_1257559732178653⟩])
    (m := [2, 41, 43, 1257559732178653]) (by decide +kernel) (by decide +kernel)

theorem prime_3044861653679985063343 : Nat.Prime 3044861653679985063343 :=
  prime_of_witness (a := 5) (l := [2, 3, 11, 30703, 82163, 132667, 137849]) (by decide +kernel)
    (forall_prime_mem [⟨2, (by norm_num)⟩, ⟨3, (by norm_num)⟩, ⟨11, (by norm_num)⟩, ⟨30703, (by norm_num)⟩, ⟨82163, (by norm_num)⟩, ⟨132667, prime_132667⟩, ⟨137849, prime_137849⟩])
    (m := [2, 3, 11, 30703, 82163, 132667, 137849]) (by decide +kernel) (by decide +kernel)

theorem prime_172054593956031949258510691 : Nat.Prime 172054593956031949258510691 :=
  prime_of_witness (a := 2) (l := [2, 5, 1361, 2851, 4434155615661930479]) (by decide +kernel)
    (forall_prime_mem [⟨2, (by norm_num)⟩, ⟨5, (by norm_num)⟩, ⟨1361, (by norm_num)⟩, ⟨2851, (by norm_num)⟩, ⟨4434155615661930479, prime_4434155615661930479⟩])
    (m := [2, 5, 1361, 2851, 4434155615661930479]) (by decide +kernel) (by decide +kernel)

theorem prime_198211423230930754013084525763697 : Nat.Prime 198211423230930754013084525763697 :=
  prime_of_witness (a := 5) (l := [2, 3, 23, 58964693, 3044861653679985063343]) (by decide +kernel)
    (forall_prime_mem [⟨2, (by norm_num)⟩, ⟨3, (by norm_num)⟩, ⟨23, (by norm_num)⟩, ⟨58964693, prime_58964693⟩, ⟨3044861653679985063343, prime_3044861653679985063343⟩])
    (m := [2, 2, 2, 2, 3, 23, 58964693, 3044861653679985063343]) (by decide +kernel) (by decide +kernel)

theorem prime_75445702479781427272750846543864801 : Nat.Prime 75445702479781427272750846543864801 :=
  prime_of_witness (a := 7) (l := [2, 3, 5, 75707, 72106336199, 1919519569386763]) (by decide +kernel)
    (forall_prime_mem [⟨2, (by norm_num)⟩, ⟨3, (by norm_num)⟩, ⟨5, (by norm_num)⟩, ⟨75707, (by norm_num)⟩, ⟨72106336199, prime_72106336199⟩, ⟨1919519569386763, prime_1919519569386763⟩])
    (m := [2, 2, 2, 2, 2, 3, 3, 5, 5, 75707, 72106336199, 1919519569386763]) (by decide +kernel) (by decide +kernel)

theorem prime_19757330305831588566944191468367130476339 : Nat.Prime 19757330305831588566944191468367130476339 :=
  prime_of_witness (a := 2) (l := [2, 269, 213441916511, 172054593956031949258510691]) (by decide +kernel)
    (forall_prime_mem [⟨2, (by norm_num)⟩, ⟨269, (by norm_num)⟩, ⟨213441916511, prime_213441916511⟩, ⟨172054593956031949258510691, prime_172054593956031949258510691⟩])
    (m := [2, 269, 213441916511, 172054593956031949258510691]) (by decide +kernel) (by decide +kernel)

theorem prime_276602624281642239937218680557139826668747 : Nat.Prime 276602624281642239937218680557139826668747 :=
  prime_of_witness (a := 2) (l := [2, 7, 19757330305831588566944191468367130476339]) (by decide +kernel)
    (forall_prime_mem [⟨2, (by norm_num)⟩, ⟨7, (by norm_num)⟩, ⟨19757330305831588566944191468367130476339, prime_19757330305831588566944191468367130476339⟩])
    (m := [2, 7, 19757330305831588566944191468367130476339]) (by decide +kernel) (by decide +kernel)

theorem prime_74058212732561358302231226437062788676166966415465897661863160754340907 : Nat.Prime 74058212732561358302231226437062788676166966415465897661863160754340907 :=
  prime_of_witness (a := 2) (l := [2, 3, 353, 57467, 132049, 1923133, 31757755568855353, 75445702479781427272750846543864801]) (by decide +kernel)
    (forall_prime_mem [⟨2, (by norm_num)⟩, ⟨3, (by norm_num)⟩, ⟨353, (by norm_num)⟩, ⟨57467, (by norm_num)⟩, ⟨132049, prime_132049⟩, ⟨1923133, prime_1923133⟩, ⟨31757755568855353, prime_31757755568855353⟩, ⟨75445702479781427272750846543864801, prime_75445702479781427272750846543864801⟩])
    (m := [2, 3, 353, 57467, 132049, 1923133, 31757755568855353, 75445702479781427272750846543864801]) (by decide +kernel) (by decide +kernel)

theorem groupOrder_prime_lit : Nat.Prime 7237005577332262213973186563042994240857116359379907606001950938285454250989 :=
  prime_of_witness (a := 2) (l := [2, 3, 11, 198211423230930754013084525763697, 276602624281642239937218680557139826668747]) (by decide +kernel)
    (forall_prime_mem [⟨2, (by norm_num)⟩, ⟨3, (by norm_num)⟩, ⟨11, (by norm_num)⟩, ⟨198211423230930754013084525763697, prime_198211423230930754013084525763697⟩, ⟨276602624281642239937218680557139826668747, prime_276602624281642239937218680557139826668747⟩])
    (m := [2, 2, 3, 11, 198211423230930754013084525763697, 276602624281642239937218680557139826668747]) (by decide +kernel) (by decide +kernel)

theorem fieldPrime_prime_lit : Nat.Prime 57896044618658097711785492504343953926634992332820282019728792003956564819949 :=
  prime_of_witness (a := 2) (l := [2, 3, 65147, 74058212732561358302231226437062788676166966415465897661863160754340907]) (by decide +kernel)
    (forall_prime_mem [⟨2, (by norm_num)⟩, ⟨3, (by norm_num)⟩, ⟨65147, (by norm_num)⟩, ⟨74058212732561358302231226437062788676166966415465897661863160754340907, prime_74058212732561358302231226437062788676166966415465897661863160754340907⟩])
    (m := [2, 2, 3, 65147, 74058212732561358302231226437062788676166966415465897661863160754340907]) (by decide +kernel) (by decide +kernel)

theorem fieldPrime_prime : Nat.Prime Machine.fieldPrime := fieldPrime_prime_lit

theorem groupOrder_prime : Nat.Prime Machine.groupOrder := groupOrder_prime_lit

end Sys2Proof.Laws
end

