-- ==== Sys2Proof/Laws/FieldLaws.lean ====
section
/-! SUPPORT. The model's field arithmetic is that of `ZMod p` (spec/40_field.md R100 to R103), and what the encodings keep. -/

-- One theorem at a time: each evaluation in the kernel waits for the theorems before it, and would hold a thread while it waits.
set_option Elab.async false

namespace Sys2Proof.Laws

open Machine

/-- The field the canonical integers stand for. -/
abbrev Fp := ZMod fieldPrime

/-- The field element of an integer. -/
def toF (a : Nat) : Fp := (a : ZMod fieldPrime)

theorem fact_prime : Fact (Nat.Prime fieldPrime) := ⟨fieldPrime_prime⟩

theorem fieldPrime_pos : 0 < fieldPrime := by decide +kernel

theorem fieldPrime_lt : fieldPrime < 2 ^ 255 := by decide +kernel

theorem fieldPrime_gt : 2 ^ 254 < fieldPrime := by decide +kernel

theorem toF_mod (a : Nat) : toF (a % fieldPrime) = toF a := ZMod.natCast_mod a fieldPrime

theorem toF_inj {a b : Nat} (ha : a < fieldPrime) (hb : b < fieldPrime) (h : toF a = toF b) : a = b := by
  rw [toF, toF, ZMod.natCast_eq_natCast_iff'] at h
  rwa [Nat.mod_eq_of_lt ha, Nat.mod_eq_of_lt hb] at h

theorem toF_eq_iff {a b : Nat} (ha : a < fieldPrime) (hb : b < fieldPrime) : toF a = toF b ↔ a = b :=
  ⟨toF_inj ha hb, fun h => h ▸ rfl⟩

theorem toF_eq_zero {a : Nat} (ha : a < fieldPrime) : toF a = 0 ↔ a = 0 := by
  have h := toF_eq_iff ha fieldPrime_pos
  rwa [show toF 0 = 0 from Nat.cast_zero] at h

theorem toF_val (z : Fp) : toF z.val = z := by
  have := fact_prime
  exact ZMod.natCast_zmod_val z

theorem fadd_lt (a b : Nat) : fadd a b < fieldPrime := Nat.mod_lt _ fieldPrime_pos
theorem fsub_lt (a b : Nat) : fsub a b < fieldPrime := Nat.mod_lt _ fieldPrime_pos
theorem fmul_lt (a b : Nat) : fmul a b < fieldPrime := Nat.mod_lt _ fieldPrime_pos
theorem fsqr_lt (a : Nat) : fsqr a < fieldPrime := fmul_lt a a
theorem fdec_lt (b : Word) : fdec b < fieldPrime := Nat.mod_lt _ fieldPrime_pos

@[simp] theorem toF_fadd (a b : Nat) : toF (fadd a b) = toF a + toF b := by
  simp [fadd, toF]

@[simp] theorem toF_fmul (a b : Nat) : toF (fmul a b) = toF a * toF b := by
  simp [fmul, toF]

@[simp] theorem toF_fsqr (a : Nat) : toF (fsqr a) = toF a ^ 2 := by
  rw [fsqr, toF_fmul, pow_two]

@[simp] theorem toF_fsub (a b : Nat) : toF (fsub a b) = toF a - toF b := by
  have hb : b % fieldPrime ≤ fieldPrime := (Nat.mod_lt b fieldPrime_pos).le
  simp only [fsub, toF, ZMod.natCast_mod, Nat.cast_add, Nat.cast_sub hb, ZMod.natCast_self]
  ring

theorem toF_fpowBits (bits b e : Nat) (h : e < 2 ^ bits) : toF (fpowBits bits b e) = toF b ^ e := by
  induction bits generalizing b e with
  | zero =>
    obtain rfl : e = 0 := by simpa using h
    simp [fpowBits, toF]
  | succ k ih =>
    have h2 : e / 2 < 2 ^ k := by omega
    have hsq : (toF b ^ 2) ^ (e / 2) = toF b ^ (2 * (e / 2)) := by rw [← pow_mul]
    unfold fpowBits
    split
    · rw [toF_fmul, ih _ _ h2, toF_fsqr, hsq, ← pow_succ]
      congr 1; omega
    · rw [ih _ _ h2, toF_fsqr, hsq]
      congr 1; omega

theorem fpowBits_lt (bits b e : Nat) : fpowBits bits b e < fieldPrime := by
  induction bits generalizing b e with
  | zero => simp only [fpowBits]; decide +kernel
  | succ k ih =>
    unfold fpowBits
    split
    · exact fmul_lt _ _
    · exact ih _ _

theorem toF_fpow (b e : Nat) (h : e < 2 ^ 256) : toF (fpow b e) = toF b ^ e := toF_fpowBits 256 b e h

theorem fpow_lt (b e : Nat) : fpow b e < fieldPrime := fpowBits_lt 256 b e

theorem finv_lt (v : Nat) : finv v < fieldPrime := fpow_lt v _

/-- Fermat: the exponentiation is the inverse of the field, 0 for 0 (R102). -/
theorem toF_finv [Fact (Nat.Prime fieldPrime)] (v : Nat) : toF (finv v) = (toF v)⁻¹ := by
  rw [finv, toF_fpow _ _ (by decide +kernel)]
  by_cases h : toF v = 0
  · rw [h, inv_zero, zero_pow (by decide +kernel)]
  · refine eq_inv_of_mul_eq_one_left ?_
    rw [← pow_succ, show fieldPrime - 2 + 1 = fieldPrime - 1 from by decide +kernel]
    exact ZMod.pow_card_sub_one_eq_one h

theorem fenc_toNat (v : Nat) : (fenc v).toNat = v % fieldPrime := by
  have h1 := Nat.mod_lt v fieldPrime_pos
  have h2 := fieldPrime_lt
  simp only [fenc, BitVec.toNat_ofNat]
  exact Nat.mod_eq_of_lt (by omega)

theorem fdec_fenc (v : Nat) : fdec (fenc v) = v % fieldPrime := by
  have h1 := Nat.mod_lt v fieldPrime_pos
  have h2 := fieldPrime_lt
  rw [fdec, fenc_toNat, Nat.mod_eq_of_lt (by omega : v % fieldPrime < 2 ^ 255), Nat.mod_mod]

theorem fdec_fenc_of_lt {v : Nat} (h : v < fieldPrime) : fdec (fenc v) = v := by
  rw [fdec_fenc, Nat.mod_eq_of_lt h]

theorem fenc_fdec_of_lt {b : Word} (h : b.toNat < fieldPrime) : fenc (fdec b) = b := by
  apply BitVec.eq_of_toNat_eq
  have h2 := fieldPrime_lt
  rw [fenc_toNat, fdec, Nat.mod_eq_of_lt (by omega : b.toNat < 2 ^ 255), Nat.mod_mod, Nat.mod_eq_of_lt h]

end Sys2Proof.Laws
end

