-- ==== Sys2Proof/Laws/PointLaws.lean ====
section
/-! SUPPORT. The model's points form a group under its addition, and its scalar multiplication is repeated addition (spec/43_edwards.md R153
to R155). -/

-- One theorem at a time: each evaluation in the kernel waits for the theorems before it, and would hold a thread while it waits.
set_option Elab.async false

namespace Sys2Proof.Laws

open Machine

/-- The point over the field. -/
def pt (P : Point) : Fp × Fp := (toF P.x, toF P.y)

/-- A point of the curve with canonical coordinates (R150). -/
abbrev OnCurve (P : Point) : Prop := P.onCurve = true

theorem onCurve_iff [Fact (Nat.Prime fieldPrime)] (P : Point) :
    OnCurve P ↔ P.x < fieldPrime ∧ P.y < fieldPrime ∧ Curve.On (toF curveD) (pt P) := by
  simp only [OnCurve, Point.onCurve, Bool.and_eq_true, decide_eq_true_eq, and_assoc]
  refine and_congr_right fun _ => and_congr_right fun _ => ?_
  rw [← toF_eq_iff (fsub_lt _ _) (fadd_lt _ _)]
  simp only [toF_fsub, toF_fsqr, toF_fadd, toF_fmul, Curve.On, pt, show toF 1 = 1 from Nat.cast_one]
  constructor <;> intro h <;> linear_combination h

theorem OnCurve.x_lt {P : Point} (h : OnCurve P) : P.x < fieldPrime := by
  have := fact_prime
  exact ((onCurve_iff P).1 h).1
theorem OnCurve.y_lt {P : Point} (h : OnCurve P) : P.y < fieldPrime := by
  have := fact_prime
  exact ((onCurve_iff P).1 h).2.1
theorem OnCurve.on [Fact (Nat.Prime fieldPrime)] {P : Point} (h : OnCurve P) : Curve.On (toF curveD) (pt P) := ((onCurve_iff P).1 h).2.2

theorem point_ext {P Q : Point} (hP : OnCurve P) (hQ : OnCurve Q) (h : pt P = pt Q) : P = Q := by
  cases P; cases Q
  simp only [pt, Prod.mk.injEq] at h
  rw [Point.mk.injEq]
  exact ⟨toF_inj hP.x_lt hQ.x_lt h.1, toF_inj hP.y_lt hQ.y_lt h.2⟩

/-- `p − 1 = −1`. -/
theorem toF_pred : toF (fieldPrime - 1) = -1 := by
  rw [eq_neg_iff_add_eq_zero]
  have : toF (fieldPrime - 1) + 1 = ((fieldPrime - 1 + 1 : Nat) : ZMod fieldPrime) := by
    rw [toF]; push_cast; ring
  rw [this, show fieldPrime - 1 + 1 = fieldPrime from by decide +kernel]
  exact ZMod.natCast_self _

theorem toF_ne_of_ne {a b : Nat} (ha : a < fieldPrime) (hb : b < fieldPrime) (h : a ≠ b) : toF a ≠ toF b :=
  fun he => h (toF_inj ha hb he)

theorem pow_half_of_sq [Fact (Nat.Prime fieldPrime)] {z : Fp} (hz : z ≠ 0) :
    (z ^ 2) ^ ((fieldPrime - 1) / 2) = 1 := by
  rw [← pow_mul, show 2 * ((fieldPrime - 1) / 2) = fieldPrime - 1 from by decide +kernel]
  exact ZMod.pow_card_sub_one_eq_one hz

theorem sqrtNegOne_sq : toF sqrtNegOne ^ 2 = -1 := by
  rw [← toF_fsqr, ← toF_pred]
  exact congrArg toF (by decide +kernel)

theorem curveD_nonsquare (z : Fp) : z ^ 2 ≠ toF curveD := by
  have := fact_prime
  intro h
  have hd : toF curveD ≠ 0 := by
    rw [Ne, toF_eq_zero (by decide +kernel)]; decide +kernel
  have hz : z ≠ 0 := by rintro rfl; exact hd (by rw [← h]; ring)
  have h1 := pow_half_of_sq hz
  rw [h, ← toF_fpow _ _ (by decide +kernel), show (1 : Fp) = toF 1 from Nat.cast_one.symm] at h1
  exact toF_ne_of_ne (fpow_lt _ _) (by decide +kernel) (by decide +kernel) h1

theorem two_ne_zero' : (2 : Fp) ≠ 0 := by
  have h : toF 2 = 2 := by simp [toF]
  rw [← h, Ne, toF_eq_zero (by decide +kernel)]
  decide

theorem curve_complete [Fact (Nat.Prime fieldPrime)] : Curve.Complete (toF curveD) (toF sqrtNegOne) :=
  ⟨two_ne_zero', sqrtNegOne_sq, curveD_nonsquare⟩

theorem pt_padd [Fact (Nat.Prime fieldPrime)] (P Q : Point) : pt (padd P Q) = Curve.add (toF curveD) (pt P) (pt Q) := by
  simp only [pt, padd, Curve.add, Curve.tee, toF_fmul, toF_fadd, toF_fsub, toF_finv, div_eq_mul_inv,
    show toF 1 = 1 from Nat.cast_one, Prod.mk.injEq]
  constructor <;> congr 2 <;> ring

theorem pt_neutral [Fact (Nat.Prime fieldPrime)] : pt neutralPoint = Curve.zero := by
  simp [pt, neutralPoint, Curve.zero, toF]

theorem toF_neg (a : Nat) (h : a < fieldPrime) : toF ((fieldPrime - a) % fieldPrime) = -toF a := by
  rw [toF_mod, toF, Nat.cast_sub h.le, ZMod.natCast_self, zero_sub, toF]

theorem pt_pneg [Fact (Nat.Prime fieldPrime)] {P : Point} (h : P.x < fieldPrime) : pt (pneg P) = Curve.neg (pt P) := by
  simp only [pt, pneg, Curve.neg, toF_neg _ h]

theorem neutral_onCurve : OnCurve neutralPoint := by decide +kernel

theorem base_onCurve : OnCurve basePoint := by decide +kernel

theorem padd_onCurve {P Q : Point} (hP : OnCurve P) (hQ : OnCurve Q) : OnCurve (padd P Q) := by
  have := fact_prime
  rw [onCurve_iff]
  refine ⟨fmul_lt _ _, fmul_lt _ _, ?_⟩
  rw [pt_padd]
  exact Curve.on_add curve_complete hP.on hQ.on

theorem pneg_onCurve {P : Point} (hP : OnCurve P) : OnCurve (pneg P) := by
  have := fact_prime
  rw [onCurve_iff]
  refine ⟨Nat.mod_lt _ fieldPrime_pos, hP.y_lt, ?_⟩
  rw [pt_pneg hP.x_lt]
  exact Curve.on_neg hP.on

theorem padd_comm {P Q : Point} (hP : OnCurve P) (hQ : OnCurve Q) : padd P Q = padd Q P := by
  have := fact_prime
  refine point_ext (padd_onCurve hP hQ) (padd_onCurve hQ hP) ?_
  rw [pt_padd, pt_padd, Curve.add_comm']

theorem padd_assoc {P Q R : Point} (hP : OnCurve P) (hQ : OnCurve Q) (hR : OnCurve R) :
    padd (padd P Q) R = padd P (padd Q R) := by
  have := fact_prime
  refine point_ext (padd_onCurve (padd_onCurve hP hQ) hR) (padd_onCurve hP (padd_onCurve hQ hR)) ?_
  simp only [pt_padd]
  exact Curve.add_assoc' curve_complete hP.on hQ.on hR.on

theorem padd_neutral {P : Point} (hP : OnCurve P) : padd P neutralPoint = P := by
  have := fact_prime
  refine point_ext (padd_onCurve hP neutral_onCurve) hP ?_
  rw [pt_padd, pt_neutral, Curve.add_zero']

theorem neutral_padd {P : Point} (hP : OnCurve P) : padd neutralPoint P = P := by
  rw [padd_comm neutral_onCurve hP, padd_neutral hP]

theorem padd_pneg {P : Point} (hP : OnCurve P) : padd P (pneg P) = neutralPoint := by
  have := fact_prime
  refine point_ext (padd_onCurve hP (pneg_onCurve hP)) neutral_onCurve ?_
  rw [pt_padd, pt_pneg hP.x_lt, pt_neutral, Curve.add_neg' curve_complete hP.on]

/-- The equations of a sum, without division (R153). -/
theorem padd_eqs [Fact (Nat.Prime fieldPrime)] {P Q : Point} (hP : OnCurve P) (hQ : OnCurve Q) :
    (1 + toF curveD * toF P.x * toF Q.x * toF P.y * toF Q.y ≠ 0) ∧
    (1 - toF curveD * toF P.x * toF Q.x * toF P.y * toF Q.y ≠ 0) ∧
    toF (padd P Q).x * (1 + toF curveD * toF P.x * toF Q.x * toF P.y * toF Q.y)
      = toF P.x * toF Q.y + toF P.y * toF Q.x ∧
    toF (padd P Q).y * (1 - toF curveD * toF P.x * toF Q.x * toF P.y * toF Q.y)
      = toF P.y * toF Q.y + toF P.x * toF Q.x := by
  have ha := Curve.one_add_tee_ne curve_complete hP.on hQ.on
  have hs := Curve.one_sub_tee_ne curve_complete hP.on hQ.on
  have hxy := pt_padd P Q
  simp only [pt, Curve.add, Curve.tee, Prod.mk.injEq] at hxy ha hs
  exact ⟨ha, hs, (eq_div_iff ha).1 hxy.1, (eq_div_iff hs).1 hxy.2⟩

theorem sumOf_onCurve {P : Point} (hP : OnCurve P) (n : Nat) : OnCurve (sumOf n P) := by
  induction n with
  | zero => exact neutral_onCurve
  | succ k ih => exact padd_onCurve ih hP

theorem sumOf_add {P : Point} (hP : OnCurve P) (m n : Nat) : sumOf (m + n) P = padd (sumOf m P) (sumOf n P) := by
  induction n with
  | zero => exact (padd_neutral (sumOf_onCurve hP m)).symm
  | succ k ih =>
    rw [← add_assoc, sumOf, ih, sumOf, padd_assoc (sumOf_onCurve hP m) (sumOf_onCurve hP k) hP]

theorem sumOf_double {P : Point} (hP : OnCurve P) (n : Nat) : sumOf n (padd P P) = sumOf (2 * n) P := by
  induction n with
  | zero => rfl
  | succ k ih =>
    rw [sumOf, ih, show 2 * (k + 1) = 2 * k + 2 from rfl, sumOf_add hP (2 * k) 2]
    congr 1
    rw [sumOf, sumOf, sumOf, neutral_padd hP]

theorem smulBits_eq {P : Point} (hP : OnCurve P) (bits n : Nat) (h : n < 2 ^ bits) : smulBits bits n P = sumOf n P := by
  induction bits generalizing n P with
  | zero =>
    obtain rfl : n = 0 := by simpa using h
    rfl
  | succ k ih =>
    have h2 : n / 2 < 2 ^ k := by omega
    rw [smulBits, ih (padd_onCurve hP hP) _ h2, sumOf_double hP]
    split
    · rw [← sumOf.eq_2]
      congr 1; omega
    · congr 1; omega

/-- Scalar multiplication is repeated addition (R155). -/
theorem smul_eq_sumOf {P : Point} (hP : OnCurve P) (n : Nat) : smul n P = sumOf n P :=
  smulBits_eq hP _ _ Nat.lt_log2_self

theorem smul_onCurve {P : Point} (hP : OnCurve P) (n : Nat) : OnCurve (smul n P) := by
  rw [smul_eq_sumOf hP]; exact sumOf_onCurve hP n

theorem smul_add {P : Point} (hP : OnCurve P) (m n : Nat) : smul (m + n) P = padd (smul m P) (smul n P) := by
  simp only [smul_eq_sumOf hP, sumOf_add hP]

theorem smul_mul {P : Point} (hP : OnCurve P) (m n : Nat) : smul (m * n) P = smul n (smul m P) := by
  rw [smul_eq_sumOf hP, smul_eq_sumOf (smul_onCurve hP m)]
  induction n with
  | zero => rfl
  | succ k ih =>
    rw [Nat.mul_succ, sumOf_add hP, ih, sumOf, smul_eq_sumOf hP]

end Sys2Proof.Laws
end

