-- ==== Sys2Proof/Laws/CodecLaws.lean ====
section
/-! SUPPORT. Point encoding and decoding, the square root, and the birational map (spec/43_edwards.md R150 to R152, R158, R159). -/

-- One theorem at a time: each evaluation in the kernel waits for the theorems before it, and would hold a thread while it waits.
set_option Elab.async false

namespace Sys2Proof.Laws

open Machine

theorem topBit_eq (b : Word) : topBit b = decide (2 ^ 255 ≤ b.toNat) := by
  rw [topBit, BitVec.getLsbD, Nat.testBit_eq_decide_div_mod_eq, decide_eq_decide]
  have := b.isLt
  omega

theorem withTopBit_toNat (b : Word) (v : Bool) : (withTopBit b v).toNat = b.toNat % 2 ^ 255 + 2 ^ 255 * v.toNat := by
  rw [withTopBit, BitVec.toNat_ofNat]
  apply Nat.mod_eq_of_lt
  have := Nat.mod_lt b.toNat (by decide +kernel : 0 < 2 ^ 255)
  cases v <;> (simp only [Bool.toNat_true, Bool.toNat_false]; omega)

theorem topBit_withTopBit (b : Word) (v : Bool) : topBit (withTopBit b v) = v := by
  rw [topBit_eq, withTopBit_toNat]
  have := Nat.mod_lt b.toNat (by decide +kernel : 0 < 2 ^ 255)
  cases v <;> simp <;> omega

theorem fdec_withTopBit (b : Word) (v : Bool) : fdec (withTopBit b v) = fdec b := by
  rw [fdec, withTopBit_toNat, Nat.add_mul_mod_self_left, Nat.mod_mod, fdec]

theorem penc_toNat {P : Point} (h : P.y < fieldPrime) : (penc P).toNat = P.y + 2 ^ 255 * (P.x % 2) := by
  rw [penc, BitVec.toNat_ofNat]
  apply Nat.mod_eq_of_lt
  have h2 := fieldPrime_lt
  omega

theorem fdec_penc {P : Point} (h : P.y < fieldPrime) : fdec (penc P) = P.y := by
  have h2 := fieldPrime_lt
  rw [fdec, penc_toNat h, Nat.add_mul_mod_self_left, Nat.mod_eq_of_lt (h.trans h2), Nat.mod_eq_of_lt h]

theorem topBit_penc {P : Point} (h : P.y < fieldPrime) : topBit (penc P) = decide (P.x % 2 = 1) := by
  have h2 := fieldPrime_lt
  rw [topBit_eq, penc_toNat h, decide_eq_decide]
  omega

theorem fsqrt_sound {w r : Nat} (h : fsqrt w = some r) : fsqr r = w ∧ r < fieldPrime := by
  unfold fsqrt at h
  split at h
  · rename_i hw
    obtain rfl := Option.some.inj h
    exact ⟨hw, fpow_lt _ _⟩
  · split at h
    · rename_i hw
      obtain rfl := Option.some.inj h
      exact ⟨hw, fmul_lt _ _⟩
    · cases h

/-- Two field elements with one square differ by the sign. -/
theorem eq_or_neg_of_fsqr {r z : Nat} (hr : r < fieldPrime) (hz : z < fieldPrime) (h : fsqr r = fsqr z) :
    r = z ∨ (0 < z ∧ r = fieldPrime - z) := by
  have := fact_prime
  have h2 := congrArg toF h
  rw [toF_fsqr, toF_fsqr] at h2
  rcases eq_or_eq_neg_of_sq_eq_sq _ _ h2 with h3 | h3
  · exact .inl (toF_inj hr hz h3)
  · by_cases h0 : z = 0
    · subst h0
      left
      apply toF_inj hr hz
      rw [h3, show toF 0 = 0 from Nat.cast_zero, neg_zero]
    · right
      refine ⟨Nat.pos_of_ne_zero h0, ?_⟩
      apply toF_inj hr (by omega)
      rw [h3, toF, toF, Nat.cast_sub hz.le, ZMod.natCast_self, zero_sub]

/-- A square has a root (R152). -/
theorem fsqrt_fsqr {z : Nat} (hz : z < fieldPrime) : ∃ r, fsqrt (fsqr z) = some r := by
  have := fact_prime
  by_cases h0 : z = 0
  · subst h0; exact ⟨0, by decide +kernel⟩
  have hz0 : toF z ≠ 0 := by rwa [Ne, toF_eq_zero hz]
  set c := fpow (fsqr z) ((fieldPrime + 3) / 8) with hc
  have hcF : toF c ^ 2 = toF z ^ 2 * toF z ^ ((fieldPrime - 1) / 2) := by
    rw [hc, toF_fpow _ _ (by decide +kernel), toF_fsqr, ← pow_mul, ← pow_mul, ← pow_add]
    congr 1
  have hsgn : toF z ^ ((fieldPrime - 1) / 2) = 1 ∨ toF z ^ ((fieldPrime - 1) / 2) = -1 := by
    have : (toF z ^ ((fieldPrime - 1) / 2)) ^ 2 = 1 ^ 2 := by
      rw [← pow_mul, one_pow, show (fieldPrime - 1) / 2 * 2 = fieldPrime - 1 from by decide +kernel]
      exact ZMod.pow_card_sub_one_eq_one hz0
    exact eq_or_eq_neg_of_sq_eq_sq _ _ this
  unfold fsqrt
  rw [← hc]
  split
  · exact ⟨_, rfl⟩
  · rename_i h1
    split
    · exact ⟨_, rfl⟩
    · rename_i h2
      exfalso
      rcases hsgn with h | h
      · apply h1
        apply toF_inj (fsqr_lt _) (fsqr_lt _)
        rw [toF_fsqr, toF_fsqr, hcF, h, mul_one]
      · apply h2
        apply toF_inj (fsqr_lt _) (fsqr_lt _)
        rw [toF_fsqr, toF_fsqr, toF_fmul, mul_pow, hcF, h, sqrtNegOne_sq]
        ring

theorem fsqrt_none {w z : Nat} (h : fsqrt w = none) : fsqr z ≠ w := by
  rintro rfl
  have hz : fsqr (z % fieldPrime) = fsqr z := by
    apply toF_inj (fsqr_lt _) (fsqr_lt _)
    rw [toF_fsqr, toF_fsqr, toF_mod]
  obtain ⟨r, hr⟩ := fsqrt_fsqr (Nat.mod_lt z fieldPrime_pos)
  rw [hz, h] at hr
  cases hr

theorem rootOfParity_parity {r : Nat} {s : Bool} (hr : r < fieldPrime) : rootOfParity r s % 2 = s.toNat := by
  have hodd : fieldPrime % 2 = 1 := by decide +kernel
  unfold rootOfParity
  split
  · assumption
  · rename_i h
    have : s.toNat < 2 := by cases s <;> decide
    omega

theorem rootOfParity_lt {r : Nat} {s : Bool} (h0 : 0 < r) (hr : r < fieldPrime) : rootOfParity r s < fieldPrime := by
  unfold rootOfParity; split <;> omega

theorem fsqr_rootOfParity {r : Nat} {s : Bool} (hr : r < fieldPrime) : fsqr (rootOfParity r s) = fsqr r := by
  unfold rootOfParity
  split
  · rfl
  · apply toF_inj (fsqr_lt _) (fsqr_lt _)
    rw [toF_fsqr, toF_fsqr, toF, toF, Nat.cast_sub hr.le, ZMod.natCast_self, zero_sub, neg_sq]

/-- `d·y² + 1` is never 0 (R152). -/
theorem den_ne_zero (y : Fp) : toF curveD * y ^ 2 + 1 ≠ 0 := by
  have := fact_prime
  intro h
  have hy : y ≠ 0 := by rintro rfl; simp at h
  apply curveD_nonsquare (toF sqrtNegOne / y)
  rw [div_pow, sqrtNegOne_sq, div_eq_iff (pow_ne_zero 2 hy)]
  linear_combination -h

theorem toF_xSquared [Fact (Nat.Prime fieldPrime)] (y : Nat) :
    toF (xSquared y) = (toF y ^ 2 - 1) / (toF curveD * toF y ^ 2 + 1) := by
  simp only [xSquared, toF_fmul, toF_fsub, toF_fsqr, toF_finv, toF_fadd, show toF 1 = 1 from Nat.cast_one, div_eq_mul_inv]

theorem xSquared_lt (y : Nat) : xSquared y < fieldPrime := fmul_lt _ _

/-- The curve equation solved for `x²` (R152). -/
theorem onCurve_iff_xSquared {x y : Nat} (hx : x < fieldPrime) (hy : y < fieldPrime) :
    OnCurve ⟨x, y⟩ ↔ fsqr x = xSquared y := by
  have := fact_prime
  rw [onCurve_iff, ← toF_eq_iff (fsqr_lt _) (xSquared_lt _), toF_xSquared, toF_fsqr, eq_div_iff (den_ne_zero _)]
  simp only [hx, hy, true_and, Curve.On, pt]
  constructor <;> intro h <;> linear_combination -h

theorem recoverX_onCurve {y : Nat} {s : Bool} {P : Point} (hy : y < fieldPrime) (h : recoverX y s = some P) :
    OnCurve P := by
  unfold recoverX at h
  split at h
  · rename_i h0
    obtain rfl := Option.some.inj h
    exact (onCurve_iff_xSquared fieldPrime_pos hy).2 (by rw [h0]; decide +kernel)
  · rename_i h0
    split at h
    · cases h
    · rename_i r hr
      obtain rfl := Option.some.inj h
      obtain ⟨h1, h2⟩ := fsqrt_sound hr
      have hpos : 0 < r := by
        rcases Nat.eq_zero_or_pos r with rfl | hp
        · exact absurd (h1.symm.trans (by decide +kernel)) h0
        · exact hp
      exact (onCurve_iff_xSquared (rootOfParity_lt hpos h2) hy).2 ((fsqr_rootOfParity h2).trans h1)

/-- What decodes is a point of the curve (R152). -/
theorem pdec_onCurve {b : Word} {P : Point} (h : pdec b = some P) : OnCurve P := recoverX_onCurve (fdec_lt b) h

/-- The y-coordinate and the parity of x give the point back (R151). -/
theorem recoverX_of_onCurve {P : Point} (h : OnCurve P) (s : Bool) (hs : P.x ≠ 0 → s = decide (P.x % 2 = 1)) :
    recoverX P.y s = some P := by
  obtain ⟨x, y⟩ := P
  have hx := h.x_lt
  have hy := h.y_lt
  have hxx : fsqr x = xSquared y := (onCurve_iff_xSquared hx hy).1 h
  dsimp only at *
  unfold recoverX
  by_cases h0 : x = 0
  · subst h0
    rw [if_pos (by rw [← hxx]; decide +kernel)]
  · have hne : xSquared y ≠ 0 := by
      have := fact_prime
      rw [← hxx]
      intro hz
      have h2 := congrArg toF hz
      rw [toF_fsqr, show toF 0 = 0 from Nat.cast_zero] at h2
      exact h0 ((toF_eq_zero hx).1 (pow_eq_zero_iff (two_ne_zero)|>.1 h2))
    rw [if_neg hne]
    obtain ⟨r, hr⟩ := fsqrt_fsqr hx
    rw [hxx] at hr
    rw [hr]
    obtain ⟨h1, h2⟩ := fsqrt_sound hr
    have hodd : fieldPrime % 2 = 1 := by decide +kernel
    have hsx := hs h0
    have : rootOfParity r s = x := by
      unfold rootOfParity
      rcases eq_or_neg_of_fsqr h2 hx (h1.trans hxx.symm) with rfl | ⟨_, rfl⟩
      · rw [if_pos]; subst hsx; by_cases hp : r % 2 = 1 <;> simp [hp]; omega
      · rw [if_neg]
        · omega
        · subst hsx; by_cases hp : x % 2 = 1 <;> simp [hp] <;> omega
    exact congrArg (fun v => some (Point.mk v y)) this

/-- A point is what its encoding decodes to (R151, R152). -/
theorem pdec_penc {P : Point} (h : OnCurve P) : pdec (penc P) = some P := by
  rw [pdec, fdec_penc h.y_lt]
  exact recoverX_of_onCurve h _ fun _ => topBit_penc h.y_lt

/-- Having no square root is the only cause of `⊥` (R152). -/
theorem pdec_none_iff (b : Word) : pdec b = none ↔ ∀ z, fsqr z ≠ xSquared (fdec b) := by
  unfold pdec recoverX
  constructor
  · intro h
    split at h
    · cases h
    · split at h
      · rename_i hn
        exact fun z => fsqrt_none hn
      · cases h
  · intro h
    rw [if_neg (fun h0 => h 0 (by rw [h0]; decide +kernel))]
    split
    · rfl
    · rename_i r hr
      exact absurd (fsqrt_sound hr).1 (h r)

end Sys2Proof.Laws
end

