-- ==== Sys2Proof/Laws/ExtendedLaws.lean ====
section
/-! SUPPORT. The extended coordinates of spec/43_edwards.md R156 agree with the affine law of R153, and give a fast scalar multiplication
equal to the model's; with it, the order of the base point (spec/00_scope.md R9). -/

-- One theorem at a time: each evaluation in the kernel waits for the theorems before it, and would hold a thread while it waits.
set_option Elab.async false

namespace Sys2Proof.Laws

open Machine

/-- A point in extended coordinates `(X : Y : Z : T)` (R156). -/
structure ExtPoint where
  X : Nat
  Y : Nat
  Z : Nat
  T : Nat

/-- The adder of R156. -/
def extAdd (P Q : ExtPoint) : ExtPoint :=
  let a := fmul (fsub P.Y P.X) (fsub Q.Y Q.X)
  let b := fmul (fadd P.Y P.X) (fadd Q.Y Q.X)
  let c := fmul (fmul 2 curveD) (fmul P.T Q.T)
  let d := fmul 2 (fmul P.Z Q.Z)
  let e := fsub b a
  let f := fsub d c
  let g := fadd d c
  let h := fadd b a
  ⟨fmul e f, fmul g h, fmul f g, fmul e h⟩

/-- The doubler of R156. -/
def extDouble (P : ExtPoint) : ExtPoint :=
  let a := fsqr P.X
  let b := fsqr P.Y
  let c := fmul 2 (fsqr P.Z)
  let d := fsub 0 a
  let e := fsub (fsub (fsqr (fadd P.X P.Y)) a) b
  let g := fadd d b
  let f := fsub g c
  let h := fsub d b
  ⟨fmul e f, fmul g h, fmul f g, fmul e h⟩

/-- `(X : Y : Z : T)` stands for the affine point `P` (R156): `Z ≠ 0`, `x = X/Z`, `y = Y/Z`, `T = X·Y/Z`. -/
structure Represents (e : ExtPoint) (P : Point) : Prop where
  z : toF e.Z ≠ 0
  x : toF e.X = toF P.x * toF e.Z
  y : toF e.Y = toF P.y * toF e.Z
  t : toF e.T = toF P.x * toF P.y * toF e.Z

theorem represents_extAdd {e f : ExtPoint} {P Q : Point} (he : Represents e P) (hf : Represents f Q)
    (hP : OnCurve P) (hQ : OnCurve Q) : Represents (extAdd e f) (padd P Q) := by
  have := fact_prime
  obtain ⟨ha, hs, hx3, hy3⟩ := padd_eqs hP hQ
  have h2 : toF 2 = 2 := by simp [toF]
  have ez := he.z
  have fz := hf.z
  have two := two_ne_zero'
  constructor
  · simp only [extAdd, toF_fmul, toF_fsub, toF_fadd, h2, he.t, hf.t]
    have hprod : (2 * (toF e.Z * toF f.Z)) ^ 2
        * ((1 + toF curveD * toF P.x * toF Q.x * toF P.y * toF Q.y)
          * (1 - toF curveD * toF P.x * toF Q.x * toF P.y * toF Q.y)) ≠ 0 :=
      mul_ne_zero (pow_ne_zero 2 (mul_ne_zero two (mul_ne_zero ez fz))) (mul_ne_zero ha hs)
    intro h; apply hprod
    linear_combination h
  · simp only [extAdd, toF_fmul, toF_fsub, toF_fadd, h2, he.t, hf.t, he.x, he.y, hf.x, hf.y]
    linear_combination (-4) * (toF e.Z * toF f.Z) ^ 2 * (1 - toF curveD * toF P.x * toF Q.x * toF P.y * toF Q.y) * hx3
  · simp only [extAdd, toF_fmul, toF_fsub, toF_fadd, h2, he.t, hf.t, he.x, he.y, hf.x, hf.y]
    linear_combination (-4) * (toF e.Z * toF f.Z) ^ 2 * (1 + toF curveD * toF P.x * toF Q.x * toF P.y * toF Q.y) * hy3
  · simp only [extAdd, toF_fmul, toF_fsub, toF_fadd, h2, he.t, hf.t, he.x, he.y, hf.x, hf.y]
    linear_combination (-4) * (toF e.Z * toF f.Z) ^ 2
      * (hx3 * (toF P.y * toF Q.y + toF P.x * toF Q.x)
        + toF (padd P Q).x * (1 + toF curveD * toF P.x * toF Q.x * toF P.y * toF Q.y) * hy3)

theorem represents_extDouble {e : ExtPoint} {P : Point} (he : Represents e P) (hP : OnCurve P) :
    Represents (extDouble e) (padd P P) := by
  have := fact_prime
  obtain ⟨ha, hs, hx3, hy3⟩ := padd_eqs hP hP
  have hon := hP.on
  simp only [Curve.On, pt] at hon
  have h2 : toF 2 = 2 := by simp [toF]
  have h0 : toF 0 = 0 := by simp [toF]
  have ez := he.z
  have hG : toF P.y ^ 2 - toF P.x ^ 2 = 1 + toF curveD * toF P.x * toF P.x * toF P.y * toF P.y := by
    linear_combination hon
  have hF : toF P.y ^ 2 - toF P.x ^ 2 - 2 = -(1 - toF curveD * toF P.x * toF P.x * toF P.y * toF P.y) := by
    linear_combination hon
  constructor
  · simp only [extDouble, toF_fmul, toF_fsub, toF_fadd, toF_fsqr, h2, h0, he.x, he.y]
    have hprod : toF e.Z ^ 4 * ((toF P.y ^ 2 - toF P.x ^ 2) * (toF P.y ^ 2 - toF P.x ^ 2 - 2)) ≠ 0 := by
      rw [hF, hG]
      exact mul_ne_zero (pow_ne_zero 4 ez) (mul_ne_zero ha (neg_ne_zero.2 hs))
    intro h; apply hprod
    linear_combination h
  · simp only [extDouble, toF_fmul, toF_fsub, toF_fadd, toF_fsqr, h2, h0, he.x, he.y]
    linear_combination (-toF e.Z ^ 4 * (toF P.y ^ 2 - toF P.x ^ 2 - 2)) * hx3
      - toF e.Z ^ 4 * (toF P.y ^ 2 - toF P.x ^ 2 - 2) * toF (padd P P).x * hG
  · simp only [extDouble, toF_fmul, toF_fsub, toF_fadd, toF_fsqr, h2, h0, he.x, he.y]
    linear_combination toF e.Z ^ 4 * (toF P.y ^ 2 - toF P.x ^ 2) * hy3
      - toF e.Z ^ 4 * (toF P.y ^ 2 - toF P.x ^ 2) * toF (padd P P).y * hF
  · simp only [extDouble, toF_fmul, toF_fsub, toF_fadd, toF_fsqr, h2, h0, he.x, he.y]
    have e1 : toF (padd P P).x * (toF P.y ^ 2 - toF P.x ^ 2) = 2 * toF P.x * toF P.y := by
      rw [hG]; linear_combination hx3
    have e2 : toF (padd P P).y * (toF P.y ^ 2 - toF P.x ^ 2 - 2) = -(toF P.x ^ 2 + toF P.y ^ 2) := by
      rw [hF]; linear_combination -hy3
    linear_combination (-toF e.Z ^ 4) * (e1 * (-(toF P.x ^ 2 + toF P.y ^ 2))
      + toF (padd P P).x * (toF P.y ^ 2 - toF P.x ^ 2) * e2)

/-- `[n]P` in extended coordinates. -/
def extSmulBits (bits n : Nat) (P : ExtPoint) : ExtPoint :=
  match bits with
  | 0 => ⟨0, 1, 1, 0⟩
  | k + 1 =>
    if n % 2 = 1 then extAdd (extSmulBits k (n / 2) (extAdd P P)) P else extSmulBits k (n / 2) (extAdd P P)

theorem represents_extSmulBits {e : ExtPoint} {P : Point} (he : Represents e P) (hP : OnCurve P) (bits n : Nat) :
    Represents (extSmulBits bits n e) (smulBits bits n P) ∧ OnCurve (smulBits bits n P) := by
  have := fact_prime
  induction bits generalizing n P e with
  | zero =>
    refine ⟨⟨?_, ?_, ?_, ?_⟩, neutral_onCurve⟩ <;> simp [extSmulBits, smulBits, neutralPoint, toF]
  | succ k ih =>
    obtain ⟨h1, h2⟩ := ih (represents_extAdd he he hP hP) (padd_onCurve hP hP) (n / 2)
    unfold extSmulBits smulBits
    split
    · exact ⟨represents_extAdd h1 he h2 hP, padd_onCurve h2 hP⟩
    · exact ⟨h1, h2⟩

/-- A point with its coordinates as `(x : y : 1 : xy)`. -/
def extOf (P : Point) : ExtPoint := ⟨P.x, P.y, 1, fmul P.x P.y⟩

theorem represents_extOf (P : Point) : Represents (extOf P) P := by
  have := fact_prime
  constructor <;> simp [extOf, toF, fmul]

/-- The affine point of `(X : Y : Z : T)`. -/
def extAffine (e : ExtPoint) : Point := ⟨fmul e.X (finv e.Z), fmul e.Y (finv e.Z)⟩

theorem extAffine_of_represents {e : ExtPoint} {P : Point} (h : Represents e P) (hP : OnCurve P) : extAffine e = P := by
  have := fact_prime
  obtain ⟨x, y⟩ := P
  rw [extAffine, Point.mk.injEq]
  constructor
  · apply toF_inj (fmul_lt _ _) hP.x_lt
    rw [toF_fmul, toF_finv, h.x, mul_assoc, mul_inv_cancel₀ h.z, mul_one]
  · apply toF_inj (fmul_lt _ _) hP.y_lt
    rw [toF_fmul, toF_finv, h.y, mul_assoc, mul_inv_cancel₀ h.z, mul_one]

/-- The fast scalar multiplication is the model's. -/
theorem smul_eq_ext {P : Point} (hP : OnCurve P) (n : Nat) :
    smul n P = extAffine (extSmulBits (n.log2 + 1) n (extOf P)) :=
  (extAffine_of_represents (represents_extSmulBits (represents_extOf P) hP _ _).1
    (represents_extSmulBits (represents_extOf P) hP _ _).2).symm

/-- `[L]B = (0, 1)` (R9). -/
theorem smul_groupOrder : smul groupOrder basePoint = neutralPoint := by
  rw [smul_eq_ext base_onCurve]
  decide +kernel

end Sys2Proof.Laws
end

