-- ==== Sys2Proof/Laws/GroupOrderLaws.lean ====
section
/-! SUPPORT. The multiples of the base point (spec/00_scope.md R9, spec/43_edwards.md R155): they depend on the scalar modulo `L` only, and `[n]B` is
neutral just for the multiples of `L`. -/

-- One theorem at a time: each evaluation in the kernel waits for the theorems before it, and would hold a thread while it waits.
set_option Elab.async false

namespace Sys2Proof.Laws

open Machine

theorem sumOf_neutral (n : Nat) : sumOf n neutralPoint = neutralPoint := by
  induction n with
  | zero => rfl
  | succ k ih => rw [sumOf, ih, padd_neutral neutral_onCurve]

theorem smul_neutral (n : Nat) : smul n neutralPoint = neutralPoint := by
  rw [smul_eq_sumOf neutral_onCurve, sumOf_neutral]

theorem smul_zero' (P : Point) : smul 0 P = neutralPoint := rfl

theorem smul_one' {P : Point} (hP : OnCurve P) : smul 1 P = P := by
  rw [smul_eq_sumOf hP, sumOf, sumOf, neutral_padd hP]

theorem smul_multiple (n : Nat) : smul (groupOrder * n) basePoint = neutralPoint := by
  rw [smul_mul base_onCurve, smul_groupOrder, smul_neutral]

/-- `[n]B` depends on `n mod L` only (R155). -/
theorem smul_base_mod (n : Nat) : smul (n % groupOrder) basePoint = smul n basePoint := by
  conv_rhs => rw [← Nat.mod_add_div n groupOrder]
  rw [smul_add base_onCurve, smul_multiple, padd_neutral (smul_onCurve base_onCurve _)]

theorem smul_base_congr {m n : Nat} (h : m % groupOrder = n % groupOrder) : smul m basePoint = smul n basePoint := by
  rw [← smul_base_mod m, h, smul_base_mod]

theorem smul_base_eq_neutral_iff (n : Nat) : smul n basePoint = neutralPoint ↔ groupOrder ∣ n := by
  constructor
  · intro h
    by_contra hn
    have hco : Nat.Coprime n groupOrder := ((Nat.Prime.coprime_iff_not_dvd groupOrder_prime).2 hn).symm
    obtain ⟨a, -, ha⟩ := Nat.exists_mul_mod_eq_one_of_coprime hco (by decide +kernel)
    have h1 : smul (n * a) basePoint = basePoint := by
      rw [← smul_base_mod, ha, smul_one' base_onCurve]
    rw [smul_mul base_onCurve, h, smul_neutral] at h1
    exact absurd h1 (by decide +kernel)
  · rintro ⟨m, rfl⟩
    exact smul_multiple m

end Sys2Proof.Laws
end

