-- ==== Sys2Proof/Laws/LadderLaws.lean ====
section
/-! SUPPORT. The Montgomery ladder computes the u-coordinate of the Edwards multiple (spec/42_montgomery.md R144; spec/43_edwards.md R158). -/

-- One theorem at a time: each evaluation in the kernel waits for the theorems before it, and would hold a thread while it waits.
set_option Elab.async false

namespace Sys2Proof.Laws

open Machine

/-- `(X : Z)` is the projective u-coordinate of a point with y-coordinate `y`: `X·(1 − y) = Z·(1 + y)`, not both 0. -/
structure UCoord (x z y : Nat) : Prop where
  eq : toF x * (1 - toF y) = toF z * (1 + toF y)
  ne : toF x ≠ 0 ∨ toF z ≠ 0

theorem UCoord.sub_eq {x z y : Nat} (h : UCoord x z y) : toF x - toF z = toF y * (toF x + toF z) := by
  linear_combination h.eq

theorem UCoord.add_ne [Fact (Nat.Prime fieldPrime)] {x z y : Nat} (h : UCoord x z y) : toF x + toF z ≠ 0 := by
  intro h0
  have h1 := h.sub_eq
  rw [h0, mul_zero] at h1
  have hx : 2 * toF x = 0 := by linear_combination h0 + h1
  have hz : 2 * toF z = 0 := by linear_combination h0 - h1
  rcases h.ne with h2 | h2
  · exact h2 ((mul_eq_zero.1 hx).resolve_left two_ne_zero')
  · exact h2 ((mul_eq_zero.1 hz).resolve_left two_ne_zero')

/-- `d·(a24 + 1) = −a24` (R8, R10). -/
theorem curveD_a24 : toF curveD * (toF a24 + 1) = -toF a24 := by
  have h : toF (fadd (fmul curveD (fadd a24 1)) a24) = toF 0 := congrArg toF (by decide +kernel)
  rw [toF_fadd, toF_fmul, toF_fadd, show toF 1 = 1 from Nat.cast_one, show toF 0 = 0 from Nat.cast_zero] at h
  linear_combination h

theorem a24_succ_ne : toF a24 + 1 ≠ 0 := by
  have h : toF (fadd a24 1) = toF a24 + 1 := by rw [toF_fadd, show toF 1 = 1 from Nat.cast_one]
  rw [← h, Ne, toF_eq_zero (fadd_lt _ _)]
  decide +kernel

/-- The doubling half of a ladder step (R141). -/
theorem ladderArith_double {x1 : Nat} {kt : Bool} {q : LadderPair} {P : Point} (hP : OnCurve P)
    (h : UCoord q.x2 q.z2 P.y) : UCoord (ladderArith x1 kt q).x2 (ladderArith x1 kt q).z2 (padd P P).y := by
  have := fact_prime
  obtain ⟨_, hs, _, hy⟩ := padd_eqs hP hP
  have hon := hP.on
  simp only [Curve.On, pt] at hon
  have hS := h.add_ne
  have hD := h.sub_eq
  have hd := curveD_a24
  set S := toF q.x2 + toF q.z2 with hSdef
  set x := toF P.x
  set y := toF P.y
  have hx' : toF (ladderArith x1 kt q).x2 = S ^ 4 * y ^ 2 := by
    simp only [ladderArith, toF_fmul, toF_fsqr, toF_fadd, toF_fsub, ← hSdef, hD]; ring
  have hz' : toF (ladderArith x1 kt q).z2 = S ^ 4 * ((1 - y ^ 2) * (1 + toF a24 * (1 - y ^ 2))) := by
    simp only [ladderArith, toF_fmul, toF_fsqr, toF_fadd, toF_fsub, ← hSdef, hD]; ring
  constructor
  · rw [hx', hz']
    have hone : (toF a24 + 1) * (1 + toF curveD * y ^ 2) ≠ 0 :=
      mul_ne_zero a24_succ_ne (by rw [add_comm]; exact den_ne_zero _)
    have key : y ^ 2 = (1 + toF a24 * (1 - y ^ 2)) * (1 + x ^ 2) := by
      apply mul_left_cancel₀ hone
      linear_combination ((1 + toF a24 * (1 - y ^ 2)) * (toF a24 + 1)) * hon
        + (y ^ 2 * (y ^ 2 - 1 - toF a24 * (1 - y ^ 2))) * hd
    have e1 : (1 - toF curveD * x * x * y * y) * (1 - toF (padd P P).y) = 2 * (1 - y ^ 2) := by
      linear_combination -hy + hon
    have e2 : (1 - toF curveD * x * x * y * y) * (1 + toF (padd P P).y) = 2 * (1 + x ^ 2) := by
      linear_combination hy + hon
    apply mul_left_cancel₀ hs
    linear_combination S ^ 4 * y ^ 2 * e1 - S ^ 4 * ((1 - y ^ 2) * (1 + toF a24 * (1 - y ^ 2))) * e2
      + 2 * S ^ 4 * (1 - y ^ 2) * key
  · by_cases hy0 : y = 0
    · right
      rw [hz', hy0]
      have : S ^ 4 * (toF a24 + 1) ≠ 0 := mul_ne_zero (pow_ne_zero 4 hS) a24_succ_ne
      intro h0; apply this; linear_combination h0
    · left
      rw [hx']
      exact mul_ne_zero (pow_ne_zero 4 hS) (pow_ne_zero 2 hy0)

/-- The differential addition of a ladder step (R141): the y-coordinate of the difference is `y0`. -/
theorem ladderArith_add {x1 y0 : Nat} {kt : Bool} {q : LadderPair} {P Q : Point} (hP : OnCurve P) (hQ : OnCurve Q)
    (hp : UCoord q.x2 q.z2 P.y) (hq : UCoord q.x3 q.z3 Q.y) (hx1 : toF x1 * (1 - toF y0) = 1 + toF y0)
    (hy0 : toF y0 ^ 2 ≠ 1)
    (hdiff : toF y0 * (1 + toF curveD * toF P.x * toF Q.x * toF P.y * toF Q.y)
      = toF P.y * toF Q.y - toF P.x * toF Q.x) :
    UCoord (ladderArith x1 kt q).x3 (ladderArith x1 kt q).z3 (padd P Q).y := by
  have := fact_prime
  obtain ⟨ha, hs, _, hy⟩ := padd_eqs hP hQ
  have h1 := hP.on
  have h2 := hQ.on
  simp only [Curve.On, pt] at h1 h2
  have hD := hp.sub_eq
  have hD3 := hq.sub_eq
  have hS : (toF q.x2 + toF q.z2) * (toF q.x3 + toF q.z3) ≠ 0 := mul_ne_zero hp.add_ne hq.add_ne
  set S2 := toF q.x2 + toF q.z2 with hS2
  set S3 := toF q.x3 + toF q.z3 with hS3
  set y1 := toF P.y with hy1
  set y2 := toF Q.y with hy2
  set u1 := toF P.x
  set u2 := toF Q.x
  have hx' : toF (ladderArith x1 kt q).x3 = (S2 * S3) ^ 2 * (y2 + y1) ^ 2 := by
    simp only [ladderArith, toF_fmul, toF_fsqr, toF_fadd, toF_fsub, ← hS2, ← hS3, hD, hD3]; ring
  have hz' : toF (ladderArith x1 kt q).z3 = toF x1 * ((S2 * S3) ^ 2 * (y2 - y1) ^ 2) := by
    simp only [ladderArith, toF_fmul, toF_fsqr, toF_fadd, toF_fsub, ← hS2, ← hS3, hD, hD3]; ring
  have hone : 1 - toF y0 ≠ 0 := fun h0 => hy0 (by rw [← sub_eq_zero.1 h0]; ring)
  have hone' : 1 + toF y0 ≠ 0 := fun h0 => hy0 (by rw [eq_neg_of_add_eq_zero_right h0]; ring)
  constructor
  · rw [hx', hz']
    apply mul_left_cancel₀ (mul_ne_zero hone (mul_ne_zero ha hs))
    have key : (1 - toF curveD * u1 * u2 * y1 * y2 + (y1 * y2 + u1 * u2))
          * (1 + toF curveD * u1 * u2 * y1 * y2 + (y1 * y2 - u1 * u2)) * (y2 - y1) ^ 2
        = (1 - toF curveD * u1 * u2 * y1 * y2 - (y1 * y2 + u1 * u2))
          * (1 + toF curveD * u1 * u2 * y1 * y2 - (y1 * y2 - u1 * u2)) * (y2 + y1) ^ 2 := by
      linear_combination (-4 * y1 * y2 ^ 3 + 4 * y1 * y2) * h1
        + (-4 * u1 ^ 2 * y1 ^ 3 * y2 * toF curveD - 4 * u1 ^ 2 * y1 * y2) * h2
    have e1 : (1 - toF curveD * u1 * u2 * y1 * y2) * (1 - toF (padd P Q).y)
        = 1 - toF curveD * u1 * u2 * y1 * y2 - (y1 * y2 + u1 * u2) := by linear_combination -hy
    have e2 : (1 - toF curveD * u1 * u2 * y1 * y2) * (1 + toF (padd P Q).y)
        = 1 - toF curveD * u1 * u2 * y1 * y2 + (y1 * y2 + u1 * u2) := by linear_combination hy
    have e3 : (1 + toF curveD * u1 * u2 * y1 * y2) * (1 - toF y0)
        = 1 + toF curveD * u1 * u2 * y1 * y2 - (y1 * y2 - u1 * u2) := by linear_combination -hdiff
    have e4 : (1 + toF curveD * u1 * u2 * y1 * y2) * (1 + toF y0)
        = 1 + toF curveD * u1 * u2 * y1 * y2 + (y1 * y2 - u1 * u2) := by linear_combination hdiff
    rw [← e1, ← e2, ← e3, ← e4] at key
    linear_combination (-(S2 * S3) ^ 2) * key
      - (S2 * S3) ^ 2 * (y2 - y1) ^ 2 * (1 + toF curveD * u1 * u2 * y1 * y2)
        * (1 - toF curveD * u1 * u2 * y1 * y2) * (1 + toF (padd P Q).y) * hx1
  · by_contra hcon
    rw [not_or, not_not, not_not, hx', hz'] at hcon
    obtain ⟨hc1, hc2⟩ := hcon
    have hx1ne : toF x1 ≠ 0 := by
      intro h0; rw [h0, zero_mul] at hx1; exact hone' hx1.symm
    have a1 : y2 + y1 = 0 := by
      have := (mul_eq_zero.1 hc1).resolve_left (pow_ne_zero 2 hS)
      exact pow_eq_zero_iff two_ne_zero |>.1 this
    have a2 : y2 - y1 = 0 := by
      have := (mul_eq_zero.1 ((mul_eq_zero.1 hc2).resolve_left hx1ne)).resolve_left (pow_ne_zero 2 hS)
      exact pow_eq_zero_iff two_ne_zero |>.1 this
    have b1 : y1 = 0 := by
      have : 2 * y1 = 0 := by linear_combination a1 - a2
      exact (mul_eq_zero.1 this).resolve_left two_ne_zero'
    have b2 : y2 = 0 := by rw [b1, add_zero] at a1; exact a1
    rw [b1] at h1 hdiff
    rw [b2] at h2 hdiff
    apply hy0
    have hu1 : u1 ^ 2 = -1 := by linear_combination -h1
    have hu2 : u2 ^ 2 = -1 := by linear_combination -h2
    have hd0 : toF y0 = -(u1 * u2) := by linear_combination hdiff
    rw [hd0]
    linear_combination u1 ^ 2 * hu2 - hu1

end Sys2Proof.Laws
end

