-- ==== Sys2Proof/Laws/LadderLoopLaws.lean ====
section
/-! SUPPORT. The ladder as a whole (spec/42_montgomery.md R141, R144): what its loop keeps, and the u-coordinate it ends with. -/

namespace Sys2Proof.Laws

open Machine

theorem UCoord.congr {x z x' z' y y' : Nat} (h : UCoord x z y) (hx : x = x') (hz : z = z') (hy : y = y') : UCoord x' z' y' := by
  subst hx hz hy; exact h

/-- The two running points are `[m]P` and `[m+1]P`, up to the pending swap (R141). -/
structure LadderInv (P : Point) (m : Nat) (q : LadderPair) : Prop where
  low : UCoord (ladderSwap q.swap q).x2 (ladderSwap q.swap q).z2 (smul m P).y
  high : UCoord (ladderSwap q.swap q).x3 (ladderSwap q.swap q).z3 (smul (m + 1) P).y

theorem ladderSwap_xor (a b : Bool) (q : LadderPair) : ladderSwap (xor a b) q = ladderSwap b (ladderSwap a q) := by
  cases a <;> cases b <;> rfl

theorem ladderArith_swap (x1 : Nat) (kt : Bool) (q : LadderPair) : (ladderArith x1 kt q).swap = kt := rfl

/-- The y-coordinate of the difference of `[m+1]P` and `[m]P` is that of `P`. -/
theorem smul_succ_diff {P : Point} (hP : OnCurve P) (m : Nat) :
    toF P.y * (1 + toF curveD * toF (smul (m + 1) P).x * toF (smul m P).x * toF (smul (m + 1) P).y * toF (smul m P).y)
      = toF (smul (m + 1) P).y * toF (smul m P).y - toF (smul (m + 1) P).x * toF (smul m P).x := by
  have := fact_prime
  have hm := smul_onCurve hP m
  have hm1 := smul_onCurve hP (m + 1)
  have hsub : padd (smul (m + 1) P) (pneg (smul m P)) = P := by
    rw [add_comm m 1, smul_add hP, smul_one' hP, padd_assoc hP hm (pneg_onCurve hm), padd_pneg hm, padd_neutral hP]
  obtain ⟨_, _, _, h⟩ := padd_eqs hm1 (pneg_onCurve hm)
  rw [hsub] at h
  have hx : toF (pneg (smul m P)).x = -toF (smul m P).x := toF_neg _ hm.x_lt
  have hy : (pneg (smul m P)).y = (smul m P).y := rfl
  rw [hx, hy] at h
  linear_combination h

theorem ladderStep_inv {P : Point} (hP : OnCurve P) {x1 : Nat} (hx1 : toF x1 * (1 - toF P.y) = 1 + toF P.y)
    (hne : toF P.y ^ 2 ≠ 1) {m k t : Nat} {q : LadderPair} (h : LadderInv P m q) :
    LadderInv P (2 * m + (k.testBit t).toNat) (ladderStep k x1 t q) := by
  obtain ⟨hl, hh⟩ := h
  have hm := smul_onCurve hP m
  have hm1 := smul_onCurve hP (m + 1)
  have hd := smul_succ_diff hP m
  have e0 : padd (smul m P) (smul m P) = smul (2 * m) P := by rw [← smul_add hP]; congr 1; omega
  have e1 : padd (smul m P) (smul (m + 1) P) = smul (2 * m + 1) P := by rw [← smul_add hP]; congr 1; omega
  have e1' : padd (smul (m + 1) P) (smul m P) = smul (2 * m + 1) P := by rw [← smul_add hP]; congr 1; omega
  have e2 : padd (smul (m + 1) P) (smul (m + 1) P) = smul (2 * m + 1 + 1) P := by rw [← smul_add hP]; congr 1; omega
  unfold ladderStep
  rw [ladderSwap_xor]
  generalize ladderSwap q.swap q = r at hl hh
  cases hk : k.testBit t
  · refine ⟨?_, ?_⟩
    · exact (ladderArith_double (x1 := x1) (kt := false) hm hl).congr rfl rfl (by rw [e0]; rfl)
    · exact (ladderArith_add (kt := false) hm hm1 hl hh hx1 hne (by linear_combination hd)).congr rfl rfl (by rw [e1]; rfl)
  · refine ⟨?_, ?_⟩
    · exact (ladderArith_add (q := ladderSwap true r) (kt := true) hm1 hm hh hl hx1 hne hd).congr rfl rfl (by rw [e1']; rfl)
    · exact (ladderArith_double (q := ladderSwap true r) (x1 := x1) (kt := true) hm1 hh).congr rfl rfl (by rw [e2]; rfl)

theorem mod_two_pow_succ' (k t : Nat) : k % 2 ^ (t + 1) = 2 ^ t * (k.testBit t).toNat + k % 2 ^ t := by
  rw [Nat.mod_pow_succ, Nat.testBit_eq_decide_div_mod_eq]
  have : k / 2 ^ t % 2 < 2 := Nat.mod_lt _ (by decide)
  rcases (by omega : k / 2 ^ t % 2 = 0 ∨ k / 2 ^ t % 2 = 1) with h | h <;> simp [h]; omega

theorem ladderLoop_inv {P : Point} (hP : OnCurve P) {x1 : Nat} (hx1 : toF x1 * (1 - toF P.y) = 1 + toF P.y)
    (hne : toF P.y ^ 2 ≠ 1) (k n : Nat) {m : Nat} {q : LadderPair} (h : LadderInv P m q) :
    LadderInv P (m * 2 ^ n + k % 2 ^ n) (ladderLoop k x1 n q) := by
  induction n generalizing m q with
  | zero => simpa [ladderLoop, Nat.mod_one] using h
  | succ t ih =>
    rw [ladderLoop]
    have h2 := ih (ladderStep_inv hP hx1 hne (k := k) (t := t) h)
    have e : (2 * m + (k.testBit t).toNat) * 2 ^ t + k % 2 ^ t = m * 2 ^ (t + 1) + k % 2 ^ (t + 1) := by
      rw [mod_two_pow_succ', pow_succ]; ring
    rwa [e] at h2

/-- A projective u-coordinate, divided out, is `e2m` (R158): both give 0 at the neutral point. -/
theorem UCoord.affine {x z : Nat} {P : Point} (h : UCoord x z P.y) : fmul x (finv z) = e2m P := by
  have := fact_prime
  have h1 : toF 1 = 1 := Nat.cast_one
  apply toF_inj (fmul_lt _ _) (fmul_lt _ _)
  simp only [toF_fmul, toF_finv, toF_fadd, toF_fsub, h1]
  by_cases hz : toF z = 0
  · have hx : toF x ≠ 0 := h.ne.resolve_right (not_not.2 hz)
    have hy : 1 - toF P.y = 0 := by
      have := h.eq; rw [hz, zero_mul] at this
      exact (mul_eq_zero.1 this).resolve_left hx
    rw [hz, hy, inv_zero, mul_zero, mul_zero]
  · have hy : 1 - toF P.y ≠ 0 := by
      intro h0
      have h2 := h.eq
      rw [h0, mul_zero] at h2
      have h3 := (mul_eq_zero.1 h2.symm).resolve_left hz
      exact two_ne_zero' (by linear_combination h0 + h3)
    rw [← div_eq_mul_inv, ← div_eq_mul_inv, div_eq_div_iff hz hy, h.eq, mul_comm]

theorem ladderLoop_zero (k n : Nat) {q : LadderPair} (h2 : toF q.x2 * toF q.z2 = 0) (h3 : toF q.x3 * toF q.z3 = 0) :
    toF (ladderLoop k 0 n q).x2 * toF (ladderLoop k 0 n q).z2 = 0 ∧
    toF (ladderLoop k 0 n q).x3 * toF (ladderLoop k 0 n q).z3 = 0 := by
  induction n generalizing q with
  | zero => exact ⟨h2, h3⟩
  | succ t ih =>
    rw [ladderLoop]
    have hs : ∀ c, toF (ladderSwap c q).x2 * toF (ladderSwap c q).z2 = 0 := by
      intro c; cases c
      · exact h2
      · exact h3
    apply ih
    · have hr := hs (xor q.swap (k.testBit t))
      rw [ladderStep]
      generalize ladderSwap (xor q.swap (k.testBit t)) q = r at hr ⊢
      simp only [ladderArith, toF_fmul, toF_fsqr, toF_fadd, toF_fsub]
      linear_combination (4 * (toF r.x2 + toF r.z2) ^ 2 * (toF r.x2 - toF r.z2) ^ 2
        * ((toF r.x2 + toF r.z2) ^ 2 + toF a24 * ((toF r.x2 + toF r.z2) ^ 2 - (toF r.x2 - toF r.z2) ^ 2))) * hr
    · rw [ladderStep]
      simp only [ladderArith, toF_fmul, show toF 0 = 0 from Nat.cast_zero, zero_mul, mul_zero]

theorem x_eq_zero_of_sq {Q : Point} (hQ : OnCurve Q) (hy : toF Q.y ^ 2 = 1) : toF Q.x = 0 := by
  have := fact_prime
  have h := hQ.on
  simp only [Curve.On, pt] at h
  have hz : toF Q.x ^ 2 * (1 + toF curveD) = 0 := by
    linear_combination -h + (1 - toF curveD * toF Q.x ^ 2) * hy
  have hne : 1 + toF curveD ≠ 0 := by
    have := den_ne_zero 1
    intro h; apply this; linear_combination h
  exact pow_eq_zero_iff two_ne_zero |>.1 ((mul_eq_zero.1 hz).resolve_right hne)

/-- The points of order 1 and 2 are closed under addition. -/
theorem smul_y_sq {P : Point} (hP : OnCurve P) (hy : toF P.y ^ 2 = 1) (n : Nat) : toF (smul n P).y ^ 2 = 1 := by
  have := fact_prime
  rw [smul_eq_sumOf hP]
  induction n with
  | zero => rw [sumOf, neutralPoint, show toF 1 = 1 from Nat.cast_one, one_pow]
  | succ k ih =>
    obtain ⟨_, _, _, h⟩ := padd_eqs (sumOf_onCurve hP k) hP
    rw [x_eq_zero_of_sq hP hy] at h
    have h2 : toF (sumOf (k + 1) P).y = toF (sumOf k P).y * toF P.y := by
      rw [sumOf]; linear_combination h
    rw [h2, mul_pow, ih, hy, one_mul]

/-- Their u-coordinate is 0 (R158). -/
theorem e2m_eq_zero {P : Point} (hy : toF P.y ^ 2 = 1) : e2m P = 0 := by
  have := fact_prime
  have h1 : toF 1 = 1 := Nat.cast_one
  apply toF_inj (fmul_lt _ _) fieldPrime_pos
  simp only [toF_fmul, toF_finv, toF_fadd, toF_fsub, h1, show toF 0 = 0 from Nat.cast_zero]
  rcases eq_or_eq_neg_of_sq_eq_sq _ _ (hy.trans (one_pow 2).symm) with h | h
  · rw [h, sub_self, inv_zero, mul_zero]
  · rw [h, add_neg_cancel, zero_mul]

/-- The ladder on u = 0 gives 0 (R144 (d)). -/
theorem ladder_zero {ub : Word} (hu : fdec ub = 0) (kb : Word) : ladder kb ub = fenc 0 := by
  have := fact_prime
  have h0 : toF 0 = 0 := Nat.cast_zero
  rw [ladder]
  refine congrArg fenc ?_
  rw [hu]
  obtain ⟨h2, h3⟩ := ladderLoop_zero (kb.toNat % 2 ^ 255) 255 (q := ⟨1, 0, 0, 1, false⟩)
    (by rw [h0, mul_zero]) (by rw [h0, zero_mul])
  generalize ladderLoop (kb.toNat % 2 ^ 255) 0 255 ⟨1, 0, 0, 1, false⟩ = q at h2 h3
  have h : toF (ladderSwap q.swap q).x2 * toF (ladderSwap q.swap q).z2 = 0 := by
    cases q.swap
    · exact h2
    · exact h3
  apply toF_inj (fmul_lt _ _) fieldPrime_pos
  rw [toF_fmul, toF_finv, h0]
  rcases mul_eq_zero.1 h with h | h
  · rw [h, zero_mul]
  · rw [h, inv_zero, mul_zero]

/-- The ladder on the u-coordinate of a curve point gives the u-coordinate of the multiple (R144 (a)), 0 for the point at
infinity. -/
theorem ladder_eq_e2m {P : Point} (hP : OnCurve P) {ub : Word} (hu : fdec ub = e2m P) (kb : Word) :
    ladder kb ub = fenc (e2m (smul (kb.toNat % 2 ^ 255) P)) := by
  have := fact_prime
  have h1 : toF 1 = 1 := Nat.cast_one
  have h0 : toF 0 = 0 := Nat.cast_zero
  by_cases hy : toF P.y ^ 2 = 1
  · -- the points of order 1 and 2
    rw [e2m_eq_zero (smul_y_sq hP hy _)]
    exact ladder_zero (hu.trans (e2m_eq_zero hy)) kb
  · have hx1 : toF (fdec ub) * (1 - toF P.y) = 1 + toF P.y := by
      rw [hu, e2m]
      simp only [toF_fmul, toF_finv, toF_fadd, toF_fsub, h1]
      have : 1 - toF P.y ≠ 0 := by
        intro h; apply hy; rw [← sub_eq_zero.1 h]; ring
      rw [mul_assoc, inv_mul_cancel₀ this, mul_one]
    have hinit : LadderInv P 0 ⟨1, 0, fdec ub, 1, false⟩ := by
      refine ⟨⟨?_, .inl (by rw [show (ladderSwap false (⟨1, 0, fdec ub, 1, false⟩ : LadderPair)).x2 = 1 from rfl, h1]; exact one_ne_zero)⟩,
        ⟨?_, .inr (by rw [show (ladderSwap false (⟨1, 0, fdec ub, 1, false⟩ : LadderPair)).z3 = 1 from rfl, h1]; exact one_ne_zero)⟩⟩
      · show toF 1 * (1 - toF 1) = toF 0 * (1 + toF 1)
        rw [h1, h0]; ring
      · rw [zero_add, smul_one' hP]
        show toF (fdec ub) * (1 - toF P.y) = toF 1 * (1 + toF P.y)
        rw [hx1, h1, one_mul]
    have h := ladderLoop_inv hP hx1 hy (kb.toNat % 2 ^ 255) 255 hinit
    rw [Nat.zero_mul, Nat.zero_add, Nat.mod_mod] at h
    rw [ladder]
    exact congrArg fenc h.low.affine

end Sys2Proof.Laws
end

