-- ==== Sys2Proof/Laws/PerInstr.lean ====
section
/-! SUPPORT. The family EncodingFits: the word of every command has its bits 31 to 24 zero and an opcode of the map (spec/30_encoding.md R80, R86). -/

namespace Sys2Proof.Laws.EncodingFits

/-- Bits 31 to 24 are zero, and bits 7 to 0 are one of the 30 opcodes. -/
def Statement (i : Instr) : Prop := (encode i).toNat / 2 ^ 24 = 0 ∧ (opRow (opcodeField (encode i))).isSome = true

theorem of_commandWord {op : Nat} (h : op < 256) (hrow : (opRow op).isSome = true) (a b c d : Reg) :
    (commandWord op a b c d).toNat / 2 ^ 24 = 0 ∧ (opRow (opcodeField (commandWord op a b c d))).isSome = true := by
  rw [opcodeField_commandWord h]
  exact ⟨commandWord_high h a b c d, hrow⟩

theorem nop : Statement .nop := of_commandWord (by decide) rfl _ _ _ _
theorem zeroize : Statement .zeroize := of_commandWord (by decide) rfl _ _ _ _
theorem fadd (d a b : Reg) : Statement (.fadd d a b) := of_commandWord (by decide) rfl _ _ _ _
theorem fsub (d a b : Reg) : Statement (.fsub d a b) := of_commandWord (by decide) rfl _ _ _ _
theorem fmul (d a b : Reg) : Statement (.fmul d a b) := of_commandWord (by decide) rfl _ _ _ _
theorem fsqr (d a : Reg) : Statement (.fsqr d a) := of_commandWord (by decide) rfl _ _ _ _
theorem finv (d a : Reg) : Statement (.finv d a) := of_commandWord (by decide) rfl _ _ _ _
theorem fcswap (d a b : Reg) : Statement (.fcswap d a b) := of_commandWord (by decide) rfl _ _ _ _
theorem fcan (d a : Reg) : Statement (.fcan d a) := of_commandWord (by decide) rfl _ _ _ _
theorem sclamp (d a : Reg) : Statement (.sclamp d a) := of_commandWord (by decide) rfl _ _ _ _
theorem sred (d a : Reg) : Statement (.sred d a) := of_commandWord (by decide) rfl _ _ _ _
theorem smuladd (d a b c : Reg) : Statement (.smuladd d a b c) := of_commandWord (by decide) rfl _ _ _ _
theorem seq (a b : Reg) : Statement (.seq a b) := of_commandWord (by decide) rfl _ _ _ _
theorem sltl (a : Reg) : Statement (.sltl a) := of_commandWord (by decide) rfl _ _ _ _
theorem ladder (d a b : Reg) : Statement (.ladder d a b) := of_commandWord (by decide) rfl _ _ _ _
theorem ladderb (d a : Reg) : Statement (.ladderb d a) := of_commandWord (by decide) rfl _ _ _ _
theorem padd (d a b : Reg) : Statement (.padd d a b) := of_commandWord (by decide) rfl _ _ _ _
theorem pdbl (d a : Reg) : Statement (.pdbl d a) := of_commandWord (by decide) rfl _ _ _ _
theorem psmulb (d a : Reg) : Statement (.psmulb d a) := of_commandWord (by decide) rfl _ _ _ _
theorem pdsmul (d a b c : Reg) : Statement (.pdsmul d a b c) := of_commandWord (by decide) rfl _ _ _ _
theorem pdec (d a : Reg) : Statement (.pdec d a) := of_commandWord (by decide) rfl _ _ _ _
theorem e2m (d a : Reg) : Statement (.e2m d a) := of_commandWord (by decide) rfl _ _ _ _
theorem m2e (d a b : Reg) : Statement (.m2e d a b) := of_commandWord (by decide) rfl _ _ _ _
theorem genkey (d a : Reg) : Statement (.genkey d a) := of_commandWord (by decide) rfl _ _ _ _
theorem shared (d a b : Reg) : Statement (.shared d a b) := of_commandWord (by decide) rfl _ _ _ _
theorem sign (d a : Reg) : Statement (.sign d a) := of_commandWord (by decide) rfl _ _ _ _
theorem signr (d a b : Reg) : Statement (.signr d a b) := of_commandWord (by decide) rfl _ _ _ _
theorem verify (a b : Reg) : Statement (.verify a b) := of_commandWord (by decide) rfl _ _ _ _
theorem signmsg (a : Reg) : Statement (.signmsg a) := of_commandWord (by decide) rfl _ _ _ _
theorem openmsg (a : Reg) : Statement (.openmsg a) := of_commandWord (by decide) rfl _ _ _ _

end Sys2Proof.Laws.EncodingFits
end

