-- ==== Sys2Proof/Laws/Reserved.lean ====
section
/-! SUPPORT. Reserved words and odd pair fields of one opcode (spec/30_encoding.md R87, R88; spec/60_exceptions.md R221, R222). -/

-- One theorem at a time: each evaluation in the kernel waits for the theorems before it, and would hold a thread while it waits.
set_option Elab.async false

namespace Sys2Proof.Laws

open Machine

/-- A word whose line has a must-be-zero bit set is refused with `RSVD`. -/
theorem decode_rsvd {w : BitVec 32} {r : OpRow} (hr : opRow (opcodeField w) = some r) (h : r.mbzOk w = false) :
    decode w = .error .rsvd := by
  rw [decode, hr]
  exact if_pos h

/-- A word without reserved bits that names an odd pair is refused with `PAIR`. -/
theorem decode_pair {w : BitVec 32} {r : OpRow} (hr : opRow (opcodeField w) = some r) (hm : r.mbzOk w = true)
    (hp : r.pairsOk w = false) : decode w = .error .pair := by
  rw [decode, hr]
  exact (if_neg (by rw [hm]; exact Bool.noConfusion)).trans (if_pos hp)

/-- The must-be-zero bits of a line, as conditions on the number of the word. -/
theorem mbzOk_iff (r : OpRow) (w : BitVec 32) :
    r.mbzOk w = true ↔ w.toNat / 2 ^ 24 = 0 ∧ (r.rd = .unused → w.toNat / 2 ^ 8 % 16 = 0) ∧
      (r.rs1 = .unused → w.toNat / 2 ^ 12 % 16 = 0) ∧ (r.rs2 = .unused → w.toNat / 2 ^ 16 % 16 = 0) ∧
      (r.rs3 = .unused → w.toNat / 2 ^ 20 % 16 = 0) := by
  have h : ∀ (u : FieldUse) (n : Reg), u.mbzOk n = true ↔ (u = .unused → n.val = 0) := by
    intro u n; cases u <;> simp [FieldUse.mbzOk]
  rw [OpRow.mbzOk, Bool.and_eq_true, Bool.and_eq_true, Bool.and_eq_true, Bool.and_eq_true, h, h, h, h, beq_iff_eq, and_assoc, and_assoc,
    and_assoc]
  rfl

/-- The pair fields of a line, as conditions on the number of the word. -/
theorem pairsOk_iff (r : OpRow) (w : BitVec 32) :
    r.pairsOk w = true ↔ (r.rd = .pair → w.toNat / 2 ^ 8 % 2 = 0) ∧ (r.rs1 = .pair → w.toNat / 2 ^ 12 % 2 = 0) ∧
      (r.rs2 = .pair → w.toNat / 2 ^ 16 % 2 = 0) ∧ (r.rs3 = .pair → w.toNat / 2 ^ 20 % 2 = 0) := by
  have h : ∀ (u : FieldUse) (lo : Nat), u.pairOk (regField w lo) = true ↔ (u = .pair → w.toNat / 2 ^ lo % 2 = 0) := by
    intro u lo
    cases u
    · simp [FieldUse.pairOk]
    · simp [FieldUse.pairOk]
    · rw [FieldUse.pairOk, Reg.isPair, beq_iff_eq, regField_val]
      constructor
      · intro h _; omega
      · intro h; have := h rfl; omega
  rw [OpRow.pairsOk, Bool.and_eq_true, Bool.and_eq_true, Bool.and_eq_true, h, h, h, h, and_assoc, and_assoc]

/-- The reserved words of an opcode, from its line. -/
theorem reservedAbove_of {op lo : Nat} {hasRd : Bool} {r : OpRow} (hr : opRow op = some r)
    (h : ∀ w : BitVec 32, r.mbzOk w = true → w.toNat / 2 ^ lo = 0 ∧ (hasRd = false → w.toNat / 2 ^ 8 % 16 = 0)) :
    ReservedAbove op lo hasRd := by
  intro w hop hbad
  cases hm : r.mbzOk w
  · exact decode_rsvd (by rw [opcodeField, hop]; exact hr) hm
  · obtain ⟨h1, h2⟩ := h w hm
    rcases hbad with hb | ⟨hb1, hb2⟩
    · exact absurd h1 hb
    · exact absurd (h2 hb1) hb2

/-- The odd pair fields of an opcode, from its line. -/
theorem pairField_of {op lo field : Nat} {hasRd : Bool} {r : OpRow} (hr : opRow op = some r)
    (hm : ∀ w : BitVec 32, w.toNat / 2 ^ lo = 0 → (hasRd = false → w.toNat / 2 ^ 8 % 16 = 0) → r.mbzOk w = true)
    (hp : ∀ w : BitVec 32, r.pairsOk w = true → w.toNat / 2 ^ field % 2 = 0) : PairField op lo hasRd field := by
  intro w hop hlo hrd hodd
  refine decode_pair (by rw [opcodeField, hop]; exact hr) (hm w hlo hrd) ?_
  cases h : r.pairsOk w
  · rfl
  · have := hp w h; omega

/-- The opcodes that have a line are the 30 of the map (R86). -/
theorem opRow_none_iff (n : Nat) : opRow n = none ↔ n ∉ opcodes := by
  by_cases h : n < 256
  · have : ∀ m : Fin 256, (opRow m.val = none ↔ m.val ∉ opcodes) := by decide +kernel
    exact this ⟨n, h⟩
  · constructor
    · intro _ hm
      have : ∀ m ∈ opcodes, m < 256 := by decide
      exact h (this n hm)
    · intro _
      unfold opRow
      split <;> first | rfl | omega

/-- The checks of a word's line are the causes that R222 lists. -/
theorem row_checks {w : BitVec 32} {r : OpRow} (hr : opRow (opcodeField w) = some r) :
    (r.mbzOk w = false ↔ ReservedBits w.toNat) ∧ (r.pairsOk w = false ↔ OddPair w.toNat) := by
  rw [← Bool.not_eq_true, ← Bool.not_eq_true, mbzOk_iff, pairsOk_iff]
  unfold opcodeField at hr
  unfold ReservedBits OddPair
  generalize hop : w.toNat % 256 = op at hr ⊢
  clear hop
  unfold opRow at hr
  split at hr <;> (try cases hr) <;> simp <;> omega

end Sys2Proof.Laws
end

