-- ==== Sys2Proof/Laws/WeakKeyLaws.lean ====
section
/-! SUPPORT. The ladder on the u-coordinates of small order (spec/42_montgomery.md R144 (e)): 0 and 1 on the curve, `p − 1` on its twist. -/

-- One theorem at a time: each evaluation in the kernel waits for the theorems before it, and would hold a thread while it waits.
set_option Elab.async false

namespace Sys2Proof.Laws

open Machine

/-- The projective u-coordinates of the multiples of the twist point over `u = −1`, which has order 4: infinity, −1, 0, −1. -/
def TwistClass (m x z : Nat) : Prop :=
  (m % 4 = 0 ∧ toF z = 0 ∧ toF x ≠ 0) ∨ (m % 2 = 1 ∧ toF x = -toF z ∧ toF z ≠ 0) ∨ (m % 4 = 2 ∧ toF x = 0 ∧ toF z ≠ 0)

theorem TwistClass.congr {m m' x z : Nat} (h : TwistClass m x z) (hm : m % 4 = m' % 4) : TwistClass m' x z := by
  unfold TwistClass at *
  have : m % 2 = m' % 2 := by omega
  rwa [hm, this] at h

theorem a24_ne : toF a24 ≠ 0 := by
  rw [Ne, toF_eq_zero (by decide +kernel)]; decide

theorem four_ne : (4 : Fp) ≠ 0 := by
  have := fact_prime
  have h : (4 : Fp) = 2 * 2 := by norm_num
  rw [h]; exact mul_ne_zero two_ne_zero' two_ne_zero'

theorem twist_double {x1 m : Nat} {kt : Bool} {q : LadderPair} (h : TwistClass m q.x2 q.z2) :
    TwistClass (2 * m) (ladderArith x1 kt q).x2 (ladderArith x1 kt q).z2 := by
  have := fact_prime
  have ha := a24_ne
  unfold TwistClass
  simp only [ladderArith, toF_fmul, toF_fsqr, toF_fadd, toF_fsub]
  rcases h with ⟨hm, hz, hx⟩ | ⟨hm, hx, hz⟩ | ⟨hm, hx, hz⟩
  · refine .inl ⟨by omega, ?_, ?_⟩
    · rw [hz]; ring
    · rw [hz, add_zero, sub_zero]; exact mul_ne_zero (pow_ne_zero 2 hx) (pow_ne_zero 2 hx)
  · refine .inr (.inr ⟨by omega, ?_, ?_⟩)
    · rw [hx]; ring
    · rw [hx]
      have h : 4 * 4 * toF a24 * toF q.z2 ^ 4 ≠ 0 :=
        mul_ne_zero (mul_ne_zero (mul_ne_zero four_ne four_ne) ha) (pow_ne_zero 4 hz)
      intro h0; apply h; linear_combination h0
  · refine .inl ⟨by omega, ?_, ?_⟩
    · rw [hx]; ring
    · rw [hx, zero_add, zero_sub, neg_sq]; exact mul_ne_zero (pow_ne_zero 2 hz) (pow_ne_zero 2 hz)

theorem twist_add {x1 m n : Nat} {kt : Bool} {q : LadderPair} (hx1 : toF x1 = -1) (h2 : TwistClass m q.x2 q.z2)
    (h3 : TwistClass n q.x3 q.z3) (hodd : (m + n) % 2 = 1) :
    TwistClass (m + n) (ladderArith x1 kt q).x3 (ladderArith x1 kt q).z3 := by
  have := fact_prime
  have key : ∀ v : Fp, v ≠ 0 → toF (ladderArith x1 kt q).x3 = 4 * v ^ 2 → toF (ladderArith x1 kt q).z3 = -(4 * v ^ 2) →
      TwistClass (m + n) (ladderArith x1 kt q).x3 (ladderArith x1 kt q).z3 := by
    intro v hv e1 e2
    refine .inr (.inl ⟨hodd, by rw [e1, e2, neg_neg], ?_⟩)
    rw [e2]; exact neg_ne_zero.2 (mul_ne_zero four_ne (pow_ne_zero 2 hv))
  have e3 : toF (ladderArith x1 kt q).x3 = ((toF q.x3 - toF q.z3) * (toF q.x2 + toF q.z2)
      + (toF q.x3 + toF q.z3) * (toF q.x2 - toF q.z2)) ^ 2 := by
    simp only [ladderArith, toF_fmul, toF_fsqr, toF_fadd, toF_fsub]
  have e4 : toF (ladderArith x1 kt q).z3 = -((toF q.x3 - toF q.z3) * (toF q.x2 + toF q.z2)
      - (toF q.x3 + toF q.z3) * (toF q.x2 - toF q.z2)) ^ 2 := by
    simp only [ladderArith, toF_fmul, toF_fsqr, toF_fadd, toF_fsub, hx1]; ring
  rcases h2 with ⟨hm, hz, hx⟩ | ⟨hm, hx, hz⟩ | ⟨hm, hx, hz⟩ <;>
    rcases h3 with ⟨hm', hz', hx'⟩ | ⟨hm', hx', hz'⟩ | ⟨hm', hx', hz'⟩ <;>
    first
    | (exfalso; omega)
    | (refine key (toF q.x2 * toF q.z3) (mul_ne_zero hx hz') ?_ ?_
       · rw [e3, hz, hx']; ring
       · rw [e4, hz, hx']; ring)
    | (refine key (toF q.z2 * toF q.x3) (mul_ne_zero hz hx') ?_ ?_
       · rw [e3, hx, hz']; ring
       · rw [e4, hx, hz']; ring)
    | (refine key (toF q.z2 * toF q.z3) (mul_ne_zero hz hz') ?_ ?_
       · rw [e3, hx, hx']; ring
       · rw [e4, hx, hx']; ring)

theorem twist_loop {x1 : Nat} (hx1 : toF x1 = -1) (k n : Nat) {m : Nat} {q : LadderPair}
    (h2 : TwistClass m (ladderSwap q.swap q).x2 (ladderSwap q.swap q).z2)
    (h3 : TwistClass (m + 1) (ladderSwap q.swap q).x3 (ladderSwap q.swap q).z3) :
    TwistClass (m * 2 ^ n + k % 2 ^ n)
      (ladderSwap (ladderLoop k x1 n q).swap (ladderLoop k x1 n q)).x2
      (ladderSwap (ladderLoop k x1 n q).swap (ladderLoop k x1 n q)).z2 := by
  induction n generalizing m q with
  | zero => simpa [ladderLoop, Nat.mod_one] using h2
  | succ t ih =>
    have e : (2 * m + (k.testBit t).toNat) * 2 ^ t + k % 2 ^ t = m * 2 ^ (t + 1) + k % 2 ^ (t + 1) := by
      rw [mod_two_pow_succ', pow_succ]; ring
    rw [ladderLoop, ← e]
    apply ih
    · unfold ladderStep
      rw [ladderSwap_xor]
      generalize ladderSwap q.swap q = r at h2 h3
      cases k.testBit t
      · exact (twist_double (x1 := x1) (kt := false) h2).congr rfl
      · exact (twist_add (q := ladderSwap true r) (kt := true) hx1 h3 h2 (by omega)).congr (by simp; omega)
    · unfold ladderStep
      rw [ladderSwap_xor]
      generalize ladderSwap q.swap q = r at h2 h3
      cases k.testBit t
      · exact (twist_add (q := r) (kt := false) hx1 h2 h3 (by omega)).congr (by simp; omega)
      · exact (twist_double (q := ladderSwap true r) (x1 := x1) (kt := true) h3).congr (by simp; omega)

/-- The ladder on `u = p − 1` gives 0 for every scalar that is a multiple of 4 (R144 (e)). -/
theorem ladder_pred {ub kb : Word} (hu : fdec ub = fieldPrime - 1) (hk : kb.toNat % 2 ^ 255 % 4 = 0) :
    ladder kb ub = fenc 0 := by
  have := fact_prime
  have h1 : toF 1 = 1 := Nat.cast_one
  have h0 : toF 0 = 0 := Nat.cast_zero
  have hx1 : toF (fdec ub) = -1 := by rw [hu, toF_pred]
  have h := twist_loop hx1 (kb.toNat % 2 ^ 255) 255 (m := 0) (q := ⟨1, 0, fdec ub, 1, false⟩)
    (.inl ⟨rfl, h0, by show toF 1 ≠ 0; rw [h1]; exact one_ne_zero⟩)
    (.inr (.inl ⟨rfl, by show toF (fdec ub) = -toF 1; rw [hx1, h1], by show toF 1 ≠ 0; rw [h1]; exact one_ne_zero⟩))
  rw [Nat.zero_mul, Nat.zero_add, Nat.mod_mod] at h
  rw [ladder]
  refine congrArg fenc ?_
  generalize ladderLoop (kb.toNat % 2 ^ 255) (fdec ub) 255 ⟨1, 0, fdec ub, 1, false⟩ = q at h ⊢
  apply toF_inj (fmul_lt _ _) fieldPrime_pos
  rcases h with ⟨_, hz, _⟩ | ⟨hm, _⟩ | ⟨hm, _⟩
  · rw [toF_fmul, toF_finv, hz, inv_zero, mul_zero, h0]
  · omega
  · omega

/-- The point of order 4 over `u = 1`. -/
def orderFour : Point := ⟨sqrtNegOne, 0⟩

theorem orderFour_onCurve : OnCurve orderFour := by decide +kernel

theorem e2m_orderFour : e2m orderFour = 1 := by decide +kernel

theorem smul_orderFour (n : Nat) : smul (4 * n) orderFour = neutralPoint := by
  rw [smul_mul orderFour_onCurve, show smul 4 orderFour = neutralPoint from by decide +kernel, smul_neutral]

/-- The ladder on `u = 1` gives 0 for every scalar that is a multiple of 4 (R144 (e)). -/
theorem ladder_one {ub kb : Word} (hu : fdec ub = 1) (hk : kb.toNat % 2 ^ 255 % 4 = 0) : ladder kb ub = fenc 0 := by
  rw [ladder_eq_e2m orderFour_onCurve (hu.trans e2m_orderFour.symm)]
  obtain ⟨j, hj⟩ := Nat.dvd_of_mod_eq_zero hk
  rw [hj, smul_orderFour]
  decide +kernel

/-- Without a set bit the lower running point stays at infinity. -/
theorem ladderLoop_scalar_zero (x1 n : Nat) {q : LadderPair} (hs : q.swap = false) (hz : toF q.z2 = 0) :
    (ladderLoop 0 x1 n q).swap = false ∧ toF (ladderLoop 0 x1 n q).z2 = 0 := by
  induction n generalizing q with
  | zero => exact ⟨hs, hz⟩
  | succ t ih =>
    rw [ladderLoop]
    have hq : ladderStep 0 x1 t q = ladderArith x1 false q := by
      rw [ladderStep, hs, Nat.zero_testBit]; rfl
    rw [hq]
    apply ih rfl
    simp only [ladderArith, toF_fmul, toF_fsqr, toF_fadd, toF_fsub, hz]
    ring

/-- The ladder with scalar 0 gives 0 (R144 (d)). -/
theorem ladder_scalar_zero {kb : Word} (hk : kb.toNat % 2 ^ 255 = 0) (ub : Word) : ladder kb ub = fenc 0 := by
  have := fact_prime
  have h0 : toF 0 = 0 := Nat.cast_zero
  obtain ⟨hs, hz⟩ := ladderLoop_scalar_zero (fdec ub) 255 (q := ⟨1, 0, fdec ub, 1, false⟩) rfl h0
  rw [ladder]
  refine congrArg fenc ?_
  rw [hk, hs]
  apply toF_inj (fmul_lt _ _) fieldPrime_pos
  rw [show ∀ q, ladderSwap false q = q from fun _ => rfl, toF_fmul, toF_finv, hz, inv_zero, mul_zero, h0]

end Sys2Proof.Laws
end

