-- ==== Sys2Proof/Laws/SignatureLaws.lean ====
section
/-! SUPPORT. Clamped scalars, the birational map back, and the equation that a signature meets (spec/41_scalar.md R120; spec/43_edwards.md R159;
spec/44_protocol.md R181, R190). -/

-- One theorem at a time: each evaluation in the kernel waits for the theorems before it, and would hold a thread while it waits.
set_option Elab.async false

namespace Sys2Proof.Laws

open Machine

/-- The value of a clamped scalar (R120): 2^254 plus the bits 3 to 253 of the operand. -/
theorem clamp_toNat (b : Word) : (clamp b).toNat = 2 ^ 254 + 8 * (b.toNat / 8 % 2 ^ 251) := by
  have hlt : 8 * (b.toNat / 8 % 2 ^ 251) < 2 ^ 254 := by
    have := Nat.mod_lt (b.toNat / 8) (by decide +kernel : 0 < 2 ^ 251)
    omega
  have hsum : 2 ^ 254 + 8 * (b.toNat / 8 % 2 ^ 251) = 2 ^ 254 * 1 ||| 8 * (b.toNat / 8 % 2 ^ 251) := by
    rw [← Nat.two_pow_add_eq_or_of_lt hlt, mul_one]
  rw [hsum, mul_one, clamp, BitVec.toNat_or, BitVec.toNat_and, BitVec.toNat_ofNat, BitVec.toNat_ofNat,
    Nat.mod_eq_of_lt (by decide +kernel : 2 ^ 255 - 8 < 2 ^ 256), Nat.mod_eq_of_lt (by decide +kernel : 2 ^ 254 < 2 ^ 256)]
  apply Nat.eq_of_testBit_eq
  intro i
  rw [Nat.testBit_or, Nat.testBit_or, Nat.testBit_and, show 2 ^ 255 - 8 = 2 ^ 3 * (2 ^ 252 - 1) from by decide +kernel,
    show (8 : Nat) = 2 ^ 3 from rfl, Nat.testBit_two_pow_mul, Nat.testBit_two_pow_mul, Nat.testBit_two_pow_sub_one,
    Nat.testBit_mod_two_pow, Nat.testBit_div_two_pow, Nat.testBit_two_pow]
  by_cases h3 : 3 ≤ i
  · rw [Nat.sub_add_cancel h3]
    by_cases h254 : i = 254
    · subst h254; simp
    · have e : decide (254 = i) = false := decide_eq_false (Ne.symm h254)
      have e2 : decide (i - 3 < 252) = decide (i - 3 < 251) := decide_eq_decide.2 (by omega)
      rw [e, e2]
      cases b.toNat.testBit i <;> simp [h3]
  · have e : decide (254 = i) = false := decide_eq_false (by omega)
    rw [e]; simp [h3]

theorem clamp_lt (b : Word) : (clamp b).toNat < 2 ^ 255 := by
  have := Nat.mod_lt (b.toNat / 8) (by decide +kernel : 0 < 2 ^ 251)
  rw [clamp_toNat]; omega

theorem clamp_mod (b : Word) : (clamp b).toNat % 2 ^ 255 = (clamp b).toNat := Nat.mod_eq_of_lt (clamp_lt b)

theorem clamp_mod_four (b : Word) : (clamp b).toNat % 2 ^ 255 % 4 = 0 := by
  rw [clamp_mod, clamp_toNat]; omega

theorem clamp_idem (b : Word) : clamp (clamp b) = clamp b := by
  apply BitVec.eq_of_toNat_eq
  rw [clamp_toNat (clamp b), clamp_toNat b]
  have := Nat.mod_lt (b.toNat / 8) (by decide +kernel : 0 < 2 ^ 251)
  omega

/-- `L` does not divide a clamped scalar, so `[k]B` is never the neutral point (R181). -/
theorem keyPoint_ne_neutral (kb : Word) : smul (keyScalar kb) basePoint ≠ neutralPoint := by
  rw [Ne, smul_base_eq_neutral_iff]
  have hk : keyScalar kb = 8 * (2 ^ 251 + kb.toNat / 8 % 2 ^ 251) := by
    rw [keyScalar, clamp_toNat]; omega
  have := Nat.mod_lt (kb.toNat / 8) (by decide +kernel : 0 < 2 ^ 251)
  rw [hk]
  intro h
  have h2 := (Nat.Coprime.dvd_mul_left (by decide +kernel : Nat.Coprime groupOrder 8)).1 h
  have h3 := Nat.le_of_dvd (by omega) h2
  have : groupOrder ≥ 2 ^ 252 := by decide +kernel
  omega

/-- A curve point is neutral where its y-coordinate is 1 (R150). -/
theorem eq_neutral_of_y {P : Point} (hP : OnCurve P) (hy : P.y = 1) : P = neutralPoint := by
  have := fact_prime
  have hx := x_eq_zero_of_sq hP (by rw [hy, show toF 1 = 1 from Nat.cast_one, one_pow])
  rw [toF_eq_zero hP.x_lt] at hx
  cases P
  simp only at hx hy
  subst hx hy
  rfl

/-- The map to the Montgomery curve and back, with the parity of x (R159). -/
theorem m2e_e2m {P : Point} (hP : OnCurve P) (hy : P.y ≠ 1) : m2e (fenc (e2m P)) (decide (P.x % 2 = 1)) = some P := by
  have := fact_prime
  have h1 : toF 1 = 1 := Nat.cast_one
  have hu : fdec (fenc (e2m P)) = e2m P := fdec_fenc_of_lt (fmul_lt _ _)
  have hyF : 1 - toF P.y ≠ 0 := by
    intro h
    apply hy
    apply toF_inj hP.y_lt (by decide +kernel : 1 < fieldPrime)
    rw [h1]; linear_combination -h
  have huF : toF (e2m P) * (1 - toF P.y) = 1 + toF P.y := by
    rw [e2m, toF_fmul, toF_finv, toF_fadd, toF_fsub, h1, mul_assoc, inv_mul_cancel₀ hyF, mul_one]
  have hne : e2m P ≠ fieldPrime - 1 := by
    intro h
    rw [h, toF_pred] at huF
    exact two_ne_zero' (by linear_combination -huF)
  have hsum : toF (e2m P) + 1 ≠ 0 := by
    intro h
    apply two_ne_zero'
    have : toF (e2m P) = -1 := by linear_combination h
    rw [this] at huF; linear_combination -huF
  have hyy : fmul (fsub (e2m P) 1) (finv (fadd (e2m P) 1)) = P.y := by
    apply toF_inj (fmul_lt _ _) hP.y_lt
    rw [toF_fmul, toF_finv, toF_fadd, toF_fsub, h1, ← div_eq_mul_inv, div_eq_iff hsum]
    linear_combination huF
  rw [m2e, hu, if_neg hne, hyy, pdec, fdec_withTopBit, topBit_withTopBit, fdec_fenc_of_lt hP.y_lt]
  exact recoverX_of_onCurve hP _ fun _ => rfl

/-- The verification equation of an honest signature: `[S]B − [h][k]B = [r]B` where `S = r + h·k` modulo `L` (R190 (a)). -/
theorem doubleSmul_sign (r h k : Nat) :
    doubleSmul ((r + h * k) % groupOrder) h (smul k basePoint) = smul r basePoint := by
  have hB := base_onCurve
  have hhk := smul_onCurve hB (h * k)
  rw [doubleSmul, smul_base_mod, ← smul_mul hB, mul_comm k h, smul_add hB,
    padd_assoc (smul_onCurve hB r) hhk (pneg_onCurve hhk), padd_pneg hhk, padd_neutral (smul_onCurve hB r)]

end Sys2Proof.Laws
end

