-- ==== Sys2Proof/Laws/SpecTerms.lean ====
section
/-! SUPPORT. The mathematics as the claims write it (Sys2Proof/Safety.lean) and as the meanings compute it are the same: registers as field
elements, points by their equations, the ladder without its swap bit. -/

-- One theorem at a time: each evaluation in the kernel waits for the theorems before it, and would hold a thread while it waits.
set_option Elab.async false

namespace Sys2Proof.Laws

open Machine

theorem fieldValue_eq (b : Word) : fieldValue b = toF (fdec b) := by rw [fdec, toF_mod]; rfl

theorem holdsField_fenc (v : Nat) : HoldsField (fenc v) (toF v) := by
  rw [HoldsField, fenc_toNat]
  exact ⟨Nat.mod_lt _ fieldPrime_pos, toF_mod v⟩

theorem scalarWord_toNat (v : Nat) : (scalarWord v).toNat = v % groupOrder := by
  have h1 := Nat.mod_lt v (by decide +kernel : 0 < groupOrder)
  have h2 : groupOrder < 2 ^ 256 := by decide +kernel
  rw [scalarWord, BitVec.toNat_ofNat]
  exact Nat.mod_eq_of_lt (h1.trans h2)

theorem holdsScalar_scalarWord (v : Nat) : HoldsScalar (scalarWord v) v := scalarWord_toNat v

theorem isPoint_iff (P : Point) : IsPoint P ↔ OnCurve P := by
  have := fact_prime
  rw [onCurve_iff]
  exact ⟨fun ⟨a, b, c⟩ => ⟨a, b, c⟩, fun ⟨a, b, c⟩ => ⟨a, b, c⟩⟩

theorem recoverX_y {y : Nat} {s : Bool} {P : Point} (h : recoverX y s = some P) : P.y = y := by
  unfold recoverX at h
  split at h
  · obtain rfl := Option.some.inj h; rfl
  · split at h
    · cases h
    · obtain rfl := Option.some.inj h; rfl

theorem recoverX_parity {y : Nat} {s : Bool} {P : Point} (h : recoverX y s = some P) (hx : P.x ≠ 0) : P.x % 2 = s.toNat := by
  unfold recoverX at h
  split at h
  · obtain rfl := Option.some.inj h; exact absurd rfl hx
  · split at h
    · cases h
    · rename_i r hr
      obtain rfl := Option.some.inj h
      exact rootOfParity_parity (fsqrt_sound hr).2

theorem topBit_toNat (b : Word) : (topBit b).toNat = b.toNat / 2 ^ 255 := by
  rw [topBit_eq]
  have := b.isLt
  by_cases h : 2 ^ 255 ≤ b.toNat
  · rw [decide_eq_true h]; simp only [Bool.toNat_true]; omega
  · rw [decide_eq_false h]; simp only [Bool.toNat_false]; omega

theorem eq_decide_of_toNat {s : Bool} {n : Nat} (h : n % 2 = s.toNat) : s = decide (n % 2 = 1) := by
  cases s <;> simp_all

/-- What a register decodes to (R152). -/
theorem decodesTo_iff (b : Word) (P : Point) : DecodesTo b P ↔ pdec b = some P := by
  constructor
  · rintro ⟨hp, hy, hs⟩
    have hP := (isPoint_iff P).1 hp
    rw [fieldValue_eq] at hy
    have hyy : fdec b = P.y := toF_inj (fdec_lt b) hP.y_lt hy.symm
    rw [pdec, hyy]
    refine recoverX_of_onCurve hP _ fun hx => eq_decide_of_toNat ?_
    rw [topBit_toNat]; exact hs hx
  · intro h
    refine ⟨(isPoint_iff P).2 (pdec_onCurve h), ?_, fun hx => ?_⟩
    · rw [fieldValue_eq, Point.py, recoverX_y h]; rfl
    · rw [← topBit_toNat]; exact recoverX_parity h hx

theorem pdec_eq_none_iff (b : Word) : pdec b = none ↔ ∀ P, ¬DecodesTo b P := by
  constructor
  · intro h P hP
    rw [decodesTo_iff, h] at hP; cases hP
  · intro h
    cases hd : pdec b with
    | none => rfl
    | some P => exact absurd ((decodesTo_iff b P).2 hd) (h P)

/-- The sum of two curve points (R153). -/
theorem isSum_padd {P Q : Point} (hP : OnCurve P) (hQ : OnCurve Q) : IsSum P Q (padd P Q) := by
  have := fact_prime
  obtain ⟨_, _, hx, hy⟩ := padd_eqs hP hQ
  exact ⟨(isPoint_iff _).2 (padd_onCurve hP hQ), hx, hy⟩

/-- The u-coordinate of a point (R158). -/
theorem uOf_eq (P : Point) : uOf P = toF (e2m P) := by
  have := fact_prime
  rw [e2m, toF_fmul, toF_finv, toF_fadd, toF_fsub, show toF 1 = 1 from Nat.cast_one]
  rfl

/-- The Edwards point over a u-coordinate (R159). -/
theorem overU_iff (ub : Word) (s : Bool) (P : Point) : OverU (fieldValue ub) s P ↔ m2e ub s = some P := by
  have := fact_prime
  have h1 : toF 1 = 1 := Nat.cast_one
  have hpred : fdec ub = fieldPrime - 1 ↔ toF (fdec ub) + 1 = 0 := by
    rw [← toF_eq_iff (fdec_lt ub) (by decide +kernel : fieldPrime - 1 < fieldPrime), toF_pred, eq_neg_iff_add_eq_zero]
  have hquot : toF (fmul (fsub (fdec ub) 1) (finv (fadd (fdec ub) 1))) = (toF (fdec ub) - 1) / (toF (fdec ub) + 1) := by
    rw [toF_fmul, toF_finv, toF_fadd, toF_fsub, h1, div_eq_mul_inv]
  have hbit : (withTopBit (fenc (fmul (fsub (fdec ub) 1) (finv (fadd (fdec ub) 1)))) s).toNat / 2 ^ 255 = s.toNat := by
    rw [← topBit_toNat, topBit_withTopBit]
  have hval : fieldValue (withTopBit (fenc (fmul (fsub (fdec ub) 1) (finv (fadd (fdec ub) 1)))) s)
      = (toF (fdec ub) - 1) / (toF (fdec ub) + 1) := by
    rw [fieldValue_eq, fdec_withTopBit, fdec_fenc_of_lt (fmul_lt _ _), hquot]
  rw [m2e]
  by_cases hne : fdec ub = fieldPrime - 1
  · rw [if_pos hne]
    constructor
    · rintro ⟨_, hy, _⟩
      have h0 := hpred.1 hne
      rw [fieldValue_eq, h0, mul_zero] at hy
      exact absurd (by linear_combination h0 + hy) two_ne_zero'
    · intro h; cases h
  · have hsum : toF (fdec ub) + 1 ≠ 0 := fun h => hne (hpred.2 h)
    rw [if_neg hne, ← decodesTo_iff]
    constructor
    · rintro ⟨hp, hy, hs⟩
      refine ⟨hp, ?_, ?_⟩
      · rw [hval, eq_div_iff hsum, ← fieldValue_eq]; exact hy
      · rw [hbit]; exact hs
    · rintro ⟨hp, hy, hs⟩
      refine ⟨hp, ?_, ?_⟩
      · rw [hval, eq_div_iff hsum, ← fieldValue_eq] at hy; exact hy
      · rw [hbit] at hs; exact hs

/-- The running points of a ladder state, the pending swap undone, as pairs of field elements. -/
def running (q : LadderPair) : Proj × Proj :=
  ((toF (ladderSwap q.swap q).x2, toF (ladderSwap q.swap q).z2), (toF (ladderSwap q.swap q).x3, toF (ladderSwap q.swap q).z3))

theorem toF_a24 : toF a24 = 121665 := by norm_num [toF, a24]

theorem running_step (k x1 t : Nat) (q : LadderPair) :
    running (ladderStep k x1 t q) = ladderBit (toF x1) (running q) (k.testBit t) := by
  unfold ladderStep running
  rw [ladderSwap_xor]
  generalize ladderSwap q.swap q = r
  cases k.testBit t <;>
    simp only [ladderBit, ladderSwap, ladderArith, ladderDouble, ladderAdd, toF_fmul, toF_fsqr, toF_fadd, toF_fsub, toF_a24,
      if_true, if_false, Bool.false_eq_true]

theorem running_loop (k x1 n : Nat) (q : LadderPair) :
    running (ladderLoop k x1 n q) = (List.range n).foldr (fun t r => ladderBit (toF x1) r (k.testBit t)) (running q) := by
  induction n generalizing q with
  | zero => rfl
  | succ t ih =>
    rw [ladderLoop, ih, running_step, List.range_succ, List.foldr_append]
    rfl

/-- The ladder of R141 as the claims write it. -/
theorem holdsField_ladder (kb ub : Word) : HoldsField (ladder kb ub) (ladderValue (kb.toNat % 2 ^ 255) (fieldValue ub)) := by
  have := fact_prime
  have h := running_loop (kb.toNat % 2 ^ 255) (fdec ub) 255 ⟨1, 0, fdec ub, 1, false⟩
  have h2 : ladderValue (kb.toNat % 2 ^ 255) (fieldValue ub)
      = (running (ladderLoop (kb.toNat % 2 ^ 255) (fdec ub) 255 ⟨1, 0, fdec ub, 1, false⟩)).1.1
        * (running (ladderLoop (kb.toNat % 2 ^ 255) (fdec ub) 255 ⟨1, 0, fdec ub, 1, false⟩)).1.2⁻¹ := by
    rw [h, fieldValue_eq, ladderValue]
    simp only [running, ladderSwap, Bool.false_eq_true, if_false, show toF 1 = 1 from Nat.cast_one, show toF 0 = 0 from Nat.cast_zero]
  rw [h2, ladder]
  have h3 := holdsField_fenc (fmul (ladderSwap (ladderLoop (kb.toNat % 2 ^ 255) (fdec ub) 255 ⟨1, 0, fdec ub, 1, false⟩).swap
      (ladderLoop (kb.toNat % 2 ^ 255) (fdec ub) 255 ⟨1, 0, fdec ub, 1, false⟩)).x2
      (finv (ladderSwap (ladderLoop (kb.toNat % 2 ^ 255) (fdec ub) 255 ⟨1, 0, fdec ub, 1, false⟩).swap
      (ladderLoop (kb.toNat % 2 ^ 255) (fdec ub) 255 ⟨1, 0, fdec ub, 1, false⟩)).z2))
  rw [toF_fmul, toF_finv] at h3
  exact h3

end Sys2Proof.Laws
end

