-- ==== Sys2Proof/Laws/Results.lean ====
section
/-! SUPPORT. The results of commands in the terms of the claims: what a register holds after a result is written to it, what a point operand is,
bytes of pairs and of the attached signature, and signing and verifying as the claims say them. -/

-- One theorem at a time: each evaluation in the kernel waits for the theorems before it, and would hold a thread while it waits.
set_option Elab.async false

namespace Sys2Proof.Laws

open Machine

/-! ### Field results -/

/-- A command that writes a field element (R21, R101). -/
theorem setField_result (s : State) (rd : Reg) (v : Nat) (x : GFp) (h : toF v = x) :
    ∃ t, finish flagTrue (s.setField rd v) = .next t ∧ WritesOnly [rd] true s t ∧ HoldsField (t.reg rd) x := by
  obtain ⟨t, h1, h2, h3⟩ := finish_setReg true s rd (fenc v)
  exact ⟨t, h1, h2, by rw [h3, ← h]; exact holdsField_fenc v⟩

theorem wordByte_toNat (b : Word) (j : Nat) : (wordByte b j).toNat = b.toNat / 2 ^ (8 * j) % 256 := by
  rw [wordByte, BitVec.extractLsb'_toNat, Nat.shiftRight_eq_div_pow]

theorem fenc_zero : fenc 0 = 0#256 := by decide +kernel

/-- The base u-coordinate as a register's value (R11). -/
theorem fieldValue_uBase : fieldValue (BitVec.ofNat 256 uBase) = 9 := by
  rw [fieldValue_eq, show fdec (BitVec.ofNat 256 uBase) = 9 from by decide +kernel]; norm_num [toF]

/-! ### Points -/

theorem holdsPoint_penc {P : Point} (h : P.y < fieldPrime) : HoldsPoint (penc P) P := penc_toNat h

theorem penc_of_holdsPoint {b : Word} {P : Point} (h : P.y < fieldPrime) (hb : HoldsPoint b P) : b = penc P :=
  BitVec.eq_of_toNat_eq (by rw [penc_toNat h]; exact hb)

/-- A command that writes a point (R21, R151). -/
theorem setPoint_result (s : State) (rd : Reg) {P : Point} (h : P.y < fieldPrime) :
    ∃ t, finish flagTrue (s.setPoint rd P) = .next t ∧ WritesOnly [rd] true s t ∧ HoldsPoint (t.reg rd) P := by
  obtain ⟨t, h1, h2, h3⟩ := finish_setReg true s rd (penc P)
  exact ⟨t, h1, h2, by rw [h3]; exact holdsPoint_penc h⟩

theorem pointOp_some {s : State} {r : Reg} {P : Point} (h : DecodesTo (s.reg r) P) : s.pointOp r = some P :=
  (decodesTo_iff _ _).1 h

theorem pointOp_none {s : State} {r : Reg} (h : ∀ P, ¬DecodesTo (s.reg r) P) : s.pointOp r = none :=
  (pdec_eq_none_iff _).2 h

theorem decodesTo_penc {P : Point} (hP : OnCurve P) : DecodesTo (penc P) P := (decodesTo_iff _ _).2 (pdec_penc hP)

theorem isNeg_pneg {P : Point} (h : OnCurve P) : IsNeg P (pneg P) :=
  ⟨(isPoint_iff _).2 (pneg_onCurve h), toF_neg _ h.x_lt, rfl⟩

theorem isNeg_unique {P N : Point} (hP : OnCurve P) (h : IsNeg P N) : N = pneg P := by
  have oN := (isPoint_iff _).1 h.point
  refine point_ext oN (pneg_onCurve hP) ?_
  have := fact_prime
  rw [pt_pneg hP.x_lt]
  exact Prod.ext h.x (by show toF N.y = toF P.y; rw [h.y])

theorem isSum_unique {P Q R : Point} (hP : OnCurve P) (hQ : OnCurve Q) (h : IsSum P Q R) : R = padd P Q := by
  have := fact_prime
  have oR := (isPoint_iff _).1 h.point
  obtain ⟨a, b, c, d⟩ := padd_eqs hP hQ
  refine point_ext oR (padd_onCurve hP hQ) (Prod.ext ?_ ?_)
  · exact mul_right_cancel₀ a (h.x.trans c.symm)
  · exact mul_right_cancel₀ b (h.y.trans d.symm)

theorem isDouble_iff {s h : Nat} {A Q : Point} (hA : OnCurve A) : IsDoubleMultiple s h A Q ↔ Q = doubleSmul s h A := by
  have o1 := smul_onCurve hA h
  have o2 := smul_onCurve base_onCurve s
  unfold IsDoubleMultiple doubleSmul
  simp only [← smul_eq_sumOf hA, ← smul_eq_sumOf base_onCurve]
  constructor
  · rintro ⟨N, hN, hS⟩
    obtain rfl := isNeg_unique o1 hN
    exact isSum_unique o2 (pneg_onCurve o1) hS
  · rintro rfl
    exact ⟨_, isNeg_pneg o1, isSum_padd o2 (pneg_onCurve o1)⟩

theorem doubleSmul_onCurve (s h : Nat) {A : Point} (hA : OnCurve A) : OnCurve (doubleSmul s h A) :=
  padd_onCurve (smul_onCurve base_onCurve s) (pneg_onCurve (smul_onCurve hA h))

theorem topBit_dec (b : Word) : topBit b = decide (b.toNat / 2 ^ 255 = 1) := by
  have h := topBit_toNat b
  cases hb : topBit b <;> rw [hb] at h <;> simp at h <;> simp [← h]

/-! ### The ladder from the base point -/

theorem e2m_lt (P : Point) : e2m P < fieldPrime := fmul_lt _ _

theorem e2m_base : e2m basePoint = 9 := by decide +kernel

theorem ladder_base (kb : Word) : ladder kb (BitVec.ofNat 256 uBase) = fenc (e2m (smul (kb.toNat % 2 ^ 255) basePoint)) :=
  ladder_eq_e2m base_onCurve (by rw [e2m_base]; decide +kernel) kb

/-- The u-coordinate of a point is 0 only where its double is the neutral point. -/
theorem e2m_ne_zero {P : Point} (hP : OnCurve P) (h : padd P P ≠ neutralPoint) : e2m P ≠ 0 := by
  have := fact_prime
  intro h0
  have h1 : toF (e2m P) = 0 := by rw [h0]; exact Nat.cast_zero
  rw [← uOf_eq, uOf] at h1
  have hy : toF P.y ^ 2 = 1 := by
    rcases mul_eq_zero.1 h1 with h | h
    · have : toF P.y = -1 := by show P.py = -1; linear_combination h
      rw [this]; ring
    · have : toF P.y = 1 := by
        show P.py = 1
        have := inv_eq_zero.1 h; linear_combination -this
      rw [this]; ring
  apply h
  have hx := x_eq_zero_of_sq hP hy
  apply point_ext (padd_onCurve hP hP) neutral_onCurve
  obtain ⟨_, _, a, b⟩ := padd_eqs hP hP
  rw [hx] at a b
  rw [pt_neutral]
  refine Prod.ext ?_ ?_
  · show toF (padd P P).x = 0; linear_combination a
  · show toF (padd P P).y = 1; linear_combination b + hy

/-- The double of a key's Edwards point is not the neutral point. -/
theorem key_double_ne (kb : Word) : padd (smul (keyScalar kb) basePoint) (smul (keyScalar kb) basePoint) ≠ neutralPoint := by
  rw [← smul_add base_onCurve, Ne, smul_base_eq_neutral_iff]
  intro h
  apply keyPoint_ne_neutral kb
  rw [smul_base_eq_neutral_iff]
  have h2 : groupOrder ∣ 2 * keyScalar kb := by rw [two_mul]; exact h
  exact (Nat.Coprime.dvd_mul_left (by decide +kernel : Nat.Coprime groupOrder 2)).1 h2

/-! ### Pairs and bytes -/

theorem eq_pairHigh {lo hi : Reg} (h0 : lo.val % 2 = 0) (h1 : hi.val = lo.val + 1) : hi = pairHigh lo :=
  Fin.ext (by rw [pairHigh_val (by simp [Reg.isPair, h0]), h1])

theorem memRead_eq (s : State) (n : Nat) : s.memRead 0 n = s.prefixBytes n := by
  simp only [State.memRead, memBytes, State.prefixBytes, Nat.zero_add]; rfl

theorem wordBytes_eq (v : Word) : wordBytes v = registerBytes v := rfl

/-- A byte of a 64-byte value is a byte of one of its halves. -/
theorem extract_lowHalf (v : DWord) (j : Nat) (hj : j < 32) : v.extractLsb' (8 * j) 8 = wordByte (lowHalf v) j := by
  apply BitVec.eq_of_getLsbD_eq
  intro i hi
  have : 8 * j + i < 256 := by omega
  simp [wordByte, lowHalf, hi, this]

theorem extract_highHalf (v : DWord) (j : Nat) (hj : j < 32) : v.extractLsb' (8 * (32 + j)) 8 = wordByte (highHalf v) j := by
  apply BitVec.eq_of_getLsbD_eq
  intro i hi
  have : 8 * j + i < 256 := by omega
  have h2 : 8 * (32 + j) + i = 256 + (8 * j + i) := by omega
  simp [wordByte, highHalf, hi, this, h2]

/-- The bytes of a 64-byte value are those of its halves. -/
theorem bytesOf_pair (v : DWord) : bytesOf 64 v = registerBytes (lowHalf v) ++ registerBytes (highHalf v) := by
  have h : List.range 64 = List.range 32 ++ (List.range 32).map (32 + ·) := by decide
  rw [bytesOf, h, List.map_append, List.map_map]
  refine congrArg₂ _ (List.map_congr_left fun k hk => ?_) (List.map_congr_left fun k hk => ?_)
  · exact extract_lowHalf v k (List.mem_range.1 hk)
  · exact extract_highHalf v k (List.mem_range.1 hk)

theorem memBytes_split (m : Memory) (a n k : Nat) : memBytes m a (n + k) = memBytes m a n ++ memBytes m (a + n) k := by
  rw [memBytes, memBytes, memBytes, List.range_add, List.map_append, List.map_map]
  congr 1
  apply List.map_congr_left
  intro j _
  simp [Function.comp, Nat.add_assoc]

theorem mlen_add (s : State) (h : s.mlen.toNat + 64 ≤ s.msgMax.toNat) : (s.mlen + 64#16).toNat = s.mlen.toNat + 64 := by
  have := s.msgMax.isLt
  rw [BitVec.toNat_add]
  simp; omega

theorem mlen_sub (n : BitVec 16) (h : 64 ≤ n.toNat) : (n - 64#16).toNat = n.toNat - 64 := by
  have := n.isLt
  rw [BitVec.toNat_sub]
  simp; omega

theorem leBytes_append (a b : List Byte) : leBytes (a ++ b) = leBytes a + 256 ^ a.length * leBytes b := by
  induction a with
  | nil => simp [leBytes]
  | cons x r ih => simp only [List.cons_append, leBytes, ih, List.length_cons, pow_succ]; ring

theorem leBytes_registerBytes (v : Word) : leBytes (registerBytes v) = v.toNat := by
  have := leBytes_bytesOf 32 v
  rw [Nat.mod_eq_of_lt (by have := v.isLt; norm_num at *; exact this)] at this
  exact this

/-- The attached signature, by its bytes (R192). -/
theorem attached_eq (s : State) (R S : Word) (h64 : 64 ≤ s.mlen.toNat)
    (h : ∀ j, j < 32 → s.msgByte (s.mlen.toNat - 64 + j) = wordByte R j ∧ s.msgByte (s.mlen.toNat - 32 + j) = wordByte S j) :
    s.attachedSignature = S ++ R := by
  have e : s.memRead (s.mlen.toNat - 64) 64 = registerBytes R ++ registerBytes S := by
    rw [State.memRead, show (64 : Nat) = 32 + 32 from rfl, memBytes_split]
    congr 1
    · apply List.map_congr_left
      intro k hk; exact (h k (List.mem_range.1 hk)).1
    · apply List.map_congr_left
      intro k hk
      have := (h k (List.mem_range.1 hk)).2
      rw [← this, State.msgByte]; congr 1; omega
  apply BitVec.eq_of_toNat_eq
  rw [State.attachedSignature, e, leBytes_append, leBytes_registerBytes, leBytes_registerBytes, BitVec.toNat_ofNat,
    BitVec.toNat_append, ← Nat.shiftLeft_add_eq_or_of_lt R.isLt, Nat.shiftLeft_eq]
  have hl : (registerBytes R).length = 32 := by simp [registerBytes]
  rw [hl]
  have := R.isLt
  have := S.isLt
  rw [Nat.mod_eq_of_lt (by norm_num at *; omega)]
  norm_num; ring

/-! ### Bus data -/

theorem size_le (size : AccessSize) : 1 ≤ size.bytes ∧ size.bytes ≤ 4 := by cases size <;> simp [AccessSize.bytes]

theorem bit_iff (d : BitVec 32) (k : Nat) : d.getLsbD k = true ↔ d.toNat / 2 ^ k % 2 = 1 := by
  rw [BitVec.getLsbD, Nat.testBit_eq_decide_div_mod_eq, decide_eq_true_iff]

theorem leBytes_digit (bs : List Byte) (k : Nat) (h : k < bs.length) : leBytes bs / 2 ^ (8 * k) % 256 = (bs[k]).toNat := by
  induction bs generalizing k with
  | nil => simp at h
  | cons b rest ih =>
    cases k with
    | zero => simp [leBytes]; have := b.isLt; omega
    | succ k =>
      simp only [leBytes, List.getElem_cons_succ]
      rw [← ih k (by simpa using h)]
      have : 2 ^ (8 * (k + 1)) = 256 * 2 ^ (8 * k) := by rw [Nat.mul_succ, pow_add]; norm_num; ring
      rw [this, ← Nat.div_div_eq_div_mul]
      have := b.isLt
      congr 2; omega

/-- Byte `k` of the bus data (R51). -/
theorem busData_digit (bs : List Byte) (hl : bs.length ≤ 4) (k : Nat) (h : k < bs.length) :
    (busData bs).toNat / 2 ^ (8 * k) % 256 = (bs[k]).toNat := by
  have h1 := leBytes_lt bs
  have h2 : 256 ^ bs.length ≤ 256 ^ 4 := Nat.pow_le_pow_right (by decide) hl
  rw [busData, BitVec.toNat_ofNat, Nat.mod_eq_of_lt (lt_of_lt_of_le h1 (h2.trans (by decide))), leBytes_digit _ _ h]

/-! ### Signing and verifying -/

theorem scalarWord_withTop (v : Nat) (b : Bool) : (withTopBit (scalarWord v) b).toNat % 2 ^ 255 = v % groupOrder ∧
    (withTopBit (scalarWord v) b).toNat / 2 ^ 255 = b.toNat := by
  have hL : groupOrder < 2 ^ 255 := by decide +kernel
  have hv := Nat.mod_lt v (by decide +kernel : 0 < groupOrder)
  rw [withTopBit_toNat, scalarWord_toNat]
  generalize groupOrder = L at *
  have : b.toNat < 2 := by cases b <;> decide
  constructor <;> omega

/-- `sign` makes a signature in the sense of the claims (R183). -/
theorem sign_isSignature (kb : Word) (m : List Byte) (rnd : Option DWord) :
    IsSignature kb m (randomBytes rnd) (lowHalf (sign Config.hash Config.pad32 kb m rnd))
      (highHalf (sign Config.hash Config.pad32 kb m rnd)) := by
  have hE := smul_onCurve base_onCurve (keyScalar kb)
  rw [sign]
  rw [lowHalf_append, highHalf_append]
  refine ⟨keyScalar kb, _, _, keyPoint kb, rfl, ?_, rfl, ?_, rfl, ?_, ?_⟩
  · rw [← smul_eq_sumOf base_onCurve]; exact holdsPoint_penc hE.y_lt
  · rw [← smul_eq_sumOf base_onCurve]; exact holdsPoint_penc (smul_onCurve base_onCurve _).y_lt
  · exact (scalarWord_withTop _ _).1
  · rw [(scalarWord_withTop _ _).2, ← smul_eq_sumOf base_onCurve, keyPoint, topBit_penc hE.y_lt]
    by_cases h : (smul (keyScalar kb) basePoint).x % 2 = 1
    · simp [h]
    · simp [h]; omega

/-- Steps 3 to 6 of verification for a decoded `A` (R184). -/
theorem verifyPoint_iff (m : List Byte) (R : Word) (s : Nat) (A : Point) :
    verifyPoint Config.hash m R s A = true ↔
      (∃ P, DecodesTo R P) ∧ penc (doubleSmul s (challenge Config.hash R (penc A) m) A) = R := by
  rw [verifyPoint, Bool.and_eq_true, decide_eq_true_iff, Option.isSome_iff_exists]
  simp only [decodesTo_iff]

/-- `verify` accepts what the claims say is accepted (R184). -/
theorem verify_iff (pb : Word) (m : List Byte) (S R : Word) : verify Config.hash pb m (S ++ R) = true ↔ Accepts pb m R S := by
  rw [verify, highHalf_append, lowHalf_append, Accepts]
  split
  · rename_i h
    simp only [Bool.false_eq_true, false_iff, not_and]
    intro h2; omega
  · rename_i h
    rw [← topBit_dec, Option.any_eq_true]
    simp only [Nat.lt_of_not_ge h, true_and]
    constructor
    · rintro ⟨A, hm, hv⟩
      obtain ⟨hR, h2⟩ := (verifyPoint_iff _ _ _ _).1 hv
      have hA := (overU_iff _ _ _).2 hm
      have oA := (isPoint_iff _).1 hA.point
      have o2 := doubleSmul_onCurve (S.toNat % 2 ^ 255) (challenge Config.hash R (penc A) m) oA
      have hp := holdsPoint_penc o2.y_lt
      rw [h2] at hp
      exact ⟨A, penc A, hA, hR, holdsPoint_penc oA.y_lt, _, (isDouble_iff oA).2 rfl, hp⟩
    · rintro ⟨A, Aenc, hA, hR, hAenc, Q, hQ, hRQ⟩
      have oA := (isPoint_iff _).1 hA.point
      obtain rfl := penc_of_holdsPoint oA.y_lt hAenc
      rw [isDouble_iff oA] at hQ
      have o2 := doubleSmul_onCurve (S.toNat % 2 ^ 255) (challenge Config.hash R (penc A) m) oA
      subst hQ
      exact ⟨A, (overU_iff _ _ _).1 hA, (verifyPoint_iff _ _ _ _).2 ⟨hR, (penc_of_holdsPoint o2.y_lt hRQ).symm⟩⟩

/-- What `sign` makes, `verify` accepts under the key's u-coordinate (the functions of R183, R184). -/
theorem verify_sign (kb : Word) (m : List Byte) (rnd : Option DWord) :
    verify Config.hash (ladder (clamp kb) (BitVec.ofNat 256 uBase)) m (sign Config.hash Config.pad32 kb m rnd) = true := by
  have hE := smul_onCurve base_onCurve (keyScalar kb)
  rw [verify, sign]
  rw [highHalf_append, lowHalf_append, (scalarWord_withTop _ _).1, topBit_withTopBit, ladder_base, clamp_mod]
  rw [if_neg (Nat.not_le.2 (Nat.mod_lt _ (by decide +kernel)))]
  have hy : (smul (keyScalar kb) basePoint).y ≠ 1 := fun h => keyPoint_ne_neutral kb (eq_neutral_of_y hE h)
  have hm := m2e_e2m hE hy
  rw [keyPoint, topBit_penc hE.y_lt]
  rw [keyScalar] at *
  rw [hm, Option.any_some]
  have hr := smul_onCurve base_onCurve (signNonce Config.hash Config.pad32 kb m rnd)
  rw [verifyPoint_iff]
  exact ⟨⟨_, decodesTo_penc hr⟩, congrArg penc (doubleSmul_sign _ _ _)⟩

/-- Multiples of the base point below its order are different. -/
theorem smul_base_inj {a b : Nat} (ha : a < groupOrder) (hb : b < groupOrder) (h : smul a basePoint = smul b basePoint) : a = b := by
  wlog hab : a ≤ b generalizing a b
  · exact (this hb ha h.symm (by omega)).symm
  have hd : groupOrder ∣ b - a := by
    rw [← smul_base_eq_neutral_iff]
    have o := smul_onCurve base_onCurve a
    have o2 := smul_onCurve base_onCurve (b - a)
    have e : smul b basePoint = padd (smul (b - a) basePoint) (smul a basePoint) := by
      rw [← smul_add base_onCurve]; congr 1; omega
    rw [← padd_neutral o2, ← padd_pneg o, ← padd_assoc o2 o (pneg_onCurve o), ← e, ← h]
  have := Nat.eq_zero_of_dvd_of_lt hd (by omega)
  omega

end Sys2Proof.Laws
end

