-- ==== Sys2Proof/Tests/Slice0.lean ====
section
/-! SUPPORT. The model's own tests, each a small theorem about one word or one step, and the witnesses of the statements' hypotheses. The expected values are the spec's: the
examples of the command rules, spec/95_test_vectors.md and spec/opcode_table.json. -/

namespace Sys2Proof.Tests

-- One theorem at a time: each evaluation in the kernel waits for the ones before it, and would hold a thread while it waits.
set_option Elab.async false

open Machine Laws

/-! ### Helpers -/

/-- p − 1 -/
def p_1 : Word := 0x7fffffffffffffffffffffffffffffffffffffffffffffffffffffffffffffec#256
/-- 32 bytes ff -/
def ones : Word := 0xffffffffffffffffffffffffffffffffffffffffffffffffffffffffffffffff#256
/-- 32 bytes aa, an old value -/
def old : Word := 0xaaaaaaaaaaaaaaaaaaaaaaaaaaaaaaaaaaaaaaaaaaaaaaaaaaaaaaaaaaaaaaaa#256
/-- the base point -/
def ptB : Word := 0x6666666666666666666666666666666666666666666666666666666666666658#256
/-- its negative -/
def ptNegB : Word := 0xe666666666666666666666666666666666666666666666666666666666666658#256
/-- 2B, encoded -/
def pt2B : Word := 0x2260cdf3092329c21da25ee8c9a21f5697390f51643851560e5f46ae6af8a3c9#256
/-- 3B, encoded -/
def pt3B : Word := 0x1267b1d177ee69aba126a18e60269ef79f16ec176724030402c3684878f5b4d4#256
/-- a point of order 8 -/
def pt8 : Word := 0x5fc536d880238b13933c6d305acdfd5f098eff289f4c345b027b2c28f95e826#256
/-- the private key of the all-zero seed -/
def keyA : Word := 0x4000000000000000000000000000000000000000000000000000000000000000#256
/-- its public key -/
def pubA : Word := 0x743bcb585f9990edc2cfc4af84f6ff300729bb5facda28154362cd47a37de52f#256
/-- its Edwards point -/
def encA : Word := 0xd11144a03a99b8559991e1b02adb476f022f82391bad83787c52af2c97473e69#256
/-- R of the signature of 01 02 03 04 05 under keyA -/
def sigR : Word := 0xe9f18c02f803bc78ea0f86fdcffc9e56e1cf077a5530c21745b7b3a8d3aae4dd#256
/-- its S -/
def sigS : Word := 0x862076b2b61fddbada51eb14c855b36d8ad93cddeb4abaa7daff167194f5a5c5#256
/-- L -/
def ordL : Word := 0x1000000000000000000000000000000014def9dea2f79cd65812631a5cf5d3ed#256
/-- I -/
def rootI : Word := 0x2b8324804fc1df0b2b4d00993dfbd7a72f431806ad2fe478c4ee1b274a0ea0b0#256

/-- The reset state with some registers loaded, a message length and the first bytes of the message. -/
def loaded (rs : List (Reg × Word)) (mlen : BitVec 16 := 0#16) (bs : List Byte := []) : State :=
  (((rs.foldl (fun s r => s.setReg r.1 r.2) State.reset).memWrite 0 bs).setMlen mlen)

/-- Whether the command word `w`, run as the next step from `s`, ends with `STATUS = status`, the registers `rs` and the others as they were. -/
def gives (w : Nat) (s : State) (status : Nat) (rs : List (Reg × Word)) : Bool :=
  match step (s.withFetchWord 32 w) with
  | .next t => t.statusWord.toNat == status &&
      (List.finRange 16).all fun i => t.reg i == ((rs.lookup i).getD (s.reg i))
  | .fault _ => false
  | .refused _ => false

/-- The same for `MLEN` and the bytes of the message from 0 upward. -/
def givesMsg (w : Nat) (s : State) (status mlen : Nat) (bs : List Byte) : Bool :=
  match step (s.withFetchWord 32 w) with
  | .next t => t.statusWord.toNat == status && t.mlen.toNat == mlen && t.memRead 0 bs.length == bs
  | .fault _ => false
  | .refused _ => false

/-! ### WellFormed: an odd pair field is refused, one term for each check -/

theorem test_ill_formed_sred : ¬(Instr.WellFormed (.sred 1 3)) := by decide
theorem test_ill_formed_genkey : ¬(Instr.WellFormed (.genkey 3 1)) := by decide
theorem test_ill_formed_sign : ¬(Instr.WellFormed (.sign 3 1)) := by decide
theorem test_ill_formed_signr_rd : ¬(Instr.WellFormed (.signr 3 1 4)) := by decide
theorem test_ill_formed_signr_rs2 : ¬(Instr.WellFormed (.signr 2 1 5)) := by decide
theorem test_ill_formed_verify : ¬(Instr.WellFormed (.verify 3 5)) := by decide
theorem test_well_formed : (Instr.sred 1 2).WellFormed ∧ (Instr.signr 2 1 4).WellFormed ∧ (Instr.verify 3 4).WellFormed := by decide

/-! ### Decoding: the example word of every command rule, bit by bit from R80 and R86; the masks of the opcode table -/

theorem test_decode_system :
    decode 0x00000000#32 = .ok (.nop) ∧
    decode 0x00000001#32 = .ok (.zeroize) := by decide
theorem test_encode_system :
    encode (.nop) = 0x00000000#32 ∧
    encode (.zeroize) = 0x00000001#32 := by decide
theorem test_decode_field :
    decode 0x00021310#32 = .ok (.fadd 3 1 2) ∧
    decode 0x00021311#32 = .ok (.fsub 3 1 2) ∧
    decode 0x00021312#32 = .ok (.fmul 3 1 2) ∧
    decode 0x00001213#32 = .ok (.fsqr 2 1) ∧
    decode 0x00001214#32 = .ok (.finv 2 1) ∧
    decode 0x00032115#32 = .ok (.fcswap 1 2 3) ∧
    decode 0x00001216#32 = .ok (.fcan 2 1) := by decide
theorem test_encode_field :
    encode (.fadd 3 1 2) = 0x00021310#32 ∧
    encode (.fsub 3 1 2) = 0x00021311#32 ∧
    encode (.fmul 3 1 2) = 0x00021312#32 ∧
    encode (.fsqr 2 1) = 0x00001213#32 ∧
    encode (.finv 2 1) = 0x00001214#32 ∧
    encode (.fcswap 1 2 3) = 0x00032115#32 ∧
    encode (.fcan 2 1) = 0x00001216#32 := by decide
theorem test_decode_scalar :
    decode 0x00001220#32 = .ok (.sclamp 2 1) ∧
    decode 0x00002121#32 = .ok (.sred 1 2) ∧
    decode 0x00432122#32 = .ok (.smuladd 1 2 3 4) ∧
    decode 0x00021023#32 = .ok (.seq 1 2) ∧
    decode 0x00001024#32 = .ok (.sltl 1) := by decide
theorem test_encode_scalar :
    encode (.sclamp 2 1) = 0x00001220#32 ∧
    encode (.sred 1 2) = 0x00002121#32 ∧
    encode (.smuladd 1 2 3 4) = 0x00432122#32 ∧
    encode (.seq 1 2) = 0x00021023#32 ∧
    encode (.sltl 1) = 0x00001024#32 := by decide
theorem test_decode_montgomery :
    decode 0x00021330#32 = .ok (.ladder 3 1 2) ∧
    decode 0x00001231#32 = .ok (.ladderb 2 1) := by decide
theorem test_encode_montgomery :
    encode (.ladder 3 1 2) = 0x00021330#32 ∧
    encode (.ladderb 2 1) = 0x00001231#32 := by decide
theorem test_decode_edwards :
    decode 0x00021340#32 = .ok (.padd 3 1 2) ∧
    decode 0x00001241#32 = .ok (.pdbl 2 1) ∧
    decode 0x00001242#32 = .ok (.psmulb 2 1) ∧
    decode 0x00321443#32 = .ok (.pdsmul 4 1 2 3) ∧
    decode 0x00001244#32 = .ok (.pdec 2 1) ∧
    decode 0x00001245#32 = .ok (.e2m 2 1) ∧
    decode 0x00021346#32 = .ok (.m2e 3 1 2) := by decide
theorem test_encode_edwards :
    encode (.padd 3 1 2) = 0x00021340#32 ∧
    encode (.pdbl 2 1) = 0x00001241#32 ∧
    encode (.psmulb 2 1) = 0x00001242#32 ∧
    encode (.pdsmul 4 1 2 3) = 0x00321443#32 ∧
    encode (.pdec 2 1) = 0x00001244#32 ∧
    encode (.e2m 2 1) = 0x00001245#32 ∧
    encode (.m2e 3 1 2) = 0x00021346#32 := by decide
theorem test_decode_protocol :
    decode 0x00001250#32 = .ok (.genkey 2 1) ∧
    decode 0x00021351#32 = .ok (.shared 3 1 2) ∧
    decode 0x00001252#32 = .ok (.sign 2 1) ∧
    decode 0x00041253#32 = .ok (.signr 2 1 4) ∧
    decode 0x00043054#32 = .ok (.verify 3 4) ∧
    decode 0x00001055#32 = .ok (.signmsg 1) ∧
    decode 0x00003056#32 = .ok (.openmsg 3) := by decide
theorem test_encode_protocol :
    encode (.genkey 2 1) = 0x00001250#32 ∧
    encode (.shared 3 1 2) = 0x00021351#32 ∧
    encode (.sign 2 1) = 0x00001252#32 ∧
    encode (.signr 2 1 4) = 0x00041253#32 ∧
    encode (.verify 3 4) = 0x00043054#32 ∧
    encode (.signmsg 1) = 0x00001055#32 ∧
    encode (.openmsg 3) = 0x00003056#32 := by decide
/-- `FADD` with the fields 10, 11, 12 written out in binary: zero, rs3, rs2, rs1, rd, opcode (R80). -/
theorem test_decode_bits : decode (0b00000000#8 ++ 0b0000#4 ++ 0b1100#4 ++ 0b1011#4 ++ 0b1010#4 ++ 0b00010000#8) = .ok (.fadd 10 11 12) := by decide

/-- The bits a line fixes, as a mask. -/
def maskOf (op : Nat) : Option Nat :=
  (opRow op).map fun r =>
    0xFF0000FF + (if r.rd = .unused then 0xF00 else 0) + (if r.rs1 = .unused then 0xF000 else 0)
      + (if r.rs2 = .unused then 0xF0000 else 0) + (if r.rs3 = .unused then 0xF00000 else 0)

/-- The masks of spec/opcode_table.json, part 1. -/
theorem test_table_masks_1 : ∀ r ∈ ([
    (0x00, 0xffffffff), (0x01, 0xffffffff), (0x10, 0xfff000ff), (0x11, 0xfff000ff),
    (0x12, 0xfff000ff), (0x13, 0xffff00ff), (0x14, 0xffff00ff), (0x15, 0xfff000ff),
    (0x16, 0xffff00ff), (0x20, 0xffff00ff), (0x21, 0xffff00ff), (0x22, 0xff0000ff),
    (0x23, 0xfff00fff), (0x24, 0xffff0fff), (0x30, 0xfff000ff), (0x31, 0xffff00ff)] : List (Nat × Nat)), maskOf r.1 = some r.2 := by decide
/-- The masks of spec/opcode_table.json, part 2. -/
theorem test_table_masks_2 : ∀ r ∈ ([
    (0x40, 0xfff000ff), (0x41, 0xffff00ff), (0x42, 0xffff00ff), (0x43, 0xff0000ff),
    (0x44, 0xffff00ff), (0x45, 0xffff00ff), (0x46, 0xfff000ff), (0x50, 0xffff00ff),
    (0x51, 0xfff000ff), (0x52, 0xffff00ff), (0x53, 0xfff000ff), (0x54, 0xfff00fff),
    (0x55, 0xffff0fff), (0x56, 0xffff0fff)] : List (Nat × Nat)), maskOf r.1 = some r.2 := by decide
theorem test_table_words : decodeTableWord 32 0x00432122 = some (.smuladd 1 2 3 4) ∧ decodeTableWord 24 0x041253 = some (.signr 2 1 4) ∧
    decodeTableWord 32 0x01000000 = none ∧ decodeTableWord 32 0x000000FF = none := by decide

/-- Part 2.1 of the vectors: the words of one error each, and their order. -/
theorem test_errors_illop : gives 0xFF State.reset 0x102 [] ∧ gives 0x02 State.reset 0x102 [] ∧ gives 0x17 State.reset 0x102 [] ∧
    gives 0x57 State.reset 0x102 [] ∧ gives 0xFF123477 State.reset 0x102 [] := by decide +kernel
theorem test_errors_rsvd : gives 0x01000000 State.reset 0x202 [] ∧ gives 0x100 State.reset 0x202 [] ∧ gives 0x00121310 State.reset 0x202 [] ∧
    gives 0x00021123 State.reset 0x202 [] ∧ gives 0x00011352 (loaded [] 5000#16) 0x202 [] := by decide +kernel
theorem test_errors_pair : gives 0x1350 State.reset 0x302 [] ∧ gives 0x3121 State.reset 0x302 [] ∧ gives 0x53054 State.reset 0x302 [] ∧
    gives 0x1352 (loaded [] 5000#16) 0x302 [] := by decide +kernel
theorem test_errors_mlen : givesMsg 0x1252 (loaded [] 4097#16) 0x402 4097 [] ∧ givesMsg 0x1055 (loaded [] 4033#16) 0x402 4033 [] ∧
    givesMsg 0x3056 (loaded [] 65535#16) 0x402 65535 [] ∧ givesMsg 0x43054 (loaded [] 4097#16) 0x402 4097 [] ∧
    givesMsg 0x41253 (loaded [] 4097#16) 0x402 4097 [] := by decide +kernel

/-! ### One step of each command -/

theorem test_nop : gives 0x0 (loaded []) 6 [] := by decide +kernel
theorem test_zeroize : gives 0x1 (loaded [(7, ones)] 65535#16 [1, 2, 3, 4, 5]) 6 [(7, 0#256)] ∧
    givesMsg 0x1 (loaded [(7, ones)] 65535#16 [1, 2, 3, 4, 5]) 6 0 [0, 0, 0, 0, 0] := by decide +kernel
theorem test_fadd : gives 0x21310 (loaded [(1, p_1), (2, 0x2#256)]) 6 [(3, 1#256)] ∧
    gives 0x11110 (loaded [(1, keyA)]) 6 [(1, 0x13#256)] := by decide +kernel
theorem test_fsub : gives 0x21311 (loaded [(1, 0x5#256), (2, 0x7#256)]) 6 [(3, 0x7fffffffffffffffffffffffffffffffffffffffffffffffffffffffffffffeb#256)] ∧
    gives 0x11311 (loaded [(1, ones)]) 6 [(3, 0#256)] := by decide +kernel
theorem test_fmul : gives 0x21312 (loaded [(1, keyA), (2, 0x4#256)]) 6 [(3, 0x26#256)] ∧
    gives 0x21312 (loaded [(1, ones), (2, ones)]) 6 [(3, 0x144#256)] := by decide +kernel
theorem test_fsqr : gives 0x1213 (loaded [(1, rootI)]) 6 [(2, p_1)] := by decide +kernel
theorem test_finv : gives 0x1214 (loaded [(1, 0xffffffffffffffffffffffffffffffffffffffffffffffffffffffffffffffed#256), (2, old)]) 6 [(2, 0#256)] ∧
    gives 0x1114 (loaded [(1, 0x3ffffffffffffffffffffffffffffffffffffffffffffffffffffffffffffff7#256)]) 6 [(1, 0x2#256)] := by decide +kernel
theorem test_fcswap : gives 0x12115 (loaded [(1, 1#256), (2, ones)]) 6 [(1, ones), (2, 1#256)] ∧
    gives 0x32115 (loaded [(1, 1#256), (2, ones), (3, 0x2#256)]) 6 [] ∧
    gives 0x21115 (loaded [(1, 1#256), (2, ones)]) 6 [] := by decide +kernel
theorem test_fcan : gives 0x1216 (loaded [(1, 0xffffffffffffffffffffffffffffffffffffffffffffffffffffffffffffffec#256)]) 6 [(2, p_1)] ∧
    gives 0x1216 (loaded [(1, ones)]) 6 [(2, 0x12#256)] := by decide +kernel
theorem test_sclamp : gives 0x1220 (loaded [(1, ones)]) 6 [(2, 0x7ffffffffffffffffffffffffffffffffffffffffffffffffffffffffffffff8#256)] ∧
    gives 0x1220 (loaded [(1, 0x8000000000000000000000000000000000000000000000000000000000000007#256)]) 6 [(2, keyA)] := by decide +kernel
theorem test_sred : gives 0x2321 (loaded [(3, 1#256)]) 6 [(3, 0xffffffffffffffffffffffffffffffec6ef5bf4737dcf70d6ec31748d98951d#256)] ∧
    gives 0x2121 (loaded [(2, ones), (3, ones)]) 6 [(1, 0x399411b7c309a3dceec73d217f5be65d00e1ba768859347a40611e3449c0f00#256)] := by decide +kernel
theorem test_smuladd : gives 0x432122 (loaded [(2, 0x2#256), (3, 0x3#256), (4, 0x4#256)]) 6 [(1, 0xe#256)] ∧
    gives 0x432122 (loaded [(2, ones), (3, ones), (4, ones)]) 6 [(1, 0x399411b7c309a3dceec73d217f5be671dfdb99197ff60ad252c438913f94dd1#256)] := by decide +kernel
theorem test_seq : gives 0x21023 (loaded [(1, 1#256), (2, 0x8000000000000000000000000000000000000000000000000000000000000001#256)]) 2 [] ∧
    gives 0x55023 (loaded [(5, old)]) 6 [] := by decide +kernel
theorem test_sltl : gives 0x1024 (loaded [(1, ordL)]) 2 [] ∧
    gives 0x1024 (loaded [(1, 0x9000000000000000000000000000000014def9dea2f79cd65812631a5cf5d3ec#256)]) 6 [] := by decide +kernel
theorem test_ladder : gives 0x21330 (loaded [(1, 0x449a44ba44226a50185afcc10a4c1462dd5e46824b15163b9d7c52f06be346a0#256), (2, 0x4c1cabd0a603a9103b35b326ec2466727c5fb124a4c19435db3030586768dbe6#256)]) 6 [(3, 0x5285a2775507b454f7711c4903cfec324f088df24dea948e90c6e99d3755dac3#256)] ∧
    gives 0x21330 (loaded [(1, 0x8000000000000000000000000000000000000000000000000000000000000001#256), (2, ones)]) 6 [(3, 0x12#256)] := by decide +kernel
theorem test_ladderb : gives 0x1231 (loaded [(1, keyA)]) 6 [(2, pubA)] ∧
    gives 0x1231 (loaded [(1, ordL)]) 6 [(2, 0#256)] := by decide +kernel
theorem test_padd : gives 0x21340 (loaded [(1, ptB), (2, 0#256)]) 6 [(3, 0xea6597b61bb3c380f9e4c2a8f03b12a4a2eb3745bdac20b63381207f0acc5252#256)] ∧
    gives 0x21340 (loaded [(1, ptB), (2, 0x2#256), (3, old)]) 2 [] := by decide +kernel
theorem test_pdbl : gives 0x1241 (loaded [(1, ptB)]) 6 [(2, pt2B)] ∧
    gives 0x1241 (loaded [(1, pt8)]) 6 [(2, 0#256)] := by decide +kernel
theorem test_psmulb : gives 0x1242 (loaded [(1, 0x3#256)]) 6 [(2, pt3B)] ∧
    gives 0x1242 (loaded [(1, 0#256)]) 6 [(2, 1#256)] := by decide +kernel
theorem test_pdsmul : gives 0x321443 (loaded [(1, 0x3#256), (2, 1#256), (3, ptB)]) 6 [(4, pt2B)] ∧
    gives 0x321443 (loaded [(1, 1#256), (3, 0x2#256), (4, old)]) 2 [] := by decide +kernel
theorem test_pdec : gives 0x1244 (loaded [(1, ones)]) 6 [(2, 0x8000000000000000000000000000000000000000000000000000000000000012#256)] ∧
    gives 0x1244 (loaded [(1, 0x7#256), (2, old)]) 2 [] := by decide +kernel
theorem test_e2m : gives 0x1245 (loaded [(1, ptNegB)]) 6 [(2, 0x9#256)] ∧
    gives 0x1245 (loaded [(1, 1#256)]) 6 [(2, 0#256)] := by decide +kernel
theorem test_m2e : gives 0x11346 (loaded [(1, 0x8000000000000000000000000000000000000000000000000000000000000009#256)]) 6 [(3, ptNegB)] ∧
    gives 0x21346 (loaded [(1, 0xffffffffffffffffffffffffffffffffffffffffffffffffffffffffffffffec#256), (3, old)]) 2 [] := by decide +kernel
theorem test_genkey : gives 0x3250 (loaded [(3, ones)]) 6 [(2, 0x7ffffffffffffffffffffffffffffffffffffffffffffffffffffffffffffff8#256), (3, 0x225aaaae538c4d6a3a9d60d113760f5a73a387519560e665f33452372c0d7c84#256)] ∧
    gives 0x1250 (loaded [(1, 0xc000000000000000000000000000000000000000000000000000000000000007#256)]) 6 [(2, keyA), (3, pubA)] := by decide +kernel
theorem test_shared : gives 0x21351 (loaded [(1, 0#256), (2, 0x9a2f809442bdcf99d8cb66ab406d913bba95f9f562c77b978c251b69292e0a4#256)]) 6 [(3, 0x754371e03e535cf6bd4470672c0ce9d26e177e4a3e6f0e11d51cbfc1f42aadad#256)] ∧
    gives 0x21351 (loaded [(1, keyA), (2, p_1)]) 6 [(3, 0#256)] := by decide +kernel

/-! ### Signing and verifying; `H` is a table of the hash values that part 2.7 of the vectors gives -/

/-- The two hash values of the signature vector (part 2.7), by the number of the 69 input bytes. -/
def tableHash (bs : List Byte) : DWord :=
  if bs.length = 69 ∧ leBytes bs = 0x5040302014000000000000000000000000000000000000000000000000000000000000000fffffffffffffffffffffffffffffffffffffffffffffffffffffffffffffffe then
    0xec8f6bec3cbe796312299d8467dd2e8f530a1d96efee5d048783546bf1bc95d33f6b436ca7063ad98f99a7b236a91ebeb7c7036a824ed7ad67335ecc06547fee#512
  else if bs.length = 69 ∧ leBytes bs = 0x504030201d11144a03a99b8559991e1b02adb476f022f82391bad83787c52af2c97473e69e9f18c02f803bc78ea0f86fdcffc9e56e1cf077a5530c21745b7b3a8d3aae4dd then
    0xb1403bd259cce3125bd3a8576c8737177a4204bbeeb99d459837b6604e48d792ad59cf1cd6f619a83e7e853c73aaba5c60d4cb5112f21cd88584c7f8fada910c#512
  else 0#512

/-- The signature of 01 02 03 04 05 under `keyA`, with the padding block of the vectors. -/
theorem test_sign_vector : sign tableHash 0xfffffffffffffffffffffffffffffffffffffffffffffffffffffffffffffffe#256 keyA [1, 2, 3, 4, 5] none
    = sigS ++ sigR := by
  simp only [sign, keyPoint, smul_eq_ext base_onCurve]
  decide +kernel

theorem test_sign_errors : givesMsg 0x1252 (loaded [] 4096#16) 6 4096 [0, 0] ∧ givesMsg 0x1252 (loaded [] 4097#16) 0x402 4097 [0, 0] := by decide +kernel
theorem test_signr_errors : givesMsg 0x41253 (loaded [] 4096#16) 6 4096 [0, 0] ∧ givesMsg 0x41253 (loaded [] 4097#16) 0x402 4097 [0, 0] := by decide +kernel
/-- V13, V15: `S + L` fails the range check, a `u` on the twist has no point. -/
theorem test_verify : gives 0x43054 (loaded [(3, pubA), (4, sigR), (5, 0x962076b2b61fddbada51eb14c855b36d9fb836bc8e42577e3311798bf1eb79b2#256)] 5#16 [1, 2, 3, 4, 5]) 2 [] ∧
    gives 0x43054 (loaded [(3, 2#256), (4, sigR), (5, sigS)] 5#16 [1, 2, 3, 4, 5]) 2 [] := by decide +kernel
theorem test_signmsg : givesMsg 0x1055 (loaded [(1, keyA)] 4033#16 [1, 2]) 0x402 4033 [1, 2] ∧
    gives 0x1055 (loaded [(1, keyA)] 4032#16 [1, 2]) 6 [] := by decide +kernel
/-- A message below 64 bytes is a rejection; a signed message whose last 32 bytes are `S + L` is one too. -/
theorem test_openmsg : givesMsg 0x3056 (loaded [(3, pubA)] 63#16 [1, 2]) 2 0 [1, 2] ∧
    givesMsg 0x3056 (loaded [(3, pubA)] 64#16 (registerBytes sigR ++ registerBytes 0x962076b2b61fddbada51eb14c855b36d9fb836bc8e42577e3311798bf1eb79b2#256)) 2 0
      [0xdd, 0xe4] := by decide +kernel

/-! ### The bus (part 2.6 of the vectors) -/

theorem test_register_window : (State.reset.busWrite 0x0224#16 .word 0x44332211#32).busRead 0x0227#16 .byte = .read .ok 0x44#32 ∧
    (State.reset.busWrite 0x0224#16 .word 0x44332211#32).reg 1 = 0x4433221100000000#256 ∧
    (State.reset.busWrite 0x03FE#16 .half 0xBBAA#32).reg 15 = 0xBBAA#256 <<< 240 := by decide +kernel
theorem test_message_window : (State.reset.busWrite 0x1000#16 .word 0x04030201#32).memRead 0 5 = [1, 2, 3, 4, 0] ∧
    (State.reset.busWrite 0x1FFF#16 .byte 0xFF#32).busRead 0x1FFC#16 .word = .read .ok 0xFF000000#32 := by decide +kernel
theorem test_bus_errors : State.reset.busRead 0x0018#16 .word = .read .err 0#32 ∧ State.reset.busRead 0x0400#16 .word = .read .err 0#32 ∧
    State.reset.busRead 0x0202#16 .word = .read .err 0#32 ∧ State.reset.busRead 0x0004#16 .half = .read .err 0#32 ∧
    State.reset.busRead 0x2000#16 .word = .read .err 0#32 ∧ State.reset.busWrite 0x2000#16 .word 1#32 = State.reset := by decide +kernel
theorem test_control_writes : (State.reset.busWrite 0x000C#16 .word 0xABCD1234#32).busRead 0x000C#16 .word = .read .ok 0x1234#32 ∧
    (State.reset.busWrite 0x0008#16 .word 0xFFFFFFFF#32).busRead 0x0008#16 .word = .read .ok 1#32 ∧
    State.reset.busWrite 0x0010#16 .word 0xFFFFFFFF#32 = State.reset ∧ State.reset.busWrite 0x0014#16 .word 0#32 = State.reset := by decide +kernel
/-- Issue of `FADD x3, x1, x2`, then a write of `CMD` while busy: `STATUS` is 1, then 9, and `CMD` keeps the word. -/
theorem test_busy_write : (State.reset.busWrite 0#16 .word 0x21310#32).busRead 0x0004#16 .word = .read .ok 1#32 ∧
    ((State.reset.busWrite 0#16 .word 0x21310#32).busWrite 0#16 .word 0#32).busRead 0x0004#16 .word = .read .ok 9#32 ∧
    ((State.reset.busWrite 0#16 .word 0x21310#32).busWrite 0#16 .word 0#32).cmd = 0x21310#32 ∧
    ((loaded [(0, ones)]).issue 0x21310#32).busRead 0x0200#16 .word = .read .ok 0#32 := by decide +kernel
theorem test_busy_control : ((State.reset.issue 0#32).busWrite 0x0008#16 .word 1#32).statusWord = 1#32 ∧
    ((State.reset.issue 0#32).busWrite 0x0008#16 .word 1#32).ie = true ∧
    ((State.reset.issue 0#32).busWrite 0x000C#16 .word 1#32).statusWord = 9#32 := by decide +kernel
theorem test_reset_step : step { (loaded [(1, ones)] 5#16 [1, 2]).issue 0x21310#32 with agenda := [.reset [(1, 7#8)]] }
    = .next (State.resetWith 4096#16 [(0, 1#8), (1, 7#8)]) := rfl
theorem test_idle_waits : step State.reset = .next State.reset := rfl

/-! ### Witnesses: for every statement with hypotheses, a state and operands that meet them all, clause by clause at the boundary values -/

/-- `x` of a result, where it is a next state. -/
def nextOr (r : Result) (s : State) : State :=
  match r with
  | .next t => t
  | .fault _ => s
  | .refused _ => s

/-- A command in flight that the host does not touch. -/
def flying (w : BitVec 32) : State := State.reset.issue w

theorem decodesTo_of {b : Word} {P : Point} (h : pdec b = some P) : DecodesTo b P := (decodesTo_iff _ _).2 h

theorem not_decodes_of {b : Word} (h : pdec b = none) : ∀ P, ¬DecodesTo b P := (pdec_eq_none_iff _).1 h

theorem base_decodes : DecodesTo ptB basePoint := decodesTo_of (by decide +kernel)

theorem two_not_decodes : ∀ P, ¬DecodesTo 2#256 P := not_decodes_of (by decide +kernel)

theorem base_isPoint : IsPoint basePoint := base_decodes.point

theorem witness_DecodeOfEncodeIsTheCommand : (Instr.signr 14 15 0).WellFormed := by decide

theorem witness_DecodedWordHasOneEncoding : decode 0x000EFE53#32 = .ok (.signr 14 15 14) := by decide

/-- A word for each of the five clauses, and `MLEN` on both sides of each limit. -/
theorem witness_FirstErrorOfEveryWord_opcode : (0x57 : Nat) % 256 ∉ opcodes := by decide

theorem witness_FirstErrorOfEveryWord_reserved : (0x01000000 : Nat) % 256 ∈ opcodes ∧ ReservedBits 0x01000000 :=
  ⟨by decide, .inl (by decide)⟩

theorem witness_FirstErrorOfEveryWord_pair : (0x1350 : Nat) % 256 ∈ opcodes ∧ ¬ReservedBits 0x1350 ∧ OddPair 0x1350 :=
  ⟨by decide, by unfold ReservedBits; decide, by unfold OddPair; decide⟩

theorem witness_FirstErrorOfEveryWord_mlen :
    (0x1252 : Nat) % 256 ∈ opcodes ∧ ¬ReservedBits 0x1252 ∧ ¬OddPair 0x1252 ∧ MlenOut 0x1252 4097 4096 ∧
      ¬MlenOut 0x1252 4096 4096 ∧ MlenOut 0x1055 4033 4096 ∧ ¬MlenOut 0x1055 4032 4096 := by
  refine ⟨by decide, by unfold ReservedBits; decide, by unfold OddPair; decide, ?_, ?_, ?_, ?_⟩ <;> simp [MlenOut]

theorem witness_ErrorChangesNothingElse :
    State.reset.err = .none ∧ ∃ t, step (State.reset.inFlight 0xFF#32) = .next t ∧ t.err ≠ .none := ⟨rfl, _, rfl, by decide⟩

theorem witness_StepRunsTheDecodedCommand :
    (flying 0x21310#32).busy = true ∧ decode (flying 0x21310#32).cmd = .ok (.fadd 3 1 2) ∧ (flying 0x21310#32).agenda = [] ∧
      { flying 0x21310#32 with agenda := [.wait] }.agenda = .wait :: [] := by decide

theorem witness_TableWordRunsNext : decodeTableWord 32 0x21310 = some (.fadd 3 1 2) := by decide

theorem witness_WrittenCommandRuns :
    (Instr.fadd 3 1 2).WellFormed ∧ State.reset.busy = false ∧
      { State.reset with agenda := [.write 0x0000#16 .word (encode (.fadd 3 1 2)), .wait] }.agenda
        = .write 0x0000#16 .word (encode (.fadd 3 1 2)) :: .wait :: [] := by decide

theorem witness_EveryStateSteps : (flying 0#32).busy = true ∧ (flying 0#32).agenda = [] := by decide

theorem witness_WriteOfCmdIssues : State.reset.busy = false ∧ (flying 0#32).busy = true := by decide

/-- The last accepted and the first refused access at each edge. -/
theorem witness_RefusedAccessChangesNothing :
    BusAccepts 4096 0x14 4 ∧ ¬BusAccepts 4096 0x18 4 ∧ ¬BusAccepts 4096 0x14 2 ∧ ¬BusAccepts 4096 0x1FF 1 ∧ BusAccepts 4096 0x200 1 ∧
    BusAccepts 4096 0x3FE 2 ∧ ¬BusAccepts 4096 0x400 1 ∧ ¬BusAccepts 4096 0x202 4 ∧ ¬BusAccepts 4096 0xFFF 1 ∧
    BusAccepts 4096 0x1FFC 4 ∧ ¬BusAccepts 4096 0x2000 1 ∧ BusAccepts 61440 0xFFFF 1 := by
  simp [BusAccepts]

theorem witness_BusAccessIsOneStep :
    { State.reset with agenda := [.read 0x0004#16 .word] }.agenda = .read 0x0004#16 .word :: [] ∧
      { State.reset with agenda := [.write 0x0008#16 .word 1#32] }.agenda = .write 0x0008#16 .word 1#32 :: [] := by decide

theorem witness_RegisterWindowIsBytes :
    State.reset.busy = false ∧ (0x03FC#16).toNat % AccessSize.word.bytes = 0 ∧ 0x200 ≤ (0x03FC#16).toNat ∧
      (0x03FC#16).toNat + AccessSize.word.bytes ≤ 0x400 ∧ (0x03FC#16).toNat + 3 = 0x200 + 32 * (15 : Reg).val + 31 := by decide

theorem witness_MessageWindowIsBytes :
    State.reset.busy = false ∧ (0x1FFC#16).toNat % AccessSize.word.bytes = 0 ∧ 0x1000 ≤ (0x1FFC#16).toNat ∧
      (0x1FFC#16).toNat + AccessSize.word.bytes ≤ 0x1000 + State.reset.msgMax.toNat := by decide

theorem witness_AccessWhileBusy :
    (flying 0#32).busy = true ∧ BusAccepts (flying 0#32).msgMax.toNat (0x03FF#16).toNat AccessSize.byte.bytes ∧
      BusAccepts (flying 0#32).msgMax.toNat (0x0000#16).toNat AccessSize.word.bytes ∧
      BusAccepts (flying 0#32).msgMax.toNat (0x0004#16).toNat AccessSize.word.bytes ∧
      BusAccepts (flying 0#32).msgMax.toNat (0x0008#16).toNat AccessSize.word.bytes ∧
      BusAccepts (flying 0#32).msgMax.toNat (0x000C#16).toNat AccessSize.word.bytes ∧
      BusAccepts (flying 0#32).msgMax.toNat (0x0010#16).toNat AccessSize.word.bytes ∧
      BusAccepts (flying 0#32).msgMax.toNat (0x0014#16).toNat AccessSize.word.bytes := by
  unfold BusAccepts; decide

/-- One state for each error code. -/
theorem witness_ControlRegistersRead :
    State.reset.err = .none ∧ { State.reset with err := .illop }.err = .illop ∧ { State.reset with err := .rsvd }.err = .rsvd ∧
      { State.reset with err := .pair }.err = .pair ∧ { State.reset with err := .mlen }.err = .mlen := by decide

theorem witness_StatusWriteClears :
    (0x2#32).toNat / 2 % 2 = 1 ∧ (0x2#32).toNat / 8 % 2 ≠ 1 ∧ (0x8#32).toNat / 8 % 2 = 1 ∧ (0x8#32).toNat / 2 % 2 ≠ 1 := by decide

theorem witness_OtherControlWrites : State.reset.busy = false ∧ (flying 0#32).busy = true := by decide

theorem witness_InterruptLineFollowsDone :
    ((flying 0#32).busy = true ∧ (flying 0#32).agenda = [] ∧ ∃ t, step (flying 0#32) = .next t) ∧ (2#32).toNat / 2 % 2 = 1 ∧
      State.reset.busy = false ∧ (0#32).toNat % 2 = 0 ∧ ({ State.reset with done := true }.done = true ∧ (1#32).toNat % 2 = 1) :=
  ⟨⟨rfl, rfl, _, rfl⟩, by decide, rfl, by decide, rfl, by decide⟩

/-- A byte that the list does not name, beside one that it does. -/
theorem witness_ResetEventAbandonsTheCommand :
    { flying 0x21310#32 with agenda := [.reset [(1, 7#8)]] }.agenda = .reset [(1, 7#8)] :: [] ∧ ∀ v : Byte, (0, v) ∉ [(1, 7#8)] := by
  refine ⟨rfl, fun v h => ?_⟩
  simp at h

/-- The smallest and the largest message memory, with a byte at the last index. -/
theorem witness_InvariantHoldsAtReset :
    legalSize 64#16 = true ∧ legalSize 61440#16 = true ∧ legalSize 4096#16 = true ∧ legalSize 60#16 = false ∧
      Memory.wf (64#16).toNat [(63, 1#8)] = true ∧ Memory.wf (64#16).toNat [(64, 1#8)] = false := by decide

theorem witness_EveryStepKeepsTheInvariant : State.reset.Inv ∧ step State.reset = .next State.reset :=
  ⟨⟨rfl, by decide, fun h => (by cases h), fun _ => rfl⟩, rfl⟩

theorem witness_HostCannotChangeACommandInFlight :
    (flying 0x21310#32).busy = true ∧
      ∀ a ∈ [HostAction.write 0x0220#16 .word 5#32, .read 0x0004#16 .word, .write 0x0000#16 .word 0#32], a.isAccess = true := by decide

theorem witness_BusyEngineRevealsNothing :
    (flying 0x21310#32).busy = true ∧ ∀ a ∈ [HostAction.read 0x0220#16 .word, .read 0x1000#16 .byte], a.isAccess = true := by decide

/-- Two states that differ outside the operands, without and with a message. -/
theorem witness_CommandReadsOnlyItsOperands :
    ((∀ r ∈ (Instr.fadd 3 1 2).sources, (loaded [(9, 5#256)] 1#16).reg r = State.reset.reg r) ∧ (Instr.fadd 3 1 2).usesMessage = false ∧
      (loaded [(9, 5#256)] 1#16).reg 9 ≠ State.reset.reg 9 ∧ (loaded [(9, 5#256)] 1#16).mlen ≠ State.reset.mlen ∧
      (loaded [(9, 5#256)] 1#16).err = State.reset.err) ∧
    ((∀ r ∈ (Instr.sign 2 1).sources, (loaded [] 1#16 [7, 8]).reg r = (loaded [] 1#16 [7, 9]).reg r) ∧ (Instr.sign 2 1).usesMessage = true ∧
      (loaded [] 1#16 [7, 8]).mlen = (loaded [] 1#16 [7, 9]).mlen ∧ (loaded [] 1#16 [7, 8]).msgMax = (loaded [] 1#16 [7, 9]).msgMax ∧
      (∀ a, a < (loaded [] 1#16 [7, 9]).mlen.toNat → (loaded [] 1#16 [7, 8]).msgByte a = (loaded [] 1#16 [7, 9]).msgByte a) ∧
      (loaded [] 1#16 [7, 8]).msgByte 1 ≠ (loaded [] 1#16 [7, 9]).msgByte 1) ∧ Instr.zeroize.writesMlen = true := by decide +kernel

/-- A command that ends with `FLAG = 0`, and commands on both sides of the last two clauses. -/
theorem witness_CommandWritesOnlyItsDestinations :
    (nextOr (exec (.sltl 1) (loaded [(1, ordL)])) State.reset).flag = false ∧ (Instr.openmsg 3).writesBytes = false ∧
      (Instr.sign 2 1).writesMlen = false ∧ (Instr.signmsg 1).writesBytes = true ∧ (Instr.openmsg 3).writesMlen = true := by decide +kernel

theorem witness_FlagOfEveryCommand :
    (Instr.signmsg 1).mlenBad (loaded [] 4033#16) ∧ ¬(Instr.signmsg 1).mlenBad (loaded [] 4032#16) ∧ (Instr.signmsg 1).isChecking = false ∧
      (Instr.sign 2 1).mlenBad (loaded [] 4097#16) ∧ ¬(Instr.sign 2 1).mlenBad (loaded [] 4096#16) := by
  refine ⟨?_, ?_, rfl, ?_, ?_⟩ <;> (simp only [Instr.mlenBad]; decide +kernel)

/-- Words that `ReservedAbove` and `PairField` speak of, one with its lowest and one with its highest reserved bit set. -/
theorem witness_ReservedAbove :
    ((0x00100010#32).toNat % 256 = 0x10 ∧ (0x00100010#32).toNat / 2 ^ 20 ≠ 0) ∧ ((0x80000010#32).toNat % 256 = 0x10 ∧ (0x80000010#32).toNat / 2 ^ 20 ≠ 0) ∧
    ((0x00021123#32).toNat % 256 = 0x23 ∧ (0x00021123#32).toNat / 2 ^ 8 % 16 ≠ 0) ∧
    ((0x00053054#32).toNat % 256 = 0x54 ∧ (0x00053054#32).toNat / 2 ^ 20 = 0 ∧ (0x00053054#32).toNat / 2 ^ 8 % 16 = 0 ∧
      (0x00053054#32).toNat / 2 ^ 16 % 2 = 1) := by decide

theorem witness_FieldInversionInverts : fieldValue 0#256 = 0 ∧ fieldValue 1#256 ≠ 0 := by
  have := fact_prime
  constructor
  · simp [fieldValue]
  · simp [fieldValue]

theorem witness_ConditionalSwapExchanges : (3#256).toNat % 2 = 1 ∧ (2#256).toNat % 2 = 0 := by decide

/-- The largest canonical value, and the smallest that is not. -/
theorem witness_CanonicaliseReduces : p_1.toNat < fieldPrime ∧ ¬(p_1 + 1#256).toNat < fieldPrime := by decide +kernel

theorem witness_ClampSetsTheFixedBits :
    (keyA.toNat % 8 = 0 ∧ 2 ^ 254 ≤ keyA.toNat ∧ keyA.toNat < 2 ^ 255) ∧ (1 ≤ 1 ∧ 1 ≤ 30) ∧ (1 ≤ 30 ∧ 30 ≤ 30) := by decide +kernel

theorem witness_ScalarReductionsAreExact : (14 : Reg).val % 2 = 0 ∧ (15 : Reg).val = (14 : Reg).val + 1 := by decide

/-- The largest operand that `SLTL` accepts and the first that it rejects. -/
theorem witness_ScalarChecksAnswerInFlag :
    (∃ n, n < groupOrder ∧ ((ordL - 1#256).toNat = n ∨ (ordL - 1#256).toNat = n + 2 ^ 255)) ∧
      ¬∃ n, n < groupOrder ∧ (ordL.toNat = n ∨ ordL.toNat = n + 2 ^ 255) := by
  constructor
  · exact ⟨groupOrder - 1, by decide +kernel, .inl (by decide +kernel)⟩
  · have h : ordL.toNat = groupOrder := by decide +kernel
    rw [h]
    have h2 : groupOrder < 2 ^ 255 := by decide +kernel
    rintro ⟨n, h3, h4 | h4⟩ <;> omega

theorem witness_LadderGivesTheMultiple : IsPoint basePoint ∧ fieldValue ((loaded [(2, 9#256)]).reg 2) = uOf basePoint := by
  refine ⟨base_isPoint, ?_⟩
  rw [uOf_eq, e2m_base, fieldValue_eq, show fdec ((loaded [(2, 9#256)]).reg 2) = 9 from by decide +kernel]

theorem witness_FixedBaseLadderAgreesWithEdwards : ((loaded [(1, ones >>> 1)]).reg 1).toNat < 2 ^ 255 := by decide +kernel

theorem witness_SharedSecretsAgree : (2 : Reg).isPair = true ∧ (14 : Reg).isPair = true ∧ (2 : Reg) ≠ 14 := by decide

/-- The three weak keys, `p − 1` and 1 and, in a non-canonical encoding, 0. -/
theorem witness_WeakPeerKeysGiveZero : fieldValue (p_1 + 1#256) = 0 ∧ fieldValue 1#256 = 1 ∧ fieldValue p_1 = -1 := by
  have := fact_prime
  refine ⟨?_, ?_, ?_⟩
  · rw [fieldValue_eq, show fdec (p_1 + 1#256) = 0 from by decide +kernel]; exact Nat.cast_zero
  · simp [fieldValue]
  · rw [fieldValue_eq, show fdec p_1 = fieldPrime - 1 from by decide +kernel, toF_pred]

/-- Scalars that differ in bit 255 and u-coordinates that differ by `p`; then scalar 0. -/
theorem witness_LadderIgnoresTopBits :
    (∃ t t', exec (.ladder 3 1 2) (loaded [(1, 5#256), (2, 1#256)]) = .next t ∧
      exec (.ladder 3 1 2) (loaded [(1, 5#256 ||| 1#256 <<< 255), (2, p_1 + 2#256)]) = .next t') ∧
    ((loaded [(1, 5#256), (2, 1#256)]).reg 1).toNat % 2 ^ 255
      = ((loaded [(1, 5#256 ||| 1#256 <<< 255), (2, p_1 + 2#256)]).reg 1).toNat % 2 ^ 255 ∧
    fieldValue 1#256 = fieldValue (p_1 + 2#256) ∧ (0#256).toNat % 2 ^ 255 = 0 := by
  refine ⟨⟨_, _, rfl, rfl⟩, by decide +kernel, ?_, by decide⟩
  rw [fieldValue_eq, fieldValue_eq]
  exact congrArg toF (by decide +kernel)

/-- An operand that decodes and one that does not. -/
theorem witness_PointSumsAreComplete : DecodesTo ptB basePoint ∧ ∀ P, ¬DecodesTo 2#256 P := ⟨base_decodes, two_not_decodes⟩

theorem witness_DoubleScalarMultiple : DecodesTo ptB basePoint ∧ ∀ P, ¬DecodesTo 2#256 P := ⟨base_decodes, two_not_decodes⟩

/-- A second encoding of the neutral point decodes to it too. -/
theorem witness_PointDecodeChecks : DecodesTo ptB basePoint ∧ (∀ P, ¬DecodesTo 2#256 P) ∧ DecodesTo (p_1 + 2#256) neutralPoint :=
  ⟨base_decodes, two_not_decodes, decodesTo_of (by decide +kernel)⟩

theorem witness_EdwardsToMontgomeryMap : DecodesTo ptB basePoint ∧ ∀ P, ¬DecodesTo 2#256 P := ⟨base_decodes, two_not_decodes⟩

/-- A u-coordinate with a point, one on the twist, and `p − 1`. -/
theorem witness_MontgomeryToEdwardsMap :
    OverU (fieldValue 9#256) (decide ((0#256).toNat / 2 ^ 255 = 1)) basePoint ∧
      (∀ P, ¬OverU (fieldValue 2#256) (decide ((0#256).toNat / 2 ^ 255 = 1)) P) ∧
      (∀ P, ¬OverU (fieldValue p_1) (decide ((0#256).toNat / 2 ^ 255 = 1)) P) := by
  simp only [← topBit_dec]
  refine ⟨(overU_iff _ _ _).2 (by decide +kernel), fun P h => ?_, fun P h => ?_⟩
  · have := (overU_iff _ _ _).1 h
    rw [show m2e 2#256 (topBit 0#256) = none from by decide +kernel] at this
    cases this
  · have := (overU_iff _ _ _).1 h
    rw [show m2e p_1 (topBit 0#256) = none from by decide +kernel] at this
    cases this

theorem witness_BirationalMapRoundTrip :
    (2 : Reg) ≠ 1 ∧ DecodesTo ptB basePoint ∧ basePoint.y ≠ 1 ∧ ptB.toNat / 2 ^ 255 = basePoint.x % 2 :=
  ⟨by decide, base_decodes, by decide +kernel, by decide +kernel⟩

theorem witness_PointResultsAreCanonical :
    Instr.pdbl 2 1 ∈ [Instr.padd 2 1 3, .pdbl 2 1, .psmulb 2 1, .pdsmul 2 1 3 4, .pdec 2 1, .m2e 2 1 3] ∧
      ∃ t, exec (.pdbl 2 1) (loaded [(1, ptB)]) = .next t ∧ t.flag = true := by
  refine ⟨by decide, ?_⟩
  have h : (loaded [(1, ptB)]).pointOp 1 = some basePoint := by decide +kernel
  exact ⟨_, by simp only [exec, execPdbl, h, Option.map_some, finishPoint_some]; rfl, rfl⟩

theorem witness_GenerateKeyPair : (14 : Reg).val % 2 = 0 ∧ (15 : Reg).val = (14 : Reg).val + 1 := by decide

/-- The longest message. -/
theorem witness_SignaturesAreAsDefined :
    (2 : Reg).val % 2 = 0 ∧ (3 : Reg).val = (2 : Reg).val + 1 ∧ (loaded [] 4096#16).mlen.toNat ≤ (loaded [] 4096#16).msgMax.toNat := by
  decide +kernel

theorem witness_VerificationAnswersInFlag :
    (4 : Reg).val % 2 = 0 ∧ (5 : Reg).val = (4 : Reg).val + 1 ∧ (loaded [] 4096#16).mlen.toNat ≤ (loaded [] 4096#16).msgMax.toNat := by
  decide +kernel

theorem witness_SignMessageAppends : (loaded [] 4032#16).mlen.toNat + 64 ≤ (loaded [] 4032#16).msgMax.toNat := by decide +kernel

/-- A message of 64 bytes with its signature, and one of 63 bytes. -/
theorem witness_OpenMessageStrips :
    ((loaded [] 64#16 (registerBytes sigR ++ registerBytes sigS)).mlen.toNat ≤ (loaded [] 64#16 (registerBytes sigR ++ registerBytes sigS)).msgMax.toNat ∧
      64 ≤ (loaded [] 64#16 (registerBytes sigR ++ registerBytes sigS)).mlen.toNat ∧
      ∀ j, j < 32 → (loaded [] 64#16 (registerBytes sigR ++ registerBytes sigS)).msgByte (64 - 64 + j) = wordByte sigR j ∧
        (loaded [] 64#16 (registerBytes sigR ++ registerBytes sigS)).msgByte (64 - 32 + j) = wordByte sigS j) ∧
    ((loaded [] 63#16).mlen.toNat ≤ (loaded [] 63#16).msgMax.toNat ∧ (loaded [] 63#16).mlen.toNat < 64) := by decide +kernel

/-- The first message that is too long for `SIGN`, `SIGNR`, `VERIFY` and `OPENMSG`. -/
theorem witness_SignaturesAreAsDefined_mlen : (loaded [] 4097#16).mlen.toNat > (loaded [] 4097#16).msgMax.toNat := by decide +kernel

/-- The first message that is too long for `SIGNMSG`. -/
theorem witness_SignMessageAppends_mlen : (loaded [] 4033#16).mlen.toNat + 64 > (loaded [] 4033#16).msgMax.toNat := by decide +kernel

/-- The PublicKey of `keyA` in a register outside the pair, before the signing and so after it. -/
theorem witness_VerifyAcceptsOwnSignatures :
    (4 : Reg).isPair = true ∧ (6 : Reg).isPair = true ∧ Instr.sign 4 1 ∈ [Instr.sign 4 1, .signr 4 1 6] ∧
      (loaded [(1, keyA), (3, pubA)] 4096#16).mlen.toNat ≤ (loaded [(1, keyA), (3, pubA)] 4096#16).msgMax.toNat ∧
      (3 : Reg) ∉ [4, pairHigh 4] ∧
      (loaded [(1, keyA), (3, pubA)] 4096#16).reg 3 = ladder (clamp ((loaded [(1, keyA), (3, pubA)] 4096#16).reg 1)) 9#256 ∧
      ∃ t, exec (.sign 4 1) (loaded [(1, keyA), (3, pubA)] 4096#16) = .next t ∧
        t.reg 3 = ladder (clamp ((loaded [(1, keyA), (3, pubA)] 4096#16).reg 1)) 9#256 := by
  have hk : (loaded [(1, keyA), (3, pubA)] 4096#16).reg 3 = ladder (clamp ((loaded [(1, keyA), (3, pubA)] 4096#16).reg 1)) 9#256 := by
    decide +kernel
  have hm : (loaded [(1, keyA), (3, pubA)] 4096#16).messageTooLong = false := by decide +kernel
  refine ⟨by decide, by decide, by decide, by decide +kernel, by decide, hk, ?_⟩
  obtain ⟨t, h1, h2, _⟩ := finish_setPair flagTrue (loaded [(1, keyA), (3, pubA)] 4096#16) 4
    (sign Config.hash Config.pad32 ((loaded [(1, keyA), (3, pubA)] 4096#16).reg 1) (loaded [(1, keyA), (3, pubA)] 4096#16).message none)
  exact ⟨t, (checkMlen_of_ok hm (loaded [(1, keyA), (3, pubA)] 4096#16) _).trans h1, (h2.regs 3 (by decide)).trans hk⟩

theorem witness_OpenAfterSignRestores :
    (loaded [(1, keyA), (3, pubA)] 4032#16).mlen.toNat + 64 ≤ (loaded [(1, keyA), (3, pubA)] 4032#16).msgMax.toNat ∧
      (loaded [(1, keyA), (3, pubA)] 4032#16).reg 3 = ladder (clamp ((loaded [(1, keyA), (3, pubA)] 4032#16).reg 1)) 9#256 := by
  decide +kernel

/-- The state after `SIGN x4:x5` of the empty message with `keyA`: the signature is accepted, and another scalar below `L` is there. -/
theorem witness_ChangedScalarIsRejected :
    ∃ (s t : State) (S' : Word), (4 : Reg).val % 2 = 0 ∧ (5 : Reg).val = (4 : Reg).val + 1 ∧ (3 : Reg) ≠ 5 ∧
      exec (.verify 3 4) s = .next t ∧ t.flag = true ∧ S'.toNat / 2 ^ 255 = (s.reg 5).toNat / 2 ^ 255 ∧
      S'.toNat % 2 ^ 255 < groupOrder ∧ S' ≠ s.reg 5 := by
  have hp : ladder (clamp keyA) (BitVec.ofNat 256 uBase) = pubA := by decide +kernel
  have hv : verify Config.hash pubA [] (sign Config.hash Config.pad32 keyA [] none) = true := by
    rw [← hp]; exact verify_sign _ _ _
  generalize sign Config.hash Config.pad32 keyA [] none = sig at hv
  have h4 : ((State.reset.setReg 3 pubA).setPair 4 sig).reg 4 = lowHalf sig := by
    rw [State.setPair, State.setReg_reg_of_ne _ _ (by decide), State.setReg_reg_self]
  have h5 : ((State.reset.setReg 3 pubA).setPair 4 sig).reg 5 = highHalf sig := State.setReg_reg_self _ (pairHigh 4) _
  have h3 : ((State.reset.setReg 3 pubA).setPair 4 sig).reg 3 = pubA := by
    rw [State.setPair, State.setReg_reg_of_ne _ _ (by decide), State.setReg_reg_of_ne _ _ (by decide), State.setReg_reg_self]
  have hpair : ((State.reset.setReg 3 pubA).setPair 4 sig).pair 4 = sig := by
    rw [State.pair, h4, show pairHigh (4 : Reg) = 5 from rfl, h5, highHalf_append_lowHalf]
  have hl : 1 < groupOrder := by decide +kernel
  have hw := scalarWord_withTop ((highHalf sig).toNat % 2 ^ 255 + 1) (topBit (highHalf sig))
  have hb := (highHalf sig).isLt
  refine ⟨(State.reset.setReg 3 pubA).setPair 4 sig, _, withTopBit (scalarWord ((highHalf sig).toNat % 2 ^ 255 + 1)) (topBit (highHalf sig)),
    by decide, by decide, by decide, checkMlen_of_ok (s := (State.reset.setReg 3 pubA).setPair 4 sig) rfl _, ?_, ?_, ?_, ?_⟩
  · show verify Config.hash _ _ _ = true
    rw [h3, hpair]; exact hv
  · rw [hw.2, h5, topBit_toNat]
  · rw [hw.1]; exact Nat.mod_lt _ (by omega)
  · rw [h5]
    intro h
    have h' := congrArg (fun v : Word => v.toNat % 2 ^ 255) h
    rw [hw.1] at h'
    have hS : (highHalf sig).toNat % 2 ^ 255 < groupOrder := by rw [← h']; exact Nat.mod_lt _ (by omega)
    generalize (highHalf sig).toNat % 2 ^ 255 = n at h' hS
    generalize groupOrder = L at *
    rcases Nat.lt_or_ge (n + 1) L with h1 | h1
    · rw [Nat.mod_eq_of_lt h1] at h'; omega
    · have : n + 1 = L := by omega
      rw [this, Nat.mod_self] at h'; omega

end Sys2Proof.Tests
end

section
/-! PROOFS. The family of spec/00_scope.md: the invariant of the whole machine, what a command may read, and the constants of the spec. -/

namespace Sys2Proof.Machine

open Laws

/-! ### What a command may do -/

/-- What a command that is performed leaves for the invariant: every control field, and the canonical form of `MSG` (R23, R83). -/
structure KeepsControl (s u : State) : Prop where
  control : SameControl s u
  memory : Memory.wf s.msgSize s.msg = true → Memory.wf u.msgSize u.msg = true

theorem KeepsControl.refl (s : State) : KeepsControl s s := ⟨SameControl.refl s, id⟩

theorem KeepsControl.setReg {s u : State} (h : KeepsControl s u) (i : Reg) (v : Word) : KeepsControl s (u.setReg i v) :=
  ⟨⟨h.control.cmd, h.control.bwe, h.control.err, h.control.ie, h.control.msgMax, h.control.agenda, h.control.replies⟩, h.memory⟩

theorem KeepsControl.setMlen {s u : State} (h : KeepsControl s u) (n : BitVec 16) : KeepsControl s (u.setMlen n) :=
  ⟨⟨h.control.cmd, h.control.bwe, h.control.err, h.control.ie, h.control.msgMax, h.control.agenda, h.control.replies⟩, h.memory⟩

theorem keepsControl_memWrite {s : State} {a : Nat} {bs : List Byte} (h : a + bs.length ≤ s.msgSize) :
    KeepsControl s (s.memWrite a bs) :=
  ⟨⟨rfl, rfl, rfl, rfl, rfl, rfl, rfl⟩, fun hm => Memory.wf_memStoreBytes hm h⟩

theorem keepsControl_clear (s : State) : KeepsControl s s.clearRegs.clearMsg :=
  ⟨⟨rfl, rfl, rfl, rfl, rfl, rfl, rfl⟩, fun _ => Memory.wf_nil _⟩

/-- The two ends of a command that decodes (R83): the `MLEN` error, or performed with some value of `FLAG`. -/
inductive CommandEnd (s : State) : Result → Prop where
  | raised : CommandEnd s (raiseError .mlen s)
  | performed (v : Bool) {u : State} (h : KeepsControl s u) : CommandEnd s (finish v u)

theorem CommandEnd.setReg (v : Bool) (s : State) (rd : Reg) (w : Word) : CommandEnd s (finish v (s.setReg rd w)) :=
  .performed v ((KeepsControl.refl s).setReg rd w)

theorem CommandEnd.setReg_setReg (v : Bool) (s : State) (a b : Reg) (x y : Word) :
    CommandEnd s (finish v ((s.setReg a x).setReg b y)) :=
  .performed v (((KeepsControl.refl s).setReg a x).setReg b y)

theorem CommandEnd.finishPoint {α : Type} (s : State) (o : Option α) (f : α → Word) (rd : Reg) :
    CommandEnd s (finishPoint s (o.map fun P => s.setReg rd (f P))) := by
  cases o with
  | none => exact .performed flagReject (KeepsControl.refl s)
  | some P => exact .setReg flagTrue s rd (f P)

theorem CommandEnd.checkMlen {s : State} {bad : Bool} {go : Result} (h : bad = false → CommandEnd s go) :
    CommandEnd s (checkMlen bad s go) := by
  cases bad with
  | true => exact .raised
  | false => exact h rfl

/-- What every command can do (R83, R84): one case for each form of a command's meaning. -/
theorem commandEnd_exec (i : Instr) (s : State) : CommandEnd s (exec i s) := by
  cases i
  case nop | seq | sltl => exact .performed _ (KeepsControl.refl s)
  case zeroize => exact .performed _ ((keepsControl_clear s).setMlen _)
  case fcswap rd a b =>
    simp only [exec, execFcswap]
    split <;> exact .setReg_setReg _ s rd a _ _
  case genkey => exact .setReg_setReg _ s _ _ _ _
  case padd rd a b => rw [exec, execPadd_eq]; exact .finishPoint s _ _ rd
  case pdbl | pdsmul | pdec | e2m | m2e => exact .finishPoint s _ _ _
  case sign | signr => exact .checkMlen fun _ => .setReg_setReg _ s _ _ _ _
  case verify => exact .checkMlen fun _ => .performed _ (KeepsControl.refl s)
  case signmsg a =>
    refine .checkMlen fun hroom => .performed _ ((keepsControl_memWrite ?_).setMlen _)
    rw [length_bytesOf]
    exact (noRoomForSignature_false_iff s).1 hroom
  case openmsg =>
    refine .checkMlen fun _ => ?_
    split <;> exact .performed _ ((KeepsControl.refl s).setMlen _)
  all_goals exact .setReg _ s _ _

/-! ### The invariant -/

namespace State.Inv

variable {s : State}

/-- An error meets the invariant: it writes `FLAG = 0` and nothing of `MSG` (R225). -/
theorem raiseError (h : s.Inv) {e : ErrCode} {t : State} (ht : raiseError e s = .next t) : t.Inv := by
  cases ht
  exact ⟨h.memory, h.size, nofun, fun _ => rfl⟩

/-- A command that is performed on a state without an error meets the invariant (R83). -/
theorem finish (h : s.Inv) (herr : s.err = .none) {v : Bool} {u t : State} (hu : KeepsControl s u)
    (ht : finish v u = .next t) : t.Inv := by
  cases ht
  exact ⟨hu.memory h.memory, hu.control.msgMax ▸ h.size, nofun, fun hne => absurd (hu.control.err.trans herr) hne⟩

theorem commandEnd (h : s.Inv) (herr : s.err = .none) {r : Result} (hr : CommandEnd s r) {t : State} (ht : r = .next t) :
    t.Inv := by
  cases hr with
  | raised => exact h.raiseError ht
  | performed v hu => exact h.finish herr hu ht

/-- Completion keeps the invariant: the command in flight has no error reported yet (R82, R83). -/
theorem complete (h : s.Inv) (hbusy : s.busy = true) {t : State} (ht : complete s = .next t) : t.Inv := by
  unfold Machine.complete at ht
  split at ht
  · exact h.raiseError ht
  · obtain ⟨_, _, herr⟩ := h.inFlight hbusy
    exact h.commandEnd herr (commandEnd_exec _ s) ht

theorem engineTurn (h : s.Inv) {t : State} (ht : engineTurn s = .next t) : t.Inv := by
  cases hb : s.busy with
  | true => exact h.complete hb (engineTurn_busy hb ▸ ht)
  | false =>
    rw [engineTurn_idle hb] at ht
    cases ht
    exact h

theorem popAction (h : s.Inv) : s.popAction.Inv := ⟨h.memory, h.size, h.inFlight, h.errorFlag⟩

theorem note (h : s.Inv) (r : BusReply) : (s.note r).Inv := ⟨h.memory, h.size, h.inFlight, h.errorFlag⟩

theorem dropWrite (h : s.Inv) : s.dropWrite.Inv := ⟨h.memory, h.size, h.inFlight, h.errorFlag⟩

theorem clearBwe (h : s.Inv) : s.clearBwe.Inv := ⟨h.memory, h.size, h.inFlight, h.errorFlag⟩

theorem setMlen (h : s.Inv) (n : BitVec 16) : (s.setMlen n).Inv := ⟨h.memory, h.size, h.inFlight, h.errorFlag⟩

theorem ackDone (h : s.Inv) : s.ackDone.Inv := ⟨h.memory, h.size, fun hb => ⟨rfl, (h.inFlight hb).2⟩, h.errorFlag⟩

theorem issue (h : s.Inv) (w : BitVec 32) : (s.issue w).Inv :=
  ⟨h.memory, h.size, fun _ => ⟨rfl, rfl, rfl⟩, fun _ => rfl⟩

theorem setRegBytes (h : s.Inv) (k : Nat) (bs : List Byte) : (s.setRegBytes k bs).Inv := by
  obtain ⟨r, hr⟩ := setRegBytes_eq s k bs
  rw [hr]
  exact ⟨h.memory, h.size, h.inFlight, h.errorFlag⟩

theorem memWrite (h : s.Inv) {a : Nat} {bs : List Byte} (ha : a + bs.length ≤ s.msgSize) : (s.memWrite a bs).Inv :=
  ⟨Memory.wf_memStoreBytes h.memory ha, h.size, h.inFlight, h.errorFlag⟩

theorem writeControl (h : s.Inv) (r : CtrlReg) (data : BitVec 32) : (s.writeControl r data).Inv := by
  cases r with
  | cmd =>
    rw [State.writeControl]
    split
    · exact h.dropWrite
    · exact h.issue data
  | status =>
    have hack : (if data.getLsbD 1 then s.ackDone else s).Inv := by
      split
      · exact h.ackDone
      · exact h
    rw [State.writeControl]
    split
    · exact hack.clearBwe
    · exact hack
  | ctrl => exact ⟨h.memory, h.size, h.inFlight, h.errorFlag⟩
  | mlen =>
    rw [State.writeControl]
    split
    · exact h.dropWrite
    · exact h.setMlen _
  | id => exact h
  | cap => exact h

/-- A bus write keeps the invariant: a place in the message window lies inside `MSG_MAX` bytes (R57, R58). -/
theorem busWrite (h : s.Inv) (addr : BitVec 16) (size : AccessSize) (data : BitVec 32) : (s.busWrite addr size data).Inv := by
  unfold State.busWrite
  split
  · exact h
  · rename_i pl hpl
    obtain ⟨r, rfl⟩ | ⟨k, rfl, _, _⟩ | ⟨k, rfl, _, hk⟩ := place_cases s hpl
    · exact h.writeControl r data
    · rw [State.writePlace]
      split
      · exact h.dropWrite
      · exact h.setRegBytes k _
    · rw [State.writePlace]
      split
      · exact h.dropWrite
      · exact h.memWrite (by rw [length_bytesOf]; exact hk)

end State.Inv

/-- A reset state meets the invariant where `MSG_MAX` is legal and the memory is in canonical form (R14, R40). -/
theorem inv_resetWith {msgMax : BitVec 16} {msg : Memory} (hsize : legalSize msgMax = true)
    (hmsg : Memory.wf msgMax.toNat msg = true) : (State.resetWith msgMax msg).Inv :=
  ⟨hmsg, hsize, nofun, fun _ => rfl⟩

theorem State.Inv.hardReset {s : State} (h : s.Inv) (bytes : Memory) : (s.hardReset bytes).Inv := by
  have hreset := inv_resetWith h.size (Memory.wf_memTake bytes h.memory)
  exact ⟨hreset.memory, hreset.size, hreset.inFlight, hreset.errorFlag⟩

/-- Settles O22: the fields of the reset state, with the default `MSG_MAX` a legal size and the empty memory canonical. -/
theorem invariantHoldsAtReset : Obligations.InvariantHoldsAtReset :=
  ⟨rfl, inv_resetWith (by decide) (Memory.wf_nil _), fun _ _ => inv_resetWith⟩

/-- Settles O23, by cases on the turn: the engine's, a host's read or write, a reset. -/
theorem everyStepKeepsTheInvariant : Obligations.EveryStepKeepsTheInvariant := by
  intro s t h ht
  obtain ⟨_, hs⟩ | ⟨_, _, hs⟩ | ⟨_, _, _, _, hs⟩ | ⟨_, _, _, _, _, hs⟩ | ⟨bytes, _, _, hs⟩ := step_cases s
  · exact h.engineTurn (hs ▸ ht)
  · exact h.popAction.engineTurn (hs ▸ ht)
  · obtain rfl := Host.Outcome.next.inj (hs.symm.trans ht)
    exact h.popAction.note _
  · obtain rfl := Host.Outcome.next.inj (hs.symm.trans ht)
    exact (h.popAction.busWrite _ _ _).note _
  · obtain rfl := Host.Outcome.next.inj (hs.symm.trans ht)
    exact h.popAction.hardReset bytes

/-! ### What a command may read -/

/-- Two states agree on the implicit message operand: `MLEN`, `MSG_MAX` and the bytes below `MLEN` (R23, R222). -/
structure SameMessage (s s' : State) : Prop where
  mlen : s'.mlen = s.mlen
  msgMax : s'.msgMax = s.msgMax
  bytes : ∀ a, a < s.mlen.toNat → s'.msgByte a = s.msgByte a

namespace SameMessage

variable {s s' : State}

theorem memRead (h : SameMessage s s') {a n : Nat} (ha : a + n ≤ s.mlen.toNat) : s'.memRead a n = s.memRead a n :=
  memBytes_congr fun k hk => h.bytes (a + k) (by omega)

theorem message (h : SameMessage s s') : s'.message = s.message := by
  rw [State.message, State.message, h.mlen]
  exact h.memRead (by omega)

theorem messageTooLong (h : SameMessage s s') : s'.messageTooLong = s.messageTooLong := by
  rw [State.messageTooLong, State.messageTooLong, State.msgSize, State.msgSize, h.mlen, h.msgMax]

theorem noRoomForSignature (h : SameMessage s s') : s'.noRoomForSignature = s.noRoomForSignature := by
  rw [State.noRoomForSignature, State.noRoomForSignature, State.msgSize, State.msgSize, h.mlen, h.msgMax]

/-- `OPENMSG` reads the attached signature only where `MLEN ≥ 64`, and then inside the message (R192). -/
theorem openAccepts (h : SameMessage s s') (pb : Word) : s'.openAccepts pb = s.openAccepts pb := by
  rw [State.openAccepts, State.openAccepts, h.mlen]
  by_cases h64 : 64 ≤ s.mlen.toNat
  · rw [State.attachedSignature, State.attachedSignature, h.mlen, h.memRead (by omega), h.memRead (by omega)]
  · rw [decide_eq_false h64, Bool.false_and, Bool.false_and]

/-- The same bytes stored at the end of the message extend the agreement. -/
theorem msgByte_memWrite (h : SameMessage s s') (bs : List Byte) {a : Nat} (ha : a < s.mlen.toNat + bs.length) :
    (s'.memWrite s'.mlen.toNat bs).msgByte a = (s.memWrite s.mlen.toNat bs).msgByte a := by
  simp only [State.msgByte, State.memWrite_msg, memByte_memStoreBytes, h.mlen]
  split
  · rfl
  · exact h.bytes a (by omega)

end SameMessage

/-- A register written in both states, or alike before, reads alike. -/
theorem setReg_reg_congr {s s' : State} {d r : Reg} (w : Word) (h : r ≠ d → s'.reg r = s.reg r) :
    (s'.setReg d w).reg r = (s.setReg d w).reg r := by
  rw [State.setReg_reg, State.setReg_reg]
  split
  · rfl
  · rename_i hne; exact h hne

/-- Two registers written, the same values in both states, read alike. -/
theorem setReg_setReg_reg_congr {s s' : State} {a b r : Reg} (x y : Word) (hr : r ∈ [a, b]) :
    ((s'.setReg a x).setReg b y).reg r = ((s.setReg a x).setReg b y).reg r := by
  refine setReg_reg_congr y fun hb => setReg_reg_congr x fun ha => ?_
  simp [ha, hb] at hr

/-- The answers `r` and `r'` of the command `i` in the states `s` and `s'` agree (R5, R84): `FLAG`, and what the command writes. -/
def SameOutcome (i : Instr) (s s' : State) (r r' : Result) : Prop :=
  ∃ t t', r = .next t ∧ r' = .next t' ∧ t'.flag = t.flag ∧ (s'.err = s.err → t'.err = t.err) ∧
    (i.usesMessage = true ∨ i.writesMlen = true → t'.mlen = t.mlen) ∧
    (t.flag = true → ∀ r ∈ i.dests, t'.reg r = t.reg r) ∧
    (i.usesMessage = true → t.flag = true → ∀ a, a < t.mlen.toNat → t'.msgByte a = t.msgByte a)

namespace SameOutcome

variable {i : Instr} {s s' : State}

theorem finish {u u' : State} {v v' : Bool} (hv : v' = v) (he : u.err = s.err) (he' : u'.err = s'.err)
    (hmlen : i.usesMessage = true ∨ i.writesMlen = true → u'.mlen = u.mlen)
    (hregs : v = true → ∀ r ∈ i.dests, u'.reg r = u.reg r)
    (hbytes : i.usesMessage = true → v = true → ∀ a, a < u.mlen.toNat → u'.msgByte a = u.msgByte a) :
    SameOutcome i s s' (finish v u) (finish v' u') := by
  subst hv
  exact ⟨_, _, rfl, rfl, rfl, fun h => he'.trans (h.trans he.symm), hmlen, hregs, hbytes⟩

section Plain

variable (hu : i.usesMessage = false) (hw : i.writesMlen = false)
include hu hw

/-- The end of a command that neither reads nor writes the message or `MLEN`. -/
theorem finish_plain {u u' : State} {v v' : Bool} (hv : v' = v) (he : u.err = s.err) (he' : u'.err = s'.err)
    (hregs : v = true → ∀ r ∈ i.dests, u'.reg r = u.reg r) : SameOutcome i s s' (Machine.finish v u) (Machine.finish v' u') :=
  .finish hv he he' (by simp [hu, hw]) hregs (by simp [hu])

theorem setReg {d : Reg} {w w' : Word} (hd : i.dests = [d]) (v : Bool) (h : w' = w) :
    SameOutcome i s s' (Machine.finish v (s.setReg d w)) (Machine.finish v (s'.setReg d w')) := by
  subst h
  refine finish_plain hu hw rfl rfl rfl fun _ r hr => setReg_reg_congr w' fun hne => ?_
  rw [hd] at hr
  exact absurd (List.mem_singleton.1 hr) hne

theorem finishPoint {α : Type} {d : Reg} {o o' : Option α} {f f' : α → Word} (hd : i.dests = [d]) (ho : o' = o) (hf : f' = f) :
    SameOutcome i s s' (Machine.finishPoint s (o.map fun P => s.setReg d (f P)))
      (Machine.finishPoint s' (o'.map fun P => s'.setReg d (f' P))) := by
  subst ho hf
  cases o' with
  | none => exact finish_plain hu hw rfl rfl rfl fun h => nomatch h
  | some P => exact setReg hu hw hd flagTrue rfl

end Plain

theorem checkMlen {bad bad' : Bool} {go go' : Result} (hm : SameMessage s s') (hbad : bad' = bad)
    (h : SameOutcome i s s' go go') : SameOutcome i s s' (checkMlen bad s go) (checkMlen bad' s' go') := by
  subst hbad
  cases bad' with
  | true => exact ⟨_, _, rfl, rfl, rfl, fun _ => rfl, fun _ => hm.mlen, nofun, fun _ h => nomatch h⟩
  | false => exact h

/-- The end of a command that reads the message and writes a pair. -/
theorem setPair {d : Reg} {w w' : DWord} (hm : SameMessage s s') (hd : i.dests = [d, pairHigh d]) (v : Bool) (h : w' = w) :
    SameOutcome i s s' (Machine.finish v (s.setPair d w)) (Machine.finish v (s'.setPair d w')) := by
  subst h
  exact .finish rfl rfl rfl (fun _ => hm.mlen) (fun _ r hr => setReg_setReg_reg_congr _ _ (hd ▸ hr)) fun _ _ => hm.bytes

end SameOutcome

/-- `SIGNMSG` stores the same signature at the end of the same message (R191). -/
theorem sameOutcome_execSignmsg {a : Reg} {s s' : State} (hm : SameMessage s s') (ha : s'.reg a = s.reg a) :
    SameOutcome (.signmsg a) s s' (execSignmsg a s) (execSignmsg a s') := by
  rw [execSignmsg, execSignmsg, ha, hm.message]
  refine .checkMlen hm hm.noRoomForSignature (.finish rfl rfl rfl (fun _ => ?_) nofun fun _ _ c hc => ?_)
  · rw [State.setMlen_mlen, State.setMlen_mlen, hm.mlen]
  · refine hm.msgByte_memWrite _ ?_
    rw [length_bytesOf]
    exact hc.trans_le (BitVec.toNat_add _ _ ▸ Nat.mod_le _ _)

/-- `OPENMSG` decides alike, and keeps a part of the same message or nothing (R192). -/
theorem sameOutcome_execOpenmsg {a : Reg} {s s' : State} (hm : SameMessage s s') (ha : s'.reg a = s.reg a) :
    SameOutcome (.openmsg a) s s' (execOpenmsg a s) (execOpenmsg a s') := by
  rw [execOpenmsg, execOpenmsg, ha, hm.openAccepts]
  refine .checkMlen hm hm.messageTooLong ?_
  split
  · rename_i hacc
    have h64 : 64 ≤ s.mlen.toNat := of_decide_eq_true (Bool.and_eq_true_iff.1 hacc).1
    refine .finish rfl rfl rfl (fun _ => ?_) nofun fun _ _ c hc => hm.bytes c ?_
    · rw [State.setMlen_mlen, State.setMlen_mlen, hm.mlen]
    · rw [State.setMlen_mlen, mlen_sub _ h64] at hc
      omega
  · exact .finish rfl rfl rfl (fun _ => rfl) nofun fun _ h => nomatch h

/-- Every command is a function of its operands (R5, R84): one case for each form of a command's meaning. -/
theorem sameOutcome_exec (i : Instr) {s s' : State} (hreg : ∀ r ∈ i.sources, s'.reg r = s.reg r)
    (hmsg : i.usesMessage = true → SameMessage s s') : SameOutcome i s s' (exec i s) (exec i s') := by
  cases i
  all_goals simp only [Instr.sources, List.forall_mem_cons, List.not_mem_nil, false_imp_iff, implies_true, and_true] at hreg
  case nop => exact .finish_plain rfl rfl rfl rfl rfl nofun
  case zeroize =>
    refine .finish rfl rfl rfl (fun _ => rfl) (fun _ r _ => ?_) nofun
    exact (State.clearRegs_reg s' r).trans (State.clearRegs_reg s r).symm
  case seq => exact .finish_plain rfl rfl (by simp only [hreg]) rfl rfl nofun
  case sltl => exact .finish_plain rfl rfl (by simp only [hreg]) rfl rfl nofun
  case fcswap d a b =>
    have hsel : s'.selectorOp b = s.selectorOp b := by simp only [State.selectorOp, hreg]
    simp only [exec, execFcswap, hreg, hsel]
    cases s.selectorOp b <;> exact .finish_plain rfl rfl rfl rfl rfl fun _ _ hr => setReg_setReg_reg_congr _ _ hr
  case genkey =>
    simp only [exec, execGenkey, hreg]
    exact .finish_plain rfl rfl rfl rfl rfl fun _ _ hr => setReg_setReg_reg_congr _ _ hr
  case padd =>
    rw [exec, exec, execPadd_eq, execPadd_eq]
    exact .finishPoint rfl rfl rfl (by simp only [State.pointOp, hreg]) rfl
  case pdsmul =>
    exact .finishPoint rfl rfl rfl (by simp only [State.pointOp, hreg]) (by simp only [State.scalarOp, hreg])
  case pdbl | pdec | e2m => exact .finishPoint rfl rfl rfl (by simp only [State.pointOp, hreg]) rfl
  case m2e => exact .finishPoint rfl rfl rfl (by simp only [State.signOp, hreg]) rfl
  case sign =>
    have hm := hmsg rfl
    exact .checkMlen hm hm.messageTooLong (.setPair hm rfl flagTrue (by simp only [hreg, hm.message]))
  case signr =>
    have hm := hmsg rfl
    exact .checkMlen hm hm.messageTooLong (.setPair hm rfl flagTrue (by simp only [State.pair, hreg, hm.message]))
  case verify =>
    have hm := hmsg rfl
    refine .checkMlen hm hm.messageTooLong (.finish ?_ rfl rfl (fun _ => hm.mlen) nofun fun _ _ => hm.bytes)
    simp only [State.pair, hreg, hm.message]
  case signmsg => exact sameOutcome_execSignmsg (hmsg rfl) hreg
  case openmsg => exact sameOutcome_execOpenmsg (hmsg rfl) hreg
  all_goals
    refine .setReg rfl rfl rfl flagTrue ?_
    simp only [State.fieldOp, State.scalarOp, State.wideOp, State.pair, hreg]

/-- Settles O26: the answers of `exec` in the two states agree. -/
theorem commandReadsOnlyItsOperands : Obligations.CommandReadsOnlyItsOperands := by
  intro i s s' hreg hmsg
  refine sameOutcome_exec i hreg fun hu => ?_
  obtain ⟨hmlen, hmax, hbytes⟩ := hmsg hu
  exact ⟨hmlen, hmax, hbytes⟩

end Sys2Proof.Machine

namespace Sys2Proof.Laws

open Machine

/-! ### The constants of the spec -/

/-- Settles O60: the base point is on the curve and of order `L` by the laws of the package; the rest is arithmetic on fixed numbers. -/
theorem parameterIdentities : Obligations.ParameterIdentities := by
  have hL : sumOf groupOrder basePoint = neutralPoint := (smul_eq_sumOf base_onCurve groupOrder).symm.trans smul_groupOrder
  have hd : (curveD * 121666 + 121665) % fieldPrime = 0 := by decide +kernel
  have hI : sqrtNegOne * sqrtNegOne % fieldPrime = fieldPrime - 1 := by decide +kernel
  have hy : 5 * basePoint.y % fieldPrime = 4 := by decide +kernel
  have hx : basePoint.x % 2 = 0 := by decide +kernel
  have hB : HoldsPoint 0x6666666666666666666666666666666666666666666666666666666666666658#256 basePoint := by
    unfold HoldsPoint; decide +kernel
  exact ⟨rfl, hd, hI, (isPoint_iff _).2 base_onCurve, hy, hx, hB, e2m_base, groupOrder_prime, hL⟩

end Sys2Proof.Laws
end

section
/-! PROOFS. The family of spec/10_state.md: what every command writes and reports, the engine's turn, the canonical form of point
results, the control registers and the reset state. -/

namespace Sys2Proof.Machine

open Laws

/-! ### The end of every command -/

theorem SameRegs.mono {rs rs' : List Reg} {s t : State} (h : SameRegs rs s t) (hsub : rs ⊆ rs') : SameRegs rs' s t :=
  fun j hj => h j fun hmem => hj (hsub hmem)

/-- The command `i` was performed on `s` and left `t` (R83): what it may have written, and `FLAG` where that is no answer (R28). -/
structure Performed (i : Instr) (s t : State) : Prop where
  ends : Ends t.flag t
  regs : SameRegs i.dests s t
  rejected : t.flag = false → SameRegs [] s t
  bytes : i.writesBytes = false → SameBytes s t
  mlen : i.writesMlen = false → t.mlen = s.mlen
  control : SameControl s t
  flag : i.isChecking = false → t.flag = true

/-- A command that wrote its destinations with `FLAG = 1`, and neither `MSG` nor `MLEN`. -/
theorem Performed.of_dests {i : Instr} {s t : State} (h : WritesOnly i.dests true s t) : Performed i s t where
  ends := ⟨rfl, h.ends.busy, h.ends.done⟩
  regs := h.regs
  rejected hf := absurd h.ends.flag (Bool.eq_false_iff.1 hf)
  bytes _ := h.bytes
  mlen _ := h.mlen
  control := h.control
  flag _ := h.ends.flag

/-- A checking command that wrote nothing but its answer. -/
theorem Performed.of_answer {i : Instr} (hcheck : i.isChecking = true) {v : Bool} {s t : State} (h : WritesOnly [] v s t) :
    Performed i s t where
  ends := ⟨rfl, h.ends.busy, h.ends.done⟩
  regs := h.regs.mono (List.nil_subset _)
  rejected _ := h.regs
  bytes _ := h.bytes
  mlen _ := h.mlen
  control := h.control
  flag hf := absurd hcheck (Bool.eq_false_iff.1 hf)

/-- The two ends of a command that decodes (R83, R222): the `MLEN` error where `MLEN` is out of range for it, performed elsewhere. -/
def EndsAs (i : Instr) (s : State) (r : Result) : Prop :=
  ∃ t, r = .next t ∧ (i.mlenBad s ∧ Raises .mlen s t ∨ ¬i.mlenBad s ∧ Performed i s t)

namespace EndsAs

variable {i : Instr} {s : State}

theorem performed (hok : ¬i.mlenBad s) {t : State} (h : Performed i s t) : EndsAs i s (.next t) := ⟨t, rfl, .inr ⟨hok, h⟩⟩

theorem done (hok : ¬i.mlenBad s) (hd : i.dests = []) : EndsAs i s (finish true s) := by
  obtain ⟨t, ht, hw⟩ := finish_flag true s
  exact ht ▸ performed hok (.of_dests (hd ▸ hw))

theorem answer (hok : ¬i.mlenBad s) (hcheck : i.isChecking = true) (v : Bool) : EndsAs i s (finish v s) := by
  obtain ⟨t, ht, hw⟩ := finish_flag v s
  exact ht ▸ performed hok (.of_answer hcheck hw)

theorem setReg (hok : ¬i.mlenBad s) {rd : Reg} (hd : i.dests = [rd]) (w : Word) : EndsAs i s (finish true (s.setReg rd w)) := by
  obtain ⟨t, ht, hw, _⟩ := finish_setReg true s rd w
  exact ht ▸ performed hok (.of_dests (hd ▸ hw))

theorem setReg_setReg (hok : ¬i.mlenBad s) {a b : Reg} (hd : i.dests = [a, b]) (x y : Word) :
    EndsAs i s (finish true ((s.setReg a x).setReg b y)) := by
  obtain ⟨t, ht, hw, _⟩ := finish_setReg_setReg true s a b x y
  exact ht ▸ performed hok (.of_dests (hd ▸ hw))

/-- A point command: its one destination, or a rejection (R160 to R166). -/
theorem finishPoint (hok : ¬i.mlenBad s) (hcheck : i.isChecking = true) {rd : Reg} (hd : i.dests = [rd]) {α : Type}
    (o : Option α) (f : α → Word) : EndsAs i s (finishPoint s (o.map fun P => s.setReg rd (f P))) := by
  cases o with
  | none => exact answer hok hcheck false
  | some P => exact setReg hok hd (f P)

theorem checkMlen {bad : Bool} {go : Result} (hbad : bad = true ↔ i.mlenBad s) (h : ¬i.mlenBad s → EndsAs i s go) :
    EndsAs i s (checkMlen bad s go) := by
  cases bad with
  | true =>
    obtain ⟨t, ht, hr⟩ := raiseError_spec .mlen s
    exact ⟨t, ht, .inl ⟨hbad.1 rfl, hr⟩⟩
  | false => exact h fun hm => nomatch hbad.2 hm

end EndsAs

theorem endsAs_execZeroize (s : State) : EndsAs .zeroize s (execZeroize s) :=
  .performed id ⟨⟨rfl, rfl, rfl⟩, fun j hj => absurd (List.mem_finRange j) hj, nofun, nofun, nofun,
    ⟨rfl, rfl, rfl, rfl, rfl, rfl, rfl⟩, fun _ => rfl⟩

theorem endsAs_execSignmsg (a : Reg) (s : State) : EndsAs (.signmsg a) s (execSignmsg a s) :=
  .checkMlen (noRoomForSignature_iff s) fun hok => .performed hok
    ⟨⟨rfl, rfl, rfl⟩, SameRegs.refl _ s, nofun, nofun, nofun, ⟨rfl, rfl, rfl, rfl, rfl, rfl, rfl⟩, fun _ => rfl⟩

theorem endsAs_execOpenmsg (a : Reg) (s : State) : EndsAs (.openmsg a) s (execOpenmsg a s) := by
  refine .checkMlen (messageTooLong_iff s) fun hok => ?_
  split <;> exact .performed hok
    ⟨⟨rfl, rfl, rfl⟩, SameRegs.refl _ s, fun _ => SameRegs.refl _ s, fun _ => SameBytes.refl s, nofun,
      ⟨rfl, rfl, rfl, rfl, rfl, rfl, rfl⟩, nofun⟩

/-- What every command can do (R28, R83, R86): one case for each form of a command's meaning. -/
theorem endsAs_exec (i : Instr) (s : State) : EndsAs i s (exec i s) := by
  cases i
  case nop => exact .done id rfl
  case zeroize => exact endsAs_execZeroize s
  case seq | sltl => exact .answer id rfl _
  case fcswap rd a b =>
    simp only [exec, execFcswap]
    split <;> exact .setReg_setReg id rfl _ _
  case genkey => exact .setReg_setReg id rfl _ _
  case padd => rw [exec, execPadd_eq]; exact .finishPoint id rfl rfl _ _
  case pdbl | pdsmul | pdec | e2m | m2e => exact .finishPoint id rfl rfl _ _
  case sign | signr => exact .checkMlen (messageTooLong_iff s) fun hok => .setReg_setReg hok rfl _ _
  case verify => exact .checkMlen (messageTooLong_iff s) fun hok => .answer hok rfl _
  case signmsg a => exact endsAs_execSignmsg a s
  case openmsg a => exact endsAs_execOpenmsg a s
  all_goals exact .setReg id rfl _

/-- Settles O27: a refused command writes no register (R225), a performed one those of its row. -/
theorem commandWritesOnlyItsDestinations : Obligations.CommandWritesOnlyItsDestinations := by
  intro i s
  obtain ⟨t, ht, ⟨_, h⟩ | ⟨_, h⟩⟩ := endsAs_exec i s
  · exact ⟨t, ht, h.ends.busy, h.ends.done, h.regs.mono (List.nil_subset _), fun _ => h.regs, fun _ => h.bytes, fun _ => h.mlen,
      h.cmd, h.ie, h.bwe, h.msgMax⟩
  · exact ⟨t, ht, h.ends.busy, h.ends.done, h.regs, h.rejected, h.bytes, h.mlen, h.control.cmd, h.control.ie, h.control.bwe,
      h.control.msgMax⟩

/-! ### No command reads the status bits -/

/-- `s` with other values of `FLAG`, `DONE`, `BWE` and `IE`. -/
def State.withBits (s : State) (f d b e : Bool) : State := { s with flag := f, done := d, bwe := b, ie := e }

/-- The answers `r` and `r'` are the same state but for `BWE` and `IE`, which are `b` and `e` in `r'`. -/
def SameButEnables (b e : Bool) (r r' : Result) : Prop := ∃ t, r = .next t ∧ r' = .next { t with bwe := b, ie := e }

namespace SameButEnables

variable {s : State} {f d b e : Bool}

theorem finishPoint {α : Type} (o : Option α) (g : α → Word) (rd : Reg) :
    SameButEnables b e (finishPoint s (o.map fun P => s.setReg rd (g P)))
      (finishPoint (s.withBits f d b e) (o.map fun P => (s.withBits f d b e).setReg rd (g P))) := by
  cases o <;> exact ⟨_, rfl, rfl⟩

theorem checkMlen (bad : Bool) {go go' : Result} (h : SameButEnables b e go go') :
    SameButEnables b e (checkMlen bad s go) (checkMlen bad (s.withBits f d b e) go') := by
  cases bad with
  | true => exact ⟨_, rfl, rfl⟩
  | false => exact h

end SameButEnables

/-- A command does the same whatever `FLAG`, `DONE`, `BWE` and `IE` were, and keeps the last two (R5, R28, R84). -/
theorem exec_withBits (i : Instr) (s : State) (f d b e : Bool) :
    SameButEnables b e (exec i s) (exec i (s.withBits f d b e)) := by
  cases i
  case padd => rw [exec, exec, execPadd_eq, execPadd_eq]; exact .finishPoint _ _ _
  case pdbl | pdsmul | pdec | e2m | m2e => exact .finishPoint _ _ _
  case sign | signr | verify | signmsg => exact .checkMlen _ ⟨_, rfl, rfl⟩
  case openmsg a =>
    refine .checkMlen _ ?_
    show SameButEnables b e _ (if s.openAccepts (s.reg a) then _ else _)
    cases s.openAccepts (s.reg a) <;> exact ⟨_, rfl, rfl⟩
  case fcswap rd a c =>
    show SameButEnables b e (finish true (if s.selectorOp c then _ else _)) (finish true (if s.selectorOp c then _ else _))
    cases s.selectorOp c <;> exact ⟨_, rfl, rfl⟩
  all_goals exact ⟨_, rfl, rfl⟩

/-- Settles O28: the two ends of `exec`, and the same command on other status bits. -/
theorem flagOfEveryCommand : Obligations.FlagOfEveryCommand := by
  intro i s
  obtain ⟨t, ht, hend⟩ := endsAs_exec i s
  refine ⟨t, ht, fun hbad => ?_, fun hok => ?_, fun f d b e => ?_⟩
  · obtain ⟨_, h⟩ | ⟨hok, _⟩ := hend
    · exact ⟨h.ends.flag, h.err⟩
    · exact absurd hbad hok
  · obtain ⟨hbad, _⟩ | ⟨_, h⟩ := hend
    · exact absurd hbad hok
    · exact ⟨h.control.err, h.flag⟩
  · obtain ⟨u, hu, hu'⟩ := exec_withBits i s f d b e
    obtain rfl := Host.Outcome.next.inj (ht.symm.trans hu)
    exact ⟨_, hu', rfl, fun _ => rfl, fun _ => rfl, rfl⟩

/-! ### The engine's turn -/

/-- The engine's turn is never stuck, and ends the command in flight (R38, R83). -/
theorem engineTurn_next (s : State) : ∃ t, engineTurn s = .next t ∧ (s.busy = true → t.busy = false ∧ t.done = true) := by
  cases hb : s.busy with
  | true =>
    obtain ⟨t, ht, hend⟩ := complete_next s
    exact ⟨t, (engineTurn_busy hb).trans ht, fun _ => hend⟩
  | false => exact ⟨s, engineTurn_idle hb, nofun⟩

/-- Settles O9, by cases on whose turn it is. -/
theorem everyStateSteps : Obligations.EveryStateSteps := by
  intro s
  obtain ⟨_, hs⟩ | ⟨_, _, hs⟩ | ⟨_, _, _, ha, hs⟩ | ⟨_, _, _, _, ha, hs⟩ | ⟨_, _, ha, hs⟩ := step_cases s
  · obtain ⟨t, ht, hend⟩ := engineTurn_next s
    exact ⟨t, hs.trans ht, fun hb _ => hend hb⟩
  · obtain ⟨t, ht, hend⟩ := engineTurn_next s.popAction
    exact ⟨t, hs.trans ht, fun hb _ => hend hb⟩
  all_goals exact ⟨_, hs, fun _ h => by simp [ha] at h⟩

/-! ### The control registers -/

theorem busRead_control {s : State} {addr : BitVec 16} {r : CtrlReg}
    (h : s.place addr.toNat AccessSize.word.bytes = some (.control r)) : s.busRead addr .word = .read .ok (s.readControl r) := by
  rw [State.busRead, h]; rfl

theorem busWrite_control {s : State} {addr : BitVec 16} {r : CtrlReg} (data : BitVec 32)
    (h : s.place addr.toNat AccessSize.word.bytes = some (.control r)) : s.busWrite addr .word data = s.writeControl r data := by
  rw [State.busWrite, h]; rfl

theorem getLsbD_eq_of_digit {d : BitVec 32} {k : Nat} {b : Bool} (h : d.toNat / 2 ^ k % 2 = b.toNat) : d.getLsbD k = b := by
  rw [Bool.eq_iff_iff, bit_iff, h, Bool.toNat_eq_one]

/-- `STATUS` as it reads (R31, R220): its four bits, the number of the error code, and 0 elsewhere. -/
theorem statusWord_fields (s : State) :
    s.statusWord.getLsbD 0 = s.busy ∧ s.statusWord.getLsbD 1 = s.done ∧ s.statusWord.getLsbD 2 = s.flag ∧
    s.statusWord.getLsbD 3 = s.bwe ∧ s.statusWord.toNat / 2 ^ 4 % 16 = 0 ∧ s.statusWord.toNat / 2 ^ 12 = 0 ∧
    s.statusWord.toNat / 2 ^ 8 % 16 = errNumber s.err := by
  have hbusy := s.busy.toNat_le
  have hdone := s.done.toNat_le
  have hflag := s.flag.toNat_le
  have hbwe := s.bwe.toNat_le
  have herr : errNumber s.err ≤ 4 := by cases s.err <;> decide
  have hsum : s.statusWord.toNat =
      s.busy.toNat + 2 * s.done.toNat + 4 * s.flag.toNat + 8 * s.bwe.toNat + 256 * errNumber s.err := by
    rw [State.statusWord, BitVec.toNat_ofNat, Nat.mod_eq_of_lt (by omega)]
  refine ⟨getLsbD_eq_of_digit ?_, getLsbD_eq_of_digit ?_, getLsbD_eq_of_digit ?_, getLsbD_eq_of_digit ?_, ?_, ?_, ?_⟩
  all_goals omega

theorem readControl_ctrl_toNat (s : State) : (s.readControl .ctrl).toNat = s.ie.toNat := by
  have hie := s.ie.toNat_le
  rw [State.readControl, BitVec.toNat_ofNat, Nat.mod_eq_of_lt (by omega)]

theorem readControl_mlen_toNat (s : State) : (s.readControl .mlen).toNat = s.mlen.toNat := by
  have hmlen := s.mlen.isLt
  rw [State.readControl, BitVec.toNat_ofNat, Nat.mod_eq_of_lt (by omega)]

theorem readControl_cap_toNat (s : State) : (s.readControl .cap).toNat = s.msgMax.toNat + 16 * 2 ^ 16 := by
  have hmax := s.msgMax.isLt
  rw [State.readControl, State.capWord, BitVec.toNat_ofNat, Nat.mod_eq_of_lt (Nat.lt_of_lt_of_le (Nat.add_lt_add_right hmax _)
    (by decide))]

/-- Settles O16: the answers are the values of the registers, and these have the fields of the spec. -/
theorem controlRegistersRead : Obligations.ControlRegistersRead := by
  intro s
  obtain ⟨hbusy, hdone, hflag, hbwe, hlow, hhigh, herr⟩ := statusWord_fields s
  have hie := readControl_ctrl_toNat s
  have hie_le := s.ie.toNat_le
  have hcap := readControl_cap_toNat s
  have hmax := s.msgMax.isLt
  refine ⟨busRead_control (place_cmd s), ⟨_, busRead_control (place_status s), hbusy, hdone, hflag, hbwe, hlow, hhigh, ?_⟩,
    ⟨_, busRead_control (place_ctrl s), getLsbD_eq_of_digit (by omega), by omega⟩,
    ⟨_, busRead_control (place_mlen s), readControl_mlen_toNat s⟩, busRead_control (place_id s),
    ⟨_, busRead_control (place_cap s), by omega, by omega⟩⟩
  have hcode : ∀ e, s.err = e → s.statusWord.toNat / 2 ^ 8 % 16 = errNumber e := fun e he => he ▸ herr
  exact ⟨hcode .none, hcode .illop, hcode .rsvd, hcode .pair, hcode .mlen⟩

/-- A write of `STATUS` as one update of the state (R31). -/
theorem writeControl_status (s : State) (data : BitVec 32) : s.writeControl .status data =
    { s with done := if data.toNat / 2 % 2 = 1 then false else s.done, bwe := if data.toNat / 8 % 2 = 1 then false else s.bwe } := by
  have hdone : data.getLsbD 1 = true ↔ data.toNat / 2 % 2 = 1 := bit_iff data 1
  have hbwe : data.getLsbD 3 = true ↔ data.toNat / 8 % 2 = 1 := bit_iff data 3
  simp only [State.writeControl, hdone, hbwe]
  split <;> split <;> rfl

/-- Settles O17: the access has the place of `STATUS`, whatever `BUSY` is. -/
theorem statusWriteClears : Obligations.StatusWriteClears := by
  intro s data
  refine ⟨?_, (busWrite_control data (place_status s)).trans (writeControl_status s data)⟩
  rw [State.busWriteReply, place_status]

/-- Settles O18: each write through `State.writeControl`, that of `MLEN` by cases on `BUSY`. -/
theorem otherControlWrites : Obligations.OtherControlWrites := by
  intro s data
  have hmlen := busWrite_control data (place_mlen s)
  refine ⟨⟨data.getLsbD 0, ?_, busWrite_control data (place_ctrl s)⟩, fun hb => ⟨data.setWidth 16, BitVec.toNat_setWidth _ _, ?_⟩,
    fun hb => ?_, busWrite_control data (place_id s), busWrite_control data (place_cap s)⟩
  · rw [bit_iff, pow_zero, Nat.div_one]
  · rw [hmlen, State.writeControl, if_neg (Bool.eq_false_iff.1 hb)]; rfl
  · rw [hmlen, State.writeControl, if_pos hb]; rfl

/-! ### Reset -/

/-- Settles O20: the registers by index, the rest by the fields of the reset state. -/
theorem resetStateAsSpecified : Obligations.ResetStateAsSpecified := by
  intro msgMax msg
  refine ⟨fun i => ?_, busRead_control (place_cmd _), busRead_control (place_status _), busRead_control (place_ctrl _),
    busRead_control (place_mlen _), busRead_control (place_id _), ?_, rfl, rfl, fun _ => rfl⟩
  · exact State.clearRegs_reg (State.resetWith msgMax msg) i
  · rw [busRead_control (place_cap _)]
    refine congrArg _ (BitVec.eq_of_toNat_eq ?_)
    rw [readControl_cap_toNat, State.resetWith, BitVec.toNat_ofNat, BitVec.toNat_ofNat]
    decide

end Sys2Proof.Machine

namespace Sys2Proof.Laws

open Machine

/-! ### Point results -/

theorem pointOp_onCurve {s : State} {r : Reg} {P : Point} (h : s.pointOp r = some P) : OnCurve P := pdec_onCurve h

theorem m2e_onCurve {ub : Word} {sgn : Bool} {P : Point} (h : m2e ub sgn = some P) : OnCurve P :=
  (isPoint_iff P).1 ((overU_iff ub sgn P).2 h).point

/-- What a point command finds (R21): nothing, or `rd` written with a point of the curve. -/
def FindsPoint (s : State) (rd : Reg) (found : Option State) : Prop :=
  ∀ u, found = some u → ∃ P, OnCurve P ∧ u = s.setPoint rd P

theorem FindsPoint.map {α : Type} {s : State} {rd : Reg} {o : Option α} {f : α → Point} (h : ∀ x, o = some x → OnCurve (f x)) :
    FindsPoint s rd (o.map fun x => s.setPoint rd (f x)) := by
  intro u hu
  obtain ⟨x, hx, rfl⟩ := Option.map_eq_some_iff.1 hu
  exact ⟨f x, h x hx, rfl⟩

theorem FindsPoint.bind {α : Type} {s : State} {rd : Reg} {o : Option α} {f : α → Option State}
    (h : ∀ x, o = some x → FindsPoint s rd (f x)) : FindsPoint s rd (o.bind f) := by
  intro u hu
  obtain ⟨x, hx, hfx⟩ := Option.bind_eq_some_iff.1 hu
  exact h x hx u hfx

/-- Where a point command does not reject, `rd` holds the canonical encoding of the point and decodes to it (R150 to R152). -/
theorem FindsPoint.canonical {s t : State} {rd : Reg} {found : Option State} (h : FindsPoint s rd found)
    (ht : finishPoint s found = .next t) (hf : t.flag = true) : ∃ P, DecodesTo (t.reg rd) P ∧ HoldsPoint (t.reg rd) P := by
  cases found with
  | none => cases ht; cases hf
  | some u =>
    obtain ⟨P, hP, rfl⟩ := h u rfl
    cases ht
    have hreg : (s.setPoint rd P).reg rd = penc P := State.setReg_reg_self s rd (penc P)
    exact ⟨P, hreg ▸ decodesTo_penc hP, hreg ▸ holdsPoint_penc hP.y_lt⟩

/-- Settles O50: the sum, the multiples and the decoded points are on the curve. -/
theorem pointResultsAreCanonical : Obligations.PointResultsAreCanonical := by
  intro i rd a b c s t hi ht hf
  simp only [List.mem_cons, List.not_mem_nil, or_false] at hi
  obtain rfl | rfl | rfl | rfl | rfl | rfl := hi
  · refine FindsPoint.canonical (.bind fun P hP => .map fun Q hQ => ?_) ht hf
    exact padd_onCurve (pointOp_onCurve hP) (pointOp_onCurve hQ)
  · exact FindsPoint.canonical (.map fun P hP => padd_onCurve (pointOp_onCurve hP) (pointOp_onCurve hP)) ht hf
  · refine FindsPoint.canonical (s := s) (found := some _) (fun u hu => ?_) ht hf
    exact ⟨_, smul_onCurve base_onCurve _, (Option.some.inj hu).symm⟩
  · exact FindsPoint.canonical (.map fun A hA => doubleSmul_onCurve _ _ (pointOp_onCurve hA)) ht hf
  · exact FindsPoint.canonical (.map fun P hP => pointOp_onCurve hP) ht hf
  · exact FindsPoint.canonical (.map fun P hP => m2e_onCurve hP) ht hf

end Sys2Proof.Laws
end

section
/-! PROOFS. The family of spec/20_memory.md: which accesses the bus takes, the two windows as bytes, and accesses to a busy engine. -/

namespace Sys2Proof.Machine

open Laws

/-! ### Accepted and refused accesses -/

theorem exists_place_of_busAccepts {s : State} {addr : BitVec 16} {size : AccessSize}
    (h : BusAccepts s.msgMax.toNat addr.toNat size.bytes) : ∃ pl, s.place addr.toNat size.bytes = some pl :=
  Option.ne_none_iff_exists'.1 fun hnone => (place_eq_none_iff s addr size).1 hnone h

theorem busWriteReply_of_busAccepts {s : State} {addr : BitVec 16} {size : AccessSize}
    (h : BusAccepts s.msgMax.toNat addr.toNat size.bytes) : s.busWriteReply addr size = .write .ok := by
  obtain ⟨pl, hpl⟩ := exists_place_of_busAccepts h
  rw [State.busWriteReply, hpl]

theorem busRead_of_no_place {s : State} {addr : BitVec 16} {size : AccessSize} (h : s.place addr.toNat size.bytes = none) :
    s.busRead addr size = .read .err 0#32 := by
  rw [State.busRead, h]

theorem busRead_of_place {s : State} {addr : BitVec 16} {size : AccessSize} {pl : Place}
    (h : s.place addr.toNat size.bytes = some pl) : s.busRead addr size = .read .ok (s.readPlace pl size.bytes) := by
  rw [State.busRead, h]

theorem busWrite_of_no_place {s : State} {addr : BitVec 16} {size : AccessSize} (data : BitVec 32)
    (h : s.place addr.toNat size.bytes = none) : s.busWrite addr size data = s := by
  rw [State.busWrite, h]

theorem busWrite_of_place {s : State} {addr : BitVec 16} {size : AccessSize} {pl : Place} (data : BitVec 32)
    (h : s.place addr.toNat size.bytes = some pl) : s.busWrite addr size data = s.writePlace pl size.bytes data := by
  rw [State.busWrite, h]

/-- A change of state that keeps `MSG_MAX` and commutes with the write of every place commutes with a bus write. -/
theorem busWrite_comm {s : State} (f : State → State) (hmax : (f s).msgMax = s.msgMax) (addr : BitVec 16) (size : AccessSize)
    (data : BitVec 32) (hf : ∀ pl, (f s).writePlace pl size.bytes data = f (s.writePlace pl size.bytes data)) :
    (f s).busWrite addr size data = f (s.busWrite addr size data) := by
  have hplace := place_congr hmax addr.toNat size.bytes
  cases hpl : s.place addr.toNat size.bytes with
  | none => rw [busWrite_of_no_place data hpl, busWrite_of_no_place data (hplace.trans hpl)]
  | some pl => rw [busWrite_of_place data hpl, busWrite_of_place data (hplace.trans hpl), hf]

/-- Settles O11: an access has a place exactly where the bus accepts it. -/
theorem refusedAccessChangesNothing : Obligations.RefusedAccessChangesNothing := by
  intro s addr size data
  refine ⟨fun hacc => ?_, fun href => ?_⟩
  · obtain ⟨pl, hpl⟩ := exists_place_of_busAccepts hacc
    exact ⟨⟨_, busRead_of_place hpl⟩, busWriteReply_of_busAccepts hacc⟩
  · have hnone := (place_eq_none_iff s addr size).2 href
    refine ⟨busRead_of_no_place hnone, ?_, busWrite_of_no_place data hnone⟩
    rw [State.busWriteReply, hnone]

/-! ### One access is one step -/

/-- `s` with another plan of the host and other notes of the bus's answers. -/
def State.withNotes (s : State) (plan : List HostAction) (notes : List BusReply) : State :=
  { s with agenda := plan, replies := notes }

theorem popAction_eq_withNotes {s : State} {a : HostAction} {rest : List HostAction} (h : s.agenda = a :: rest) :
    s.popAction = s.withNotes rest s.replies := by
  rw [State.popAction, h]; rfl

/-- A write of `STATUS` clears `DONE` and `BWE` by bits 1 and 3 of the data (R31). -/
theorem writeControl_status_bits (s : State) (data : BitVec 32) : s.writeControl .status data =
    { s with done := s.done && !data.getLsbD 1, bwe := s.bwe && !data.getLsbD 3 } := by
  rw [State.writeControl]
  cases data.getLsbD 1 <;> cases data.getLsbD 3 <;> simp [State.ackDone, State.clearBwe]

section Notes

variable (s : State) (plan : List HostAction) (notes : List BusReply)

theorem setRegBytes_withNotes (k : Nat) (bs : List Byte) :
    (s.withNotes plan notes).setRegBytes k bs = (s.setRegBytes k bs).withNotes plan notes := by
  induction bs generalizing s k with
  | nil => rfl
  | cons b rest ih => exact ih (s.setRegByte k b) (k + 1)

theorem writeControl_withNotes (r : CtrlReg) (data : BitVec 32) :
    (s.withNotes plan notes).writeControl r data = (s.writeControl r data).withNotes plan notes := by
  cases r with
  | cmd | mlen =>
    show (if s.busy then _ else _) = State.withNotes (if s.busy then _ else _) plan notes
    cases s.busy <;> rfl
  | status => rw [writeControl_status_bits, writeControl_status_bits]; rfl
  | ctrl | id | cap => rfl

theorem writePlace_withNotes (pl : Place) (n : Nat) (data : BitVec 32) :
    (s.withNotes plan notes).writePlace pl n data = (s.writePlace pl n data).withNotes plan notes := by
  cases pl with
  | control r => exact writeControl_withNotes s plan notes r data
  | regs k =>
    rw [State.writePlace, State.writePlace, setRegBytes_withNotes]
    show (if s.busy then _ else _) = State.withNotes (if s.busy then _ else _) plan notes
    cases s.busy <;> rfl
  | message k =>
    show (if s.busy then _ else _) = State.withNotes (if s.busy then _ else _) plan notes
    cases s.busy <;> rfl

/-- A bus write neither reads nor writes the host's plan and notes (R50). -/
theorem busWrite_withNotes (addr : BitVec 16) (size : AccessSize) (data : BitVec 32) :
    (s.withNotes plan notes).busWrite addr size data = (s.busWrite addr size data).withNotes plan notes :=
  busWrite_comm (State.withNotes · plan notes) rfl addr size data fun pl => writePlace_withNotes s plan notes pl size.bytes data

end Notes

/-- Settles O12: the step is the host's turn on the state without the action it takes. -/
theorem busAccessIsOneStep : Obligations.BusAccessIsOneStep := by
  intro s addr size data rest
  refine ⟨fun h => ?_, fun h => ?_⟩
  · rw [step_cons h, popAction_eq_withNotes h]; rfl
  · rw [step_cons h, popAction_eq_withNotes h, hostTurn, busWrite_withNotes]
    exact ⟨_, rfl, rfl, rfl, rfl, rfl, rfl, rfl, rfl, rfl⟩

/-! ### The windows as bytes -/

theorem getElem_bytesOf {n k w : Nat} (v : BitVec w) (h : k < (bytesOf n v).length) :
    (bytesOf n v)[k] = v.extractLsb' (8 * k) 8 := by
  simp [bytesOf]

/-- Data bits `8k+7` to `8k` of a narrow or a full read are byte `k` of the access (R51). -/
theorem busData_map_digit (f : Nat → Byte) {n k : Nat} (hn : n ≤ 4) (hk : k < n) :
    (busData ((List.range n).map f)).toNat / 2 ^ (8 * k) % 256 = (f k).toNat := by
  rw [busData_digit _ (by simpa using hn) k (by simpa using hk), List.getElem_map, List.getElem_range]

/-- Byte `j` of `x[i]` is byte `32·i + j` of the register window (R56). -/
theorem regByte_eq_wordByte (s : State) (i : Reg) {j : Nat} (hj : j < 32) : s.regByte (32 * i.val + j) = wordByte (s.reg i) j := by
  have hi : (Fin.ofNat 16 ((32 * i.val + j) / 32) : Reg) = i := Fin.ext (by rw [ofNat16_val (by omega)]; omega)
  rw [State.regByte, hi, wordByte, Nat.mul_add_mod, Nat.mod_eq_of_lt hj]

/-- The register window after a write of `n` bytes of data: exactly these bytes are the data's (R51, R52). -/
theorem regByte_setRegBytes_bytesOf (s : State) {k n c w : Nat} (v : BitVec w) (hk : k + n ≤ 512) (hc : c < 512) :
    (s.setRegBytes k (bytesOf n v)).regByte c = if k ≤ c ∧ c < k + n then v.extractLsb' (8 * (c - k)) 8 else s.regByte c := by
  rw [regByte_setRegBytes s _ (by rw [length_bytesOf]; exact hk) hc]
  simp only [getElem_bytesOf, length_bytesOf, dite_eq_ite]

/-- `MSG` after a write of `n` bytes of data (R51, R52). -/
theorem msgByte_memWrite_bytesOf (s : State) (k n c : Nat) {w : Nat} (v : BitVec w) :
    (s.memWrite k (bytesOf n v)).msgByte c = if k ≤ c ∧ c < k + n then v.extractLsb' (8 * (c - k)) 8 else s.msgByte c := by
  rw [State.msgByte, State.memWrite_msg, memByte_memStoreBytes]
  simp only [getElem_bytesOf, length_bytesOf, dite_eq_ite, State.msgByte]

/-- Settles O13: the place of the access is the window's index, and the window is an array of bytes. -/
theorem registerWindowIsBytes : Obligations.RegisterWindowIsBytes := by
  intro s addr size data hidle halign hlo hhi
  have hplace := place_regs s halign hlo hhi
  have hread : s.busRead addr size =
      .read .ok (busData ((List.range size.bytes).map fun j => s.regByte (addr.toNat - 0x200 + j))) := by
    rw [busRead_of_place hplace, State.readPlace, hidle]; rfl
  have hwrite : s.busWrite addr size data = s.setRegBytes (addr.toNat - 0x200) (bytesOf size.bytes data) := by
    rw [busWrite_of_place data hplace, State.writePlace, hidle]; rfl
  refine ⟨⟨_, hread, fun k hk i j hj hoff => ?_⟩, fun i j hj => ?_, ?_⟩
  · have hindex : addr.toNat - 0x200 + k = 32 * i.val + j := by omega
    rw [busData_map_digit _ (size_le size).2 hk, hindex, regByte_eq_wordByte s i hj]
  · have hindex : 32 * i.val + j - (addr.toNat - 0x200) = 0x200 + 32 * i.val + j - addr.toNat := by omega
    rw [hwrite, ← regByte_eq_wordByte _ i hj, ← regByte_eq_wordByte s i hj,
      regByte_setRegBytes_bytesOf s data (by omega) (by omega), hindex]
    exact if_congr (by omega) rfl rfl
  · obtain ⟨r, hr⟩ := setRegBytes_eq s (addr.toNat - 0x200) (bytesOf size.bytes data)
    rw [hwrite, hr]
    exact ⟨fun _ => rfl, rfl, ⟨rfl, rfl, rfl, rfl, rfl, rfl, rfl⟩, rfl⟩

/-- Settles O14: as for the register window, with the message memory's own read after a write. -/
theorem messageWindowIsBytes : Obligations.MessageWindowIsBytes := by
  intro s addr size data hidle halign hlo hhi
  have hplace := place_message s halign hlo hhi
  have hread : s.busRead addr size = .read .ok (busData (s.memRead (addr.toNat - 0x1000) size.bytes)) := by
    rw [busRead_of_place hplace, State.readPlace, hidle]; rfl
  have hwrite : s.busWrite addr size data = s.memWrite (addr.toNat - 0x1000) (bytesOf size.bytes data) := by
    rw [busWrite_of_place data hplace, State.writePlace, hidle]; rfl
  refine ⟨⟨_, hread, fun k hk => ?_⟩, fun a => ?_, ?_⟩
  · rw [State.memRead, memBytes, busData_map_digit _ (size_le size).2 hk, Nat.sub_add_comm hlo, State.msgByte]
  · have hindex : a - (addr.toNat - 0x1000) = 0x1000 + a - addr.toNat := by omega
    rw [hwrite, msgByte_memWrite_bytesOf, hindex]
    exact if_congr (by omega) rfl rfl
  · rw [hwrite]
    exact ⟨fun _ => rfl, rfl, ⟨rfl, rfl, rfl, rfl, rfl, rfl, rfl⟩, rfl⟩

/-! ### Accesses while `BUSY = 1` -/

/-- The control registers take accesses of 4 bytes only (R53). -/
theorem size_eq_word_of_busAccepts {msgMax addr : Nat} {size : AccessSize} (h : BusAccepts msgMax addr size.bytes)
    (haddr : addr < 0x18) : size = .word := by
  obtain ⟨_, ⟨_, h4⟩ | ⟨hlo, _⟩ | ⟨hlo, _⟩⟩ := h
  · cases size <;> simp [AccessSize.bytes] at h4 ⊢
  · omega
  · omega

/-- An access to a window of a busy engine reads 0, and as a write only sets `BWE` (R60). -/
theorem window_of_busy {s : State} (hb : s.busy = true) {addr : BitVec 16} {size : AccessSize} (data : BitVec 32)
    (hacc : BusAccepts s.msgMax.toNat addr.toNat size.bytes) (hlo : 0x200 ≤ addr.toNat) :
    s.busRead addr size = .read .ok 0#32 ∧ s.busWrite addr size data = s.dropWrite := by
  have hwindow : ∃ pl, s.place addr.toNat size.bytes = some pl ∧ s.readPlace pl size.bytes = 0#32 ∧
      s.writePlace pl size.bytes data = s.dropWrite := by
    obtain ⟨halign, ⟨hlt, _⟩ | ⟨hlo, hhi⟩ | ⟨hlo, hhi⟩⟩ := hacc
    · omega
    · exact ⟨_, place_regs s halign hlo hhi, if_pos hb, if_pos hb⟩
    · exact ⟨_, place_message s halign hlo hhi, if_pos hb, if_pos hb⟩
  obtain ⟨pl, hpl, hread, hwrite⟩ := hwindow
  exact ⟨hread ▸ busRead_of_place hpl, hwrite ▸ busWrite_of_place data hpl⟩

theorem writeControl_of_busy {s : State} (hb : s.busy = true) {r : CtrlReg} (hr : r = .cmd ∨ r = .mlen) (data : BitVec 32) :
    s.writeControl r data = s.dropWrite := by
  obtain rfl | rfl := hr <;> exact if_pos hb

/-- Settles O15: the windows by their regions, the control registers one by one. -/
theorem accessWhileBusy : Obligations.AccessWhileBusy := by
  intro s addr size data hb hacc
  refine ⟨busWriteReply_of_busAccepts hacc, window_of_busy hb data hacc, ?_, ?_, ?_, ?_, ?_, ?_⟩
  all_goals
    rintro rfl
    obtain rfl := size_eq_word_of_busAccepts hacc (by decide)
  · exact ⟨busRead_control (place_cmd s), (busWrite_control data (place_cmd s)).trans (writeControl_of_busy hb (.inl rfl) data)⟩
  · have hvalue : s.readControl .mlen = s.mlen.setWidth 32 := BitVec.eq_of_toNat_eq (by
      rw [readControl_mlen_toNat, BitVec.toNat_setWidth_of_le (by decide)])
    exact ⟨hvalue ▸ busRead_control (place_mlen s),
      (busWrite_control data (place_mlen s)).trans (writeControl_of_busy hb (.inr rfl) data)⟩
  · exact ⟨busRead_control (place_status s), (busWrite_control data (place_status s)).trans (writeControl_status_bits s data)⟩
  · exact ⟨busRead_control (place_ctrl s), busWrite_control data (place_ctrl s)⟩
  · exact busRead_control (place_id s)
  · rw [busRead_control (place_cap s), State.readControl]

/-! ### The host cannot see or change a command in flight -/

/-- `s` with other registers, another `MSG` and another plan: what an access to a busy engine neither shows nor changes (R60). -/
def State.withHidden (s : State) (regs : Vector Word 16) (msg : Memory) (plan : List HostAction) : State :=
  { s with regs := regs, msg := msg, agenda := plan }

section Busy

variable {s : State} (hb : s.busy = true) (regs : Vector Word 16) (msg : Memory) (plan : List HostAction)
include hb

theorem busy_withHidden : (s.withHidden regs msg plan).busy = true := hb

theorem readPlace_withHidden (pl : Place) (n : Nat) : (s.withHidden regs msg plan).readPlace pl n = s.readPlace pl n := by
  cases pl with
  | control r => cases r <;> rfl
  | regs k | message k => exact (if_pos hb).trans (if_pos hb).symm

theorem busRead_withHidden (addr : BitVec 16) (size : AccessSize) :
    (s.withHidden regs msg plan).busRead addr size = s.busRead addr size := by
  cases hpl : s.place addr.toNat size.bytes with
  | none => rw [busRead_of_no_place hpl, busRead_of_no_place (s := s.withHidden regs msg plan) hpl]
  | some pl =>
    rw [busRead_of_place hpl, busRead_of_place (s := s.withHidden regs msg plan) hpl, readPlace_withHidden hb]

theorem writeControl_withHidden (r : CtrlReg) (data : BitVec 32) :
    (s.withHidden regs msg plan).writeControl r data = (s.writeControl r data).withHidden regs msg plan := by
  cases r with
  | cmd | mlen => rw [State.writeControl, State.writeControl, hb, busy_withHidden hb]; rfl
  | status => rw [writeControl_status_bits, writeControl_status_bits]; rfl
  | ctrl | id | cap => rfl

theorem writePlace_withHidden (pl : Place) (n : Nat) (data : BitVec 32) :
    (s.withHidden regs msg plan).writePlace pl n data = (s.writePlace pl n data).withHidden regs msg plan := by
  cases pl with
  | control r => exact writeControl_withHidden hb regs msg plan r data
  | regs k | message k => rw [State.writePlace, State.writePlace, hb, busy_withHidden hb]; rfl

theorem busWrite_withHidden (addr : BitVec 16) (size : AccessSize) (data : BitVec 32) :
    (s.withHidden regs msg plan).busWrite addr size data = (s.busWrite addr size data).withHidden regs msg plan :=
  busWrite_comm (State.withHidden · regs msg plan) rfl addr size data fun pl =>
    writePlace_withHidden hb regs msg plan pl size.bytes data

end Busy

/-- What accesses leave of a busy engine: other `DONE`, `BWE` and `IE`, and the notes (R31, R32, R60). -/
def State.afterAccesses (s : State) (d b e : Bool) (notes : List BusReply) : State :=
  (s.withBits s.flag d b e).withNotes s.agenda notes

/-- One access to a busy engine: what it leaves, whatever the registers, `MSG` and the plan are. -/
theorem hostTurn_access_of_busy {s : State} (hb : s.busy = true) {a : HostAction} (ha : a.isAccess = true) :
    ∃ d b e notes, ∀ regs msg plan, hostTurn a (s.withHidden regs msg plan)
      = .next ((s.afterAccesses d b e notes).withHidden regs msg plan) := by
  cases a with
  | read addr size =>
    refine ⟨s.done, s.bwe, s.ie, s.busRead addr size :: s.replies, fun regs msg plan => ?_⟩
    rw [hostTurn, busRead_withHidden hb]; rfl
  | write addr size data =>
    obtain ⟨d, b, e, _, hw⟩ := busWrite_busy hb addr size data
    refine ⟨d, b, e, s.busWriteReply addr size :: s.replies, fun regs msg plan => ?_⟩
    rw [hostTurn, busWrite_withHidden hb, hw]; rfl
  | wait => nomatch ha
  | reset bytes => nomatch ha

/-- The accesses between issue and completion neither change the registers and `MSG` nor depend on them (R60). -/
theorem steps_accesses_of_busy {accesses : List HostAction} (hacc : ∀ a ∈ accesses, a.isAccess = true) {s : State}
    (hb : s.busy = true) : ∃ d b e notes, ∀ regs msg rest,
      steps accesses.length (s.withHidden regs msg (accesses ++ rest))
        = .next ((s.afterAccesses d b e notes).withHidden regs msg rest) := by
  induction accesses generalizing s with
  | nil => exact ⟨s.done, s.bwe, s.ie, s.replies, fun _ _ _ => rfl⟩
  | cons a as ih =>
    obtain ⟨ha, has⟩ := List.forall_mem_cons.1 hacc
    obtain ⟨d, b, e, notes, hfirst⟩ := hostTurn_access_of_busy hb ha
    obtain ⟨d', b', e', notes', hrest⟩ := ih has (s := s.afterAccesses d b e notes) hb
    refine ⟨d', b', e', notes', fun regs msg rest => ?_⟩
    have hstep : step (s.withHidden regs msg (a :: as ++ rest))
        = .next ((s.afterAccesses d b e notes).withHidden regs msg (as ++ rest)) := hfirst regs msg (as ++ rest)
    rw [List.length_cons, steps, hstep]
    exact hrest regs msg rest

/-- The answers `r` and `r'` are the same state but for the plan and the notes, which are `plan` and `notes` in `r'`. -/
def SameButNotes (plan : List HostAction) (notes : List BusReply) (r r' : Result) : Prop :=
  ∃ t, r = .next t ∧ r' = .next (t.withNotes plan notes)

namespace SameButNotes

variable {s : State} {plan : List HostAction} {notes : List BusReply}

theorem finishPoint {α : Type} (o : Option α) (g : α → Word) (rd : Reg) :
    SameButNotes plan notes (finishPoint s (o.map fun P => s.setReg rd (g P)))
      (finishPoint (s.withNotes plan notes) (o.map fun P => (s.withNotes plan notes).setReg rd (g P))) := by
  cases o <;> exact ⟨_, rfl, rfl⟩

theorem checkMlen (bad : Bool) {go go' : Result} (h : SameButNotes plan notes go go') :
    SameButNotes plan notes (checkMlen bad s go) (checkMlen bad (s.withNotes plan notes) go') := by
  cases bad with
  | true => exact ⟨_, rfl, rfl⟩
  | false => exact h

end SameButNotes

/-- No command reads or writes the host's plan and notes (R5, R84). -/
theorem exec_withNotes (i : Instr) (s : State) (plan : List HostAction) (notes : List BusReply) :
    SameButNotes plan notes (exec i s) (exec i (s.withNotes plan notes)) := by
  cases i
  case padd => rw [exec, exec, execPadd_eq, execPadd_eq]; exact .finishPoint _ _ _
  case pdbl | pdsmul | pdec | e2m | m2e => exact .finishPoint _ _ _
  case sign | signr | verify | signmsg => exact .checkMlen _ ⟨_, rfl, rfl⟩
  case openmsg a =>
    refine .checkMlen _ ?_
    show SameButNotes _ _ _ (if s.openAccepts (s.reg a) then _ else _)
    cases s.openAccepts (s.reg a) <;> exact ⟨_, rfl, rfl⟩
  case fcswap rd a c =>
    show SameButNotes _ _ (finish true (if s.selectorOp c then _ else _)) (finish true (if s.selectorOp c then _ else _))
    cases s.selectorOp c <;> exact ⟨_, rfl, rfl⟩
  all_goals exact ⟨_, rfl, rfl⟩

theorem complete_of_error {s : State} {e : ErrCode} (h : decode s.cmd = .error e) : complete s = raiseError e s := by
  rw [complete, h]

theorem complete_of_ok {s : State} {i : Instr} (h : decode s.cmd = .ok i) : complete s = exec i s := by
  rw [complete, h]

/-- Completion is the same whatever the host's accesses left, but for `BWE`, `IE`, the plan and the notes (R60, R84). -/
theorem complete_withBits_withNotes (s : State) (d b e : Bool) (plan : List HostAction) (notes : List BusReply) :
    ∃ t, complete s = .next t ∧
      complete ((s.withNotes plan notes).withBits s.flag d b e) = .next ((t.withNotes plan notes).withBits t.flag t.done b e) := by
  cases hdec : decode s.cmd with
  | error code =>
    rw [complete_of_error hdec, complete_of_error (s := (s.withNotes plan notes).withBits s.flag d b e) hdec]
    exact ⟨_, rfl, rfl⟩
  | ok i =>
    rw [complete_of_ok hdec, complete_of_ok (s := (s.withNotes plan notes).withBits s.flag d b e) hdec]
    obtain ⟨t, ht, hnotes⟩ := exec_withNotes i s plan notes
    obtain ⟨u, hu, hbits⟩ := exec_withBits i (s.withNotes plan notes) s.flag d b e
    obtain rfl := Host.Outcome.next.inj (hnotes.symm.trans hu)
    exact ⟨t, ht, hbits⟩

/-- Settles O24: the accesses leave the operands and the word as they were, and completion reads nothing else. -/
theorem hostCannotChangeACommandInFlight : Obligations.HostCannotChangeACommandInFlight := by
  intro s accesses rest hb hacc
  obtain ⟨d, b, e, notes, hrun⟩ := steps_accesses_of_busy hacc hb
  obtain ⟨t, hatOnce, hafter⟩ := complete_withBits_withNotes { s with agenda := [] } d b e rest notes
  refine ⟨t, (t.withNotes rest notes).withBits t.flag t.done b e, ?_, ?_, fun _ => rfl, fun _ => rfl, rfl, rfl, rfl, rfl, rfl, rfl⟩
  · exact (step_nil rfl).trans ((engineTurn_busy (s := { s with agenda := [] }) hb).trans hatOnce)
  · calc steps (accesses.length + 1) { s with agenda := accesses ++ .wait :: rest }
      _ = step ((s.afterAccesses d b e notes).withHidden s.regs s.msg (.wait :: rest)) := steps_succ (hrun s.regs s.msg _)
      _ = complete ((s.afterAccesses d b e notes).withHidden s.regs s.msg rest) :=
        (step_cons (a := .wait) rfl).trans (engineTurn_busy hb)
      _ = .next ((t.withNotes rest notes).withBits t.flag t.done b e) := hafter

/-- Settles O25: the accesses leave the same notes, `DONE` and `IE` whatever the registers and `MSG` hold. -/
theorem busyEngineRevealsNothing : Obligations.BusyEngineRevealsNothing := by
  intro s regs msg accesses hb hacc
  obtain ⟨d, b, e, notes, hrun⟩ := steps_accesses_of_busy hacc hb
  have hleft := hrun s.regs s.msg []
  have hright := hrun regs msg []
  rw [List.append_nil] at hleft hright
  exact ⟨_, _, hleft, hright, rfl, rfl⟩

end Sys2Proof.Machine
end

section
/-! PROOFS. The family of spec/30_encoding.md: the command word and its decoder are inverse to each other, and a word issued by a write of
`CMD` runs its command. -/

namespace Sys2Proof

/-! ### The lines of the opcode map -/

/-- The fields that a line does not use are zero (R80, R88): `OpRow.mbzOk`, of the operands. -/
def OpRow.unusedZero (r : OpRow) (a b c d : Reg) : Bool :=
  r.rd.mbzOk a && r.rs1.mbzOk b && r.rs2.mbzOk c && r.rs3.mbzOk d

/-- The fields that a line reads as pairs are even (R81): `OpRow.pairsOk`, of the operands. -/
def OpRow.pairsEven (r : OpRow) (a b c d : Reg) : Bool :=
  r.rd.pairOk a && r.rs1.pairOk b && r.rs2.pairOk c && r.rs3.pairOk d

theorem OpRow.mbzOk_eq_true_iff {r : OpRow} {w : BitVec 32} : r.mbzOk w = true ↔
    w.toNat / 2 ^ 24 = 0 ∧ r.unusedZero (regField w 8) (regField w 12) (regField w 16) (regField w 20) = true := by
  simp only [OpRow.mbzOk, OpRow.unusedZero, Bool.and_eq_true, beq_iff_eq, and_assoc]

theorem OpRow.pairsOk_eq (r : OpRow) (w : BitVec 32) :
    r.pairsOk w = r.pairsEven (regField w 8) (regField w 12) (regField w 16) (regField w 20) := rfl

/-- What a line builds is encoded as the line's opcode and fields, and is well formed where the line's pair fields are even (R86, R90). -/
theorem build_of_opRow {op : Nat} {r : OpRow} (hr : opRow op = some r) {a b c d : Reg} (hz : r.unusedZero a b c d = true) :
    encode (r.build a b c d) = commandWord op a b c d ∧ (r.build a b c d).wellFormed = r.pairsEven a b c d := by
  -- One case for each of the 30 lines: both sides are the line's own fields, with 0 for those that `hz` speaks of.
  unfold opRow at hr
  split at hr <;> cases hr <;>
    simp_all [OpRow.unusedZero, FieldUse.mbzOk, encode, Instr.wellFormed, Instr.pairFields, OpRow.pairsEven, FieldUse.pairOk]

/-- Every command is what a line of the opcode map builds from fields of which the unused ones are zero (R86). -/
theorem exists_opRow_build (i : Instr) : ∃ op r a b c d,
    encode i = commandWord op a b c d ∧ op < 256 ∧ opRow op = some r ∧ r.unusedZero a b c d = true ∧ r.build a b c d = i := by
  cases i with
  | nop | zeroize => exact ⟨_, _, 0, 0, 0, 0, rfl, by decide, rfl, rfl, rfl⟩
  | fadd d a b | fsub d a b | fmul d a b | fcswap d a b | ladder d a b | padd d a b | m2e d a b | shared d a b | signr d a b =>
    exact ⟨_, _, d, a, b, 0, rfl, by decide, rfl, rfl, rfl⟩
  | fsqr d a | finv d a | fcan d a | sclamp d a | sred d a | ladderb d a | pdbl d a | psmulb d a | pdec d a | e2m d a | genkey d a
  | sign d a =>
    exact ⟨_, _, d, a, 0, 0, rfl, by decide, rfl, rfl, rfl⟩
  | smuladd d a b c | pdsmul d a b c => exact ⟨_, _, d, a, b, c, rfl, by decide, rfl, rfl, rfl⟩
  | seq a b | verify a b => exact ⟨_, _, 0, a, b, 0, rfl, by decide, rfl, rfl, rfl⟩
  | sltl a | signmsg a | openmsg a => exact ⟨_, _, 0, a, 0, 0, rfl, by decide, rfl, rfl, rfl⟩

/-! ### Decoding and encoding -/

/-- A word whose bits 31 to 24 are zero is its opcode and its four register fields (R80). -/
theorem commandWord_fields {w : BitVec 32} (h : w.toNat / 2 ^ 24 = 0) :
    commandWord (opcodeField w) (regField w 8) (regField w 12) (regField w 16) (regField w 20) = w := by
  have hop : opcodeField w < 256 := Nat.mod_lt _ (by decide)
  apply BitVec.eq_of_toNat_eq
  rw [commandWord_toNat hop, regField_val, regField_val, regField_val, regField_val, opcodeField]
  omega

/-- What a word that decodes must be (R87): its opcode has a line, it passes both checks, and the command is the line's. -/
theorem of_decode_ok {w : BitVec 32} {i : Instr} (h : decode w = .ok i) : ∃ r, opRow (opcodeField w) = some r ∧
    r.mbzOk w = true ∧ r.pairsOk w = true ∧ r.build (regField w 8) (regField w 12) (regField w 16) (regField w 20) = i := by
  unfold decode at h
  split at h
  · cases h
  next r hr =>
    split_ifs at h with hm hp
    cases h
    exact ⟨r, hr, Bool.not_eq_false _ ▸ hm, Bool.not_eq_false _ ▸ hp, rfl⟩

/-- Settles O1: the command is built by a line of the opcode map, and the word of a line decodes to what the line builds. -/
theorem decodeOfEncodeIsTheCommand : Obligations.DecodeOfEncodeIsTheCommand := by
  intro i hwf
  obtain ⟨op, r, a, b, c, d, henc, hop, hr, hz, rfl⟩ := exists_opRow_build i
  have hpairs : r.pairsEven a b c d = true := (build_of_opRow hr hz).2 ▸ hwf
  rw [henc]
  exact decode_commandWord hop hr a b c d hz hpairs

/-- Settles O2: the line that decodes the word builds a command whose encoding is the word's own opcode and fields. -/
theorem decodedWordHasOneEncoding : Obligations.DecodedWordHasOneEncoding := by
  intro w i hdec
  obtain ⟨r, hr, hm, hp, rfl⟩ := of_decode_ok hdec
  obtain ⟨hhigh, hz⟩ := OpRow.mbzOk_eq_true_iff.1 hm
  rw [OpRow.pairsOk_eq] at hp
  obtain ⟨henc, hwf⟩ := build_of_opRow hr hz
  exact ⟨hwf.trans hp, henc.trans (commandWord_fields hhigh)⟩

/-- Settles O3: each word is the encoding of its command, so decoding gives the command back. -/
theorem exampleWordsDecode : Obligations.ExampleWordsDecode :=
  have back := decodeOfEncodeIsTheCommand
  ⟨back .nop rfl, back .zeroize rfl, back (.fadd 3 1 2) rfl, back (.fcswap 1 2 3) rfl, back (.smuladd 1 2 3 4) rfl, back (.sred 1 2) rfl,
    back (.ladder 3 1 2) rfl, back (.pdsmul 4 1 2 3) rfl, back (.signr 2 1 4) rfl, back (.verify 3 4) rfl⟩

theorem decode_of_decodeTableWord {nbits w : Nat} {i : Instr} (h : decodeTableWord nbits w = some i) :
    decode (BitVec.ofNat 32 (w % 2 ^ nbits)) = .ok i := by
  unfold decodeTableWord at h
  split at h
  · cases h
  next v hv =>
    obtain ⟨_, hword⟩ := Option.ite_none_right_eq_some.1 hv
    obtain rfl := Option.some.inj hword
    split at h
    next j hj => exact Option.some.inj h ▸ hj
    · cases h

end Sys2Proof

namespace Sys2Proof.Machine

/-! ### Issue and completion -/

theorem engineTurn_of_decode_ok {s : State} {i : Instr} (hb : s.busy = true) (h : decode s.cmd = .ok i) : engineTurn s = exec i s :=
  (engineTurn_busy hb).trans (complete_of_ok h)

/-- Settles O6: whether the plan is empty or a wait, the step is the engine's turn. -/
theorem stepRunsTheDecodedCommand : Obligations.StepRunsTheDecodedCommand := by
  intro s i hb hdec
  refine ⟨fun hplan => ?_, fun rest hplan => ?_⟩
  · exact (step_nil hplan).trans (engineTurn_of_decode_ok hb hdec)
  · exact (step_cons hplan).trans (engineTurn_of_decode_ok (s := s.popAction) hb hdec)

/-- Settles O7: the issued word decodes to the row's command, and the host waits. -/
theorem tableWordRunsNext : Obligations.TableWordRunsNext := by
  intro s nbits w i h
  obtain ⟨_, hwait⟩ := stepRunsTheDecodedCommand (s.withFetchWord nbits w) i rfl (decode_of_decodeTableWord h)
  exact hwait s.agenda rfl

theorem busWriteReply_cmd (s : State) : s.busWriteReply 0x0000#16 .word = .write .ok := by
  rw [State.busWriteReply, place_cmd]

/-- A write of `CMD` to an idle engine is the issue of the word (R82). -/
theorem busWrite_cmd_of_idle {s : State} (hidle : s.busy = false) (w : BitVec 32) : s.busWrite 0x0000#16 .word w = s.issue w :=
  (busWrite_control w (place_cmd s)).trans (if_neg (Bool.eq_false_iff.1 hidle))

theorem busWrite_cmd_of_busy {s : State} (hb : s.busy = true) (w : BitVec 32) : s.busWrite 0x0000#16 .word w = s.dropWrite :=
  (busWrite_control w (place_cmd s)).trans (writeControl_of_busy hb (.inl rfl) w)

/-- Settles O10: the write is an issue while idle and dropped while busy. -/
theorem writeOfCmdIssues : Obligations.WriteOfCmdIssues := by
  intro s w
  refine ⟨busWriteReply_cmd s, fun hidle => ⟨busWrite_cmd_of_idle hidle w, ?_⟩, fun hb => busWrite_cmd_of_busy hb w⟩
  rw [busWrite_cmd_of_idle hidle]; rfl

/-- A planned write of `CMD` to an idle engine, as one step: the word is issued, and the bus answers OK (R82, R91). -/
theorem step_write_cmd_of_idle {s : State} {w : BitVec 32} {rest : List HostAction} (hidle : s.busy = false)
    (hplan : s.agenda = .write 0x0000#16 .word w :: rest) :
    step s = .next ((s.issue w).withNotes rest (.write .ok :: s.replies)) := by
  rw [step_cons hplan, popAction_eq_withNotes hplan, hostTurn, busWriteReply_cmd, busWrite_withNotes, busWrite_cmd_of_idle hidle]; rfl

/-- Settles O8: the write issues the word (R82), and the next step is the engine's turn on it (R83). -/
theorem writtenCommandRuns : Obligations.WrittenCommandRuns := by
  intro s i rest hwf hidle hplan
  have hissue := step_write_cmd_of_idle hidle hplan
  obtain ⟨_, hrun⟩ := stepRunsTheDecodedCommand ((s.issue (encode i)).withNotes (.wait :: rest) (.write .ok :: s.replies)) i rfl
    (decodeOfEncodeIsTheCommand i hwf)
  exact (steps_succ (n := 1) ((steps_succ (n := 0) rfl).trans hissue)).trans (hrun rest rfl)

end Sys2Proof.Machine
end

section
/-! PROOFS. The family of spec/40_field.md: the field commands are exact in GF(p) on the decoded operands, and `FCSWAP` exchanges bytes. -/

namespace Sys2Proof.Laws

open Machine

/-! ### Reserved words, by the fields that a line does not use -/

/-- A command without `rs3` has the reserved bits 31 to 20 (R80, R88). -/
theorem reservedAbove_of_no_rs3 {op : Nat} {r : OpRow} (hr : opRow op = some r) (h3 : r.rs3 = .unused) : ReservedAbove op 20 true := by
  refine reservedAbove_of hr fun w hm => ⟨?_, nofun⟩
  obtain ⟨hhigh, _, _, _, hrs3⟩ := (mbzOk_iff r w).1 hm
  have hzero := hrs3 h3
  omega

/-- A command without `rs2` and `rs3` has the reserved bits 31 to 16 (R80, R88). -/
theorem reservedAbove_of_no_rs2_rs3 {op : Nat} {r : OpRow} (hr : opRow op = some r) (h2 : r.rs2 = .unused) (h3 : r.rs3 = .unused) :
    ReservedAbove op 16 true := by
  refine reservedAbove_of hr fun w hm => ⟨?_, nofun⟩
  obtain ⟨hhigh, _, _, hrs2, hrs3⟩ := (mbzOk_iff r w).1 hm
  have hzero2 := hrs2 h2
  have hzero3 := hrs3 h3
  omega

/-! ### Field arithmetic -/

/-- The integer that a command works on stands for the field element that its operand register holds (R21, R100). -/
@[simp] theorem toF_fieldOp (s : State) (i : Reg) : toF (s.fieldOp i) = fieldValue (s.reg i) := (fieldValue_eq (s.reg i)).symm

/-- Settles O30: each result is a field operation on the decoded operands, and the map to `ZMod p` keeps the operations. -/
theorem fieldArithmeticIsExact : Obligations.FieldArithmeticIsExact := by
  have back := decodeOfEncodeIsTheCommand
  refine ⟨fun rd rs1 rs2 s => ⟨?_, ?_, ?_, ?_⟩,
    fun rd rs1 rs2 => back (.fadd rd rs1 rs2) rfl, reservedAbove_of_no_rs3 rfl rfl,
    fun rd rs1 rs2 => back (.fsub rd rs1 rs2) rfl, reservedAbove_of_no_rs3 rfl rfl,
    fun rd rs1 rs2 => back (.fmul rd rs1 rs2) rfl, reservedAbove_of_no_rs3 rfl rfl,
    fun rd rs1 => back (.fsqr rd rs1) rfl, reservedAbove_of_no_rs2_rs3 rfl rfl rfl⟩
  · exact setField_result s rd _ _ (by rw [toF_fadd, toF_fieldOp, toF_fieldOp])
  · exact setField_result s rd _ _ (by rw [toF_fsub, toF_fieldOp, toF_fieldOp])
  · exact setField_result s rd _ _ (by rw [toF_fmul, toF_fieldOp, toF_fieldOp])
  · exact setField_result s rd _ _ (by rw [toF_fsqr, toF_fieldOp])

/-- `finv` is the power `p - 2`, as R102 defines it; `toF_finv` says that this is the inverse. -/
theorem toF_finv_eq_pow (v : Nat) : toF (finv v) = toF v ^ (fieldPrime - 2) := toF_fpow v _ (by decide +kernel)

/-- Settles O31: the power `p - 2` is the inverse of the field, which is 0 at 0. -/
theorem fieldInversionInverts : Obligations.FieldInversionInverts := by
  have := fact_prime
  refine ⟨fun rd rs1 s => ?_, fun rd rs1 => decodeOfEncodeIsTheCommand (.finv rd rs1) rfl, reservedAbove_of_no_rs2_rs3 rfl rfl rfl⟩
  have hinv : toF (finv (s.fieldOp rs1)) = (fieldValue (s.reg rs1))⁻¹ := by rw [toF_finv, toF_fieldOp]
  have hpow : toF (finv (s.fieldOp rs1)) = fieldValue (s.reg rs1) ^ (fieldPrime - 2) := by rw [toF_finv_eq_pow, toF_fieldOp]
  obtain ⟨t, ht, hw, hres⟩ := setField_result s rd (finv (s.fieldOp rs1)) _ hinv
  exact ⟨t, _, ht, hw, hres, hinv.symm.trans hpow, fun h0 => inv_eq_zero.2 h0, mul_inv_cancel₀⟩

/-- A register is its own canonical encoding exactly where it is below `p` (R100, R101). -/
theorem fenc_fdec_eq_iff (b : Word) : fenc (fdec b) = b ↔ b.toNat < fieldPrime := by
  refine ⟨fun h => ?_, fenc_fdec_of_lt⟩
  rw [← h, fenc_toNat]
  exact Nat.mod_lt _ fieldPrime_pos

/-- Settles O33: `rd` is left with the encoding of the decoded operand. -/
theorem canonicaliseReduces : Obligations.CanonicaliseReduces := by
  refine ⟨fun rd rs1 s => ?_, fun rd rs1 => decodeOfEncodeIsTheCommand (.fcan rd rs1) rfl, reservedAbove_of_no_rs2_rs3 rfl rfl rfl⟩
  obtain ⟨t, ht, hw, hreg⟩ := finish_setReg true s rd (fenc (s.fieldOp rs1))
  refine ⟨t, ht, hw, ?_, ?_, ?_⟩ <;> rw [hreg]
  · rw [← toF_fieldOp]; exact holdsField_fenc (s.fieldOp rs1)
  · rw [fenc_toNat]; exact Nat.mod_eq_of_lt (fdec_lt (s.reg rs1))
  · exact fenc_fdec_eq_iff (s.reg rs1)

end Sys2Proof.Laws

namespace Sys2Proof.Machine

open Laws

/-! ### The conditional swap -/

theorem selectorOp_eq (s : State) (i : Reg) : s.selectorOp i = decide ((s.reg i).toNat % 2 = 1) := Nat.testBit_zero _

/-- A command that writes two registers, the same value to both where they are one register. -/
theorem finish_setReg_setReg_of_agree (v : Bool) (s : State) {a b : Reg} {x y : Word} (h : a = b → x = y) :
    ∃ t, finish v ((s.setReg a x).setReg b y) = .next t ∧ WritesOnly [a, b] v s t ∧ t.reg a = x ∧ t.reg b = y := by
  obtain ⟨t, ht, hw, hb, ha⟩ := finish_setReg_setReg v s a b x y
  refine ⟨t, ht, hw, ?_, hb⟩
  by_cases hab : a = b
  · rw [hab, hb, h hab]
  · exact ha hab

/-- Settles O32, by cases on the selector: where `rd` and `rs1` are one register, the two values written are the same. -/
theorem conditionalSwapExchanges : Obligations.ConditionalSwapExchanges := by
  refine ⟨fun rd rs1 rs2 s => ?_, fun rd rs1 rs2 => decodeOfEncodeIsTheCommand (.fcswap rd rs1 rs2) rfl,
    reservedAbove_of_no_rs3 rfl rfl⟩
  rw [exec, execFcswap, selectorOp_eq]
  by_cases hsel : (s.reg rs2).toNat % 2 = 1
  · rw [if_pos (decide_eq_true hsel)]
    obtain ⟨t, ht, hw, hd, h1⟩ := finish_setReg_setReg_of_agree flagTrue s (fun h => (congrArg s.reg h).symm)
    exact ⟨t, ht, hw, fun _ => ⟨hd, h1⟩, fun heven => by omega⟩
  · rw [if_neg (by rwa [decide_eq_true_iff])]
    obtain ⟨t, ht, hw, hd, h1⟩ := finish_setReg_setReg_of_agree flagTrue s (congrArg s.reg)
    exact ⟨t, ht, hw, fun hodd => absurd hodd hsel, fun _ => ⟨hd, h1⟩⟩

end Sys2Proof.Machine
end

section
/-! PROOFS. The family of spec/41_scalar.md: the clamp is two byte masks, scalar results are exact modulo `L`, and the two comparisons
answer in `FLAG` alone. -/

namespace Sys2Proof.Laws

open Machine

/-! ### Reserved words and pair fields -/

/-- Bits 31 to 24 are reserved in the word of every command (R80, R88). -/
theorem reservedAbove_high {op : Nat} {r : OpRow} (hr : opRow op = some r) : ReservedAbove op 24 true := by
  refine reservedAbove_of hr fun w hm => ⟨?_, nofun⟩
  obtain ⟨hhigh, _⟩ := (mbzOk_iff r w).1 hm
  exact hhigh

/-- A command without `rd` and `rs3` has the reserved bits 31 to 20 and 11 to 8 (R80, R88). -/
theorem reservedAbove_of_no_rd_rs3 {op : Nat} {r : OpRow} (hr : opRow op = some r) (hd : r.rd = .unused) (h3 : r.rs3 = .unused) :
    ReservedAbove op 20 false := by
  refine reservedAbove_of hr fun w hm => ?_
  obtain ⟨hhigh, hrd, _, _, hrs3⟩ := (mbzOk_iff r w).1 hm
  have hzero := hrs3 h3
  exact ⟨by omega, fun _ => hrd hd⟩

/-- A command with `rs1` alone has the reserved bits 31 to 16 and 11 to 8 (R80, R88). -/
theorem reservedAbove_of_rs1_alone {op : Nat} {r : OpRow} (hr : opRow op = some r) (hd : r.rd = .unused) (h2 : r.rs2 = .unused)
    (h3 : r.rs3 = .unused) : ReservedAbove op 16 false := by
  refine reservedAbove_of hr fun w hm => ?_
  obtain ⟨hhigh, hrd, _, hrs2, hrs3⟩ := (mbzOk_iff r w).1 hm
  have hzero2 := hrs2 h2
  have hzero3 := hrs3 h3
  exact ⟨by omega, fun _ => hrd hd⟩

/-- The pair field of a command with `rd` and the pair `rs1` (R81). -/
theorem pairField_of_rd_pair_rs1 {op : Nat} {r : OpRow} (hr : opRow op = some r) (hd : r.rd = .reg) (h1 : r.rs1 = .pair) :
    PairField op 16 true 12 := by
  refine pairField_of hr (fun w hlo _ => (mbzOk_iff r w).2 ⟨by omega, ?_, ?_, fun _ => by omega, fun _ => by omega⟩) fun w hp => ?_
  · rw [hd]; nofun
  · rw [h1]; nofun
  · obtain ⟨_, hrs1, _, _⟩ := (pairsOk_iff r w).1 hp
    exact hrs1 h1

/-! ### Clamping -/

/-- The bits that the clamp keeps, 3 to 254 (R120). -/
def clampKeep : Word := BitVec.ofNat 256 (2 ^ 255 - 8)

/-- The bit that the clamp sets (R120). -/
def clampSet : Word := BitVec.ofNat 256 (2 ^ 254)

theorem clamp_eq_masks (b : Word) : clamp b = (b &&& clampKeep) ||| clampSet := rfl

/-- The clamp works on each byte by itself: AND with the byte of the one mask, OR with that of the other (R120). -/
theorem wordByte_clamp (b : Word) (j : Nat) :
    wordByte (clamp b) j = (wordByte b j &&& wordByte clampKeep j) ||| wordByte clampSet j := by
  rw [clamp_eq_masks, wordByte, BitVec.extractLsb'_or, BitVec.extractLsb'_and]
  rfl

/-- Between the bytes 0 and 31 the two masks of the clamp are all ones and all zeros. -/
theorem clampMasks_inner : ∀ j ≤ 30, 1 ≤ j → wordByte clampKeep j = 0xFF#8 ∧ wordByte clampSet j = 0#8 := by decide +kernel

theorem wordByte_clamp_zero (b : Word) : wordByte (clamp b) 0 = wordByte b 0 &&& 0xF8#8 := by
  rw [wordByte_clamp, show wordByte clampKeep 0 = 0xF8#8 from by decide +kernel,
    show wordByte clampSet 0 = 0#8 from by decide +kernel, BitVec.or_zero]

theorem wordByte_clamp_inner (b : Word) {j : Nat} (h1 : 1 ≤ j) (h30 : j ≤ 30) : wordByte (clamp b) j = wordByte b j := by
  obtain ⟨hand, hor⟩ := clampMasks_inner j h30 h1
  rw [wordByte_clamp, hand, hor, BitVec.or_zero]
  exact BitVec.and_allOnes

theorem wordByte_clamp_last (b : Word) : wordByte (clamp b) 31 = (wordByte b 31 &&& 0x7F#8) ||| 0x40#8 := by
  rw [wordByte_clamp, show wordByte clampKeep 31 = 0x7F#8 from by decide +kernel,
    show wordByte clampSet 31 = 0x40#8 from by decide +kernel]

/-- A clamped scalar is a multiple of 8 in `[2^254, 2^255)` (R120); `clamp_lt` is the upper end. -/
theorem clamp_mod_eight (b : Word) : (clamp b).toNat % 8 = 0 := by rw [clamp_toNat]; omega

theorem le_clamp (b : Word) : 2 ^ 254 ≤ (clamp b).toNat := by rw [clamp_toNat]; omega

/-- A multiple of 8 in `[2^254, 2^255)` is its own clamp (R120). -/
theorem clamp_eq_self {b : Word} (h8 : b.toNat % 8 = 0) (hlo : 2 ^ 254 ≤ b.toNat) (hhi : b.toNat < 2 ^ 255) : clamp b = b := by
  apply BitVec.eq_of_toNat_eq
  rw [clamp_toNat]
  omega

/-- Settles O34: `rd` is left with the clamp, which masks byte by byte. -/
theorem clampSetsTheFixedBits : Obligations.ClampSetsTheFixedBits := by
  refine ⟨fun rd rs1 s => ?_, fun rd rs1 => decodeOfEncodeIsTheCommand (.sclamp rd rs1) rfl, reservedAbove_of_no_rs2_rs3 rfl rfl rfl⟩
  obtain ⟨t, ht, hw, hreg⟩ := finish_setReg flagTrue s rd (clamp (s.reg rs1))
  refine ⟨t, ht, hw, ?_⟩
  rw [hreg]
  exact ⟨wordByte_clamp_zero _, fun j => wordByte_clamp_inner _, wordByte_clamp_last _, clamp_mod_eight _, le_clamp _, clamp_lt _,
    clamp_eq_self⟩

/-! ### Reduction modulo L -/

/-- A command that writes a scalar (R21, R122). -/
theorem setScalar_result (s : State) (rd : Reg) (v : Nat) :
    ∃ t, finish flagTrue (s.setScalar rd v) = .next t ∧ WritesOnly [rd] true s t ∧ HoldsScalar (t.reg rd) v := by
  obtain ⟨t, ht, hw, hreg⟩ := finish_setReg flagTrue s rd (scalarWord v)
  exact ⟨t, ht, hw, hreg ▸ holdsScalar_scalarWord v⟩

/-- Settles O35: the integers are the operands' own, and a scalar result is reduced once, at its end. -/
theorem scalarReductionsAreExact : Obligations.ScalarReductionsAreExact := by
  have back := decodeOfEncodeIsTheCommand
  refine ⟨fun rd lo hi s heven hnext => ?_, fun rd rs1 rs2 rs3 s => setScalar_result s rd _,
    fun rd rs1 heven => back (.sred rd rs1) ?_, reservedAbove_of_no_rs2_rs3 rfl rfl rfl, pairField_of_rd_pair_rs1 rfl rfl rfl,
    fun rd rs1 rs2 rs3 => back (.smuladd rd rs1 rs2 rs3) rfl, reservedAbove_high rfl⟩
  · rw [eq_pairHigh heven hnext, ← wideOp_eq]
    exact setScalar_result s rd (s.wideOp lo)
  · simp [Instr.WellFormed, Instr.wellFormed, Instr.pairFields, Reg.isPair, heven]

/-! ### The comparisons -/

/-- A register is its 32 bytes (R15). -/
theorem eq_iff_wordByte_eq {a b : Word} : a = b ↔ ∀ j, j < 32 → wordByte a j = wordByte b j := by
  refine ⟨fun h _ _ => h ▸ rfl, fun h => BitVec.eq_of_toNat_eq ?_⟩
  have hbytes : registerBytes a = registerBytes b := List.map_congr_left fun j hj => h j (List.mem_range.1 hj)
  rw [← leBytes_registerBytes a, hbytes, leBytes_registerBytes]

/-- With bit 255 cleared a register is below `L` exactly where it is `n` or `n + 2^255` for an `n` below `L` (R126). -/
theorem flagSltl_iff (b : Word) :
    flagSltl b = true ↔ ∃ n, n < groupOrder ∧ (b.toNat = n ∨ b.toNat = n + 2 ^ 255) := by
  rw [flagSltl, decide_eq_true_iff]
  have horder : groupOrder < 2 ^ 255 := by decide +kernel
  constructor
  · intro h
    have hlt := b.isLt
    exact ⟨_, h, by omega⟩
  · rintro ⟨n, hn, hlow | hhigh⟩
    · rwa [hlow, Nat.mod_eq_of_lt (hn.trans horder)]
    · rwa [hhigh, Nat.add_mod_right, Nat.mod_eq_of_lt (hn.trans horder)]

/-- Settles O36: both commands end with `FLAG` and nothing else, and each flag is the condition on the operands. -/
theorem scalarChecksAnswerInFlag : Obligations.ScalarChecksAnswerInFlag := by
  have back := decodeOfEncodeIsTheCommand
  refine ⟨fun rs1 rs2 s => ?_, fun rs1 s => ?_, fun rs1 rs2 => back (.seq rs1 rs2) rfl, reservedAbove_of_no_rd_rs3 rfl rfl rfl,
    fun rs1 => back (.sltl rs1) rfl, reservedAbove_of_rs1_alone rfl rfl rfl rfl⟩
  · obtain ⟨t, ht, hw⟩ := finish_flag (flagSeq (s.reg rs1) (s.reg rs2)) s
    exact ⟨t, _, ht, hw, decide_eq_true_iff.trans eq_iff_wordByte_eq⟩
  · obtain ⟨t, ht, hw⟩ := finish_flag (flagSltl (s.reg rs1)) s
    exact ⟨t, _, ht, hw, flagSltl_iff _⟩

end Sys2Proof.Laws
end

section
/-! PROOFS. The family of spec/42_montgomery.md: the two ladder commands follow R141, and the laws (a) to (f) of R144 on what the ladder gives,
for the commands that run it. -/

namespace Sys2Proof.Laws

open Machine

/-! ### What each command leaves in its destinations -/

/-- `LADDER` leaves `rd` with the ladder of its two operands (R142). -/
theorem exec_ladder (rd rs1 rs2 : Reg) (s : State) :
    ∃ t, exec (.ladder rd rs1 rs2) s = .next t ∧ WritesOnly [rd] true s t ∧ t.reg rd = ladder (s.reg rs1) (s.reg rs2) :=
  finish_setReg flagTrue s rd _

/-- `LADDERB` leaves `rd` with the ladder of its scalar on `U_BASE` (R143). -/
theorem exec_ladderb (rd rs1 : Reg) (s : State) : ∃ t, exec (.ladderb rd rs1) s = .next t ∧ WritesOnly [rd] true s t ∧
    t.reg rd = ladder (s.reg rs1) (BitVec.ofNat 256 uBase) :=
  finish_setReg flagTrue s rd _

/-- `SHARED` leaves `rd` with the ladder of the clamped key on the peer's u-coordinate (R186). -/
theorem exec_shared (rd rs1 rs2 : Reg) (s : State) : ∃ t, exec (.shared rd rs1 rs2) s = .next t ∧ WritesOnly [rd] true s t ∧
    t.reg rd = ladder (clamp (s.reg rs1)) (s.reg rs2) :=
  finish_setReg flagTrue s rd _

/-- `GENKEY` leaves the pair with the clamped seed and its ladder on `U_BASE` (R185). -/
theorem exec_genkey (rd rs1 : Reg) (s : State) :
    ∃ t, exec (.genkey rd rs1) s = .next t ∧ WritesOnly [rd, pairHigh rd] true s t ∧ t.reg rd = clamp (s.reg rs1) ∧
      t.reg (pairHigh rd) = ladder (clamp (s.reg rs1)) (BitVec.ofNat 256 uBase) := by
  obtain ⟨t, ht, hw, hhigh, hlow⟩ := finish_setReg_setReg flagTrue s rd (pairHigh rd) (clamp (s.reg rs1))
    (ladder (clamp (s.reg rs1)) (BitVec.ofNat 256 uBase))
  exact ⟨t, ht, hw, hlow (pairHigh_ne rd).symm, hhigh⟩

/-- `PSMULB` leaves `rd` with the encoding of the multiple of the base point (R162). -/
theorem exec_psmulb (rd rs1 : Reg) (s : State) : ∃ t, exec (.psmulb rd rs1) s = .next t ∧ WritesOnly [rd] true s t ∧
    t.reg rd = penc (smul (s.reg rs1).toNat basePoint) :=
  finish_setReg flagTrue s rd _

/-- `E2M` of a register that decodes leaves `rd` with the u-coordinate of the point (R165). -/
theorem exec_e2m_of_decodesTo {rd rs1 : Reg} {s : State} {P : Point} (h : DecodesTo (s.reg rs1) P) :
    ∃ t, exec (.e2m rd rs1) s = .next t ∧ WritesOnly [rd] true s t ∧ t.reg rd = fenc (e2m P) := by
  rw [exec, execE2m, pointOp_some h]
  exact finish_setReg flagTrue s rd _

/-! ### The formulas of R141 -/

/-- Settles O37: each result is the ladder of the command's operands, and that ladder is the one over `ZMod p` without the swap bit. -/
theorem ladderFollowsItsFormulas : Obligations.LadderFollowsItsFormulas := by
  have back := decodeOfEncodeIsTheCommand
  refine ⟨fun rd rs1 rs2 s => ?_, fun rd rs1 s => ?_,
    fun rd rs1 rs2 => back (.ladder rd rs1 rs2) rfl, reservedAbove_of_no_rs3 rfl rfl,
    fun rd rs1 => back (.ladderb rd rs1) rfl, reservedAbove_of_no_rs2_rs3 rfl rfl rfl⟩
  · obtain ⟨t, ht, hw, hreg⟩ := exec_ladder rd rs1 rs2 s
    exact ⟨t, ht, hw, hreg ▸ holdsField_ladder _ _⟩
  · obtain ⟨t, ht, hw, hreg⟩ := exec_ladderb rd rs1 s
    exact ⟨t, ht, hw, by rw [hreg, ← fieldValue_uBase]; exact holdsField_ladder _ _⟩

/-! ### The operands of the ladder -/

/-- A register whose field value is that of an integer below `p` decodes to that integer (R100). -/
theorem fdec_eq_of_fieldValue_eq {b : Word} {n : Nat} (hn : n < fieldPrime) (h : fieldValue b = toF n) : fdec b = n :=
  toF_inj (fdec_lt b) hn ((fieldValue_eq b).symm.trans h)

/-- The ladder reads its scalar modulo `2^255` and its u-coordinate in GF(p) (R140, R141). -/
theorem ladder_congr {kb kb' ub ub' : Word} (hk : kb.toNat % 2 ^ 255 = kb'.toNat % 2 ^ 255) (hu : fieldValue ub = fieldValue ub') :
    ladder kb ub = ladder kb' ub' := by
  have hdec : fdec ub = fdec ub' := fdec_eq_of_fieldValue_eq (fdec_lt ub') (hu.trans (fieldValue_eq ub'))
  simp only [ladder, hk, hdec]

/-- The ladder on the u-coordinate 0 gives 0 (R144 (d)). -/
theorem ladder_of_fieldValue_zero {ub : Word} (hu : fieldValue ub = 0) (kb : Word) : ladder kb ub = fenc 0 :=
  ladder_zero (fdec_eq_of_fieldValue_eq fieldPrime_pos (hu.trans Nat.cast_zero.symm)) kb

/-- Settles O42: the ladder is a function of the two values it reads, and is 0 where one of them is. -/
theorem ladderIgnoresTopBits : Obligations.LadderIgnoresTopBits := by
  have hres : ∀ {rd rs1 rs2 : Reg} {s t : State}, exec (.ladder rd rs1 rs2) s = .next t →
      t.reg rd = ladder (s.reg rs1) (s.reg rs2) := by
    intro rd rs1 rs2 s t ht
    obtain ⟨t', ht', _, hreg⟩ := exec_ladder rd rs1 rs2 s
    cases ht'.symm.trans ht
    exact hreg
  refine fun rd rs1 rs2 s s' => ⟨fun t t' ht ht' hk hu => ?_, fun t ht hzero => ?_⟩
  · rw [hres ht, hres ht']
    exact ladder_congr hk hu
  · rw [hres ht, ← fenc_zero]
    rcases hzero with hk | hu
    · exact ladder_scalar_zero hk _
    · exact ladder_of_fieldValue_zero hu _

/-! ### The laws of R144 on curve points -/

/-- Settles O38: `ladder_eq_e2m`, with the u-coordinate and the multiple in the terms of the claims. -/
theorem ladderGivesTheMultiple : Obligations.LadderGivesTheMultiple := by
  intro rd rs1 rs2 s P hP hu
  have hcurve := (isPoint_iff P).1 hP
  have hdec : fdec (s.reg rs2) = e2m P := fdec_eq_of_fieldValue_eq (e2m_lt P) (hu.trans (uOf_eq P))
  obtain ⟨t, ht, _, hreg⟩ := exec_ladder rd rs1 rs2 s
  refine ⟨t, ht, ?_⟩
  rw [hreg, ladder_eq_e2m hcurve hdec, smul_eq_sumOf hcurve, uOf_eq]
  exact holdsField_fenc _

/-- Settles O39: both ways end with the u-coordinate of the same multiple of the base point, the scalar being below `2^255`. -/
theorem fixedBaseLadderAgreesWithEdwards : Obligations.FixedBaseLadderAgreesWithEdwards := by
  intro rd re rs1 s hk
  obtain ⟨t, ht, _, htreg⟩ := exec_ladderb rd rs1 s
  obtain ⟨u, hu, _, hureg⟩ := exec_psmulb re rs1 s
  have hdec : DecodesTo (u.reg re) (smul (s.reg rs1).toNat basePoint) := hureg ▸ decodesTo_penc (smul_onCurve base_onCurve _)
  obtain ⟨v, hv, hw, hvreg⟩ := exec_e2m_of_decodesTo (rd := rd) hdec
  refine ⟨t, u, v, ht, hu, hv, hw.ends.flag, ?_⟩
  rw [hvreg, htreg, ladder_base, Nat.mod_eq_of_lt hk]

/-! ### Shared secrets -/

/-- The secret of the key `clamp a` and the public key of `clamp b` is the u-coordinate of the product's multiple of the base point. -/
theorem ladder_of_publicKey (a b : Word) : ladder (clamp a) (ladder (clamp b) (BitVec.ofNat 256 uBase))
    = fenc (e2m (smul ((clamp b).toNat * (clamp a).toNat) basePoint)) := by
  have hpub : fdec (ladder (clamp b) (BitVec.ofNat 256 uBase)) = e2m (smul (clamp b).toNat basePoint) := by
    rw [ladder_base, clamp_mod, fdec_fenc_of_lt (e2m_lt _)]
  rw [ladder_eq_e2m (smul_onCurve base_onCurve _) hpub, clamp_mod, smul_mul base_onCurve]

/-- Settles O40: the second `GENKEY` leaves the first pair alone, and both secrets are the multiple by the product of the two keys. -/
theorem sharedSecretsAgree : Obligations.SharedSecretsAgree := by
  intro da db ra rb ea eb s hda hdb hne
  obtain ⟨t, ht, _, htlow, hthigh⟩ := exec_genkey da ra s
  obtain ⟨u, hu, hw, hulow, huhigh⟩ := exec_genkey db rb t
  obtain ⟨v, hv, _, hvreg⟩ := exec_shared ea da (pairHigh db) u
  obtain ⟨w, hw', _, hwreg⟩ := exec_shared eb db (pairHigh da) u
  obtain ⟨hlow, hhigh⟩ := pair_disjoint da db hda hdb hne
  refine ⟨t, u, v, w, ht, hu, hv, hw', ?_⟩
  rw [hvreg, hwreg, hw.regs da hlow, hw.regs (pairHigh da) hhigh, htlow, hthigh, hulow, huhigh, clamp_idem, clamp_idem,
    ladder_of_publicKey, ladder_of_publicKey, Nat.mul_comm]

/-- The ladder of a multiple of 4 gives 0 on 0 and 1, which are u-coordinates of the curve, and on -1, which is one of its twist (R144 (e)). -/
theorem ladder_of_small_order {kb ub : Word} (hk : kb.toNat % 2 ^ 255 % 4 = 0)
    (hu : fieldValue ub = 0 ∨ fieldValue ub = 1 ∨ fieldValue ub = -1) : ladder kb ub = fenc 0 := by
  rcases hu with hzero | hone | hpred
  · exact ladder_of_fieldValue_zero hzero kb
  · exact ladder_one (fdec_eq_of_fieldValue_eq (by decide +kernel) (hone.trans Nat.cast_one.symm)) hk
  · exact ladder_pred (fdec_eq_of_fieldValue_eq (by decide +kernel) (hpred.trans toF_pred.symm)) hk

/-- Settles O41: a clamped key is a multiple of 4. -/
theorem weakPeerKeysGiveZero : Obligations.WeakPeerKeysGiveZero := by
  intro rd rs1 rs2 s hu
  obtain ⟨t, ht, hw, hreg⟩ := exec_shared rd rs1 rs2 s
  exact ⟨t, ht, by rw [hreg, ladder_of_small_order (clamp_mod_four _) hu, fenc_zero], hw.ends.flag⟩

end Sys2Proof.Laws
end

section
/-! PROOFS. The family of spec/43_edwards.md: the point commands write what the rules on curve points say, or reject, and the birational map goes there
and back. -/

namespace Sys2Proof.Laws

open Machine

/-! ### The two ends of a point command -/

/-- A point command that finds nothing rejects: it writes `FLAG` and no register (R160 to R166). -/
theorem finishPoint_of_eq_none {s : State} {found : Option State} (h : found = none) :
    ∃ t, finishPoint s found = .next t ∧ WritesOnly [] false s t := by
  subst h
  exact finish_flag flagReject s

/-- A point command that finds `A` and computes the curve point `f A` from it writes that point. -/
theorem finishPoint_of_eq_some {s : State} {rd : Reg} {o : Option Point} {f : Point → Point} {A : Point} (h : o = some A)
    (hf : OnCurve (f A)) :
    ∃ t, finishPoint s (o.map fun P => s.setPoint rd (f P)) = .next t ∧ WritesOnly [rd] true s t ∧ HoldsPoint (t.reg rd) (f A) := by
  subst h
  exact setPoint_result s rd hf.y_lt

/-- What a command computes from the point in a register is nothing where the register does not decode. -/
theorem map_pointOp_eq_none {α : Type} {s : State} {r : Reg} (f : Point → α) (h : ∀ P, ¬DecodesTo (s.reg r) P) :
    (s.pointOp r).map f = none :=
  Option.map_eq_none_iff.2 (pointOp_none h)

theorem onCurve_of_decodesTo {b : Word} {P : Point} (h : DecodesTo b P) : OnCurve P := (isPoint_iff P).1 h.point

/-! ### Sums -/

/-- `PADD` of two registers that decode writes a curve point that is their sum (R153, R160). -/
theorem exec_padd_of_decodesTo {rd rs1 rs2 : Reg} {s : State} {P Q : Point} (hP : DecodesTo (s.reg rs1) P)
    (hQ : DecodesTo (s.reg rs2) Q) :
    ∃ t R, exec (.padd rd rs1 rs2) s = .next t ∧ WritesOnly [rd] true s t ∧ IsSum P Q R ∧ HoldsPoint (t.reg rd) R := by
  have hPc := onCurve_of_decodesTo hP
  have hQc := onCurve_of_decodesTo hQ
  obtain ⟨t, ht, hw, hreg⟩ := setPoint_result s rd (padd_onCurve hPc hQc).y_lt
  refine ⟨t, padd P Q, ?_, hw, isSum_padd hPc hQc, hreg⟩
  rw [exec, execPadd, pointOp_some hP, pointOp_some hQ]
  exact ht

/-- `PADD` rejects where one of its operands does not decode (R160). -/
theorem exec_padd_of_not_decodesTo (rd : Reg) {rs1 rs2 : Reg} {s : State}
    (h : (∀ P, ¬DecodesTo (s.reg rs1) P) ∨ ∀ Q, ¬DecodesTo (s.reg rs2) Q) :
    ∃ t, exec (.padd rd rs1 rs2) s = .next t ∧ WritesOnly [] false s t := by
  refine finishPoint_of_eq_none (Option.bind_eq_none_iff.2 fun P hP => map_pointOp_eq_none _ ?_)
  rcases h with h1 | h2
  · cases (pointOp_none h1).symm.trans hP
  · exact h2

/-- `PDBL` is `PADD` of a register with itself (R161). -/
theorem exec_pdbl_eq_padd (rd rs1 : Reg) (s : State) : exec (.pdbl rd rs1) s = exec (.padd rd rs1 rs1) s := by
  rw [exec, exec, execPdbl, execPadd]
  cases s.pointOp rs1 <;> rfl

/-- Settles O43: `PADD` by the law's completeness on curve points, and `PDBL` as `PADD` of one operand with itself. -/
theorem pointSumsAreComplete : Obligations.PointSumsAreComplete := by
  have back := decodeOfEncodeIsTheCommand
  refine ⟨fun rd rs1 rs2 s P Q => exec_padd_of_decodesTo, fun rd rs1 rs2 s => exec_padd_of_not_decodesTo rd,
    fun rd rs1 s P hP => ?_, fun rd rs1 s h => ?_,
    fun rd rs1 rs2 => back (.padd rd rs1 rs2) rfl, reservedAbove_of_no_rs3 rfl rfl,
    fun rd rs1 => back (.pdbl rd rs1) rfl, reservedAbove_of_no_rs2_rs3 rfl rfl rfl⟩
  · rw [exec_pdbl_eq_padd]
    exact exec_padd_of_decodesTo hP hP
  · rw [exec_pdbl_eq_padd]
    exact exec_padd_of_not_decodesTo rd (.inl h)

/-! ### Multiples -/

/-- Settles O44: the multiple that `PSMULB` computes is the repeated sum, and `B` has the order `L`. -/
theorem fixedBaseMultipleIsRepeatedSum : Obligations.FixedBaseMultipleIsRepeatedSum := by
  refine ⟨fun rd rs1 s => ?_, fun rd rs1 => decodeOfEncodeIsTheCommand (.psmulb rd rs1) rfl, reservedAbove_of_no_rs2_rs3 rfl rfl rfl⟩
  obtain ⟨t, ht, hw, hreg⟩ := exec_psmulb rd rs1 s
  have hholds : HoldsPoint (t.reg rd) (smul (s.reg rs1).toNat basePoint) := hreg ▸ holdsPoint_penc (smul_onCurve base_onCurve _).y_lt
  refine ⟨t, ht, hw, ?_, ?_⟩
  · rwa [← smul_eq_sumOf base_onCurve]
  · rwa [← smul_eq_sumOf base_onCurve, smul_base_mod]

/-- Settles O45: on a curve point `A`, `doubleSmul` is `[s]B - [h]A` by repeated sums. -/
theorem doubleScalarMultiple : Obligations.DoubleScalarMultiple := by
  refine ⟨fun rd rs1 rs2 rs3 s A hA => ?_, fun rd rs1 rs2 rs3 s h => finishPoint_of_eq_none (map_pointOp_eq_none _ h),
    fun rd rs1 rs2 rs3 => decodeOfEncodeIsTheCommand (.pdsmul rd rs1 rs2 rs3) rfl, reservedAbove_high rfl⟩
  have hAc := onCurve_of_decodesTo hA
  obtain ⟨t, ht, hw, hreg⟩ := finishPoint_of_eq_some (rd := rd) (pointOp_some hA)
    (doubleSmul_onCurve (s.reg rs1).toNat (s.reg rs2).toNat hAc)
  exact ⟨t, _, ht, hw, (isDouble_iff hAc).2 rfl, hreg⟩

/-! ### Decoding -/

/-- The square that the decoding looks for, with the denominator multiplied out (R152). -/
theorem fsqr_eq_xSquared_iff (z y : Nat) : fsqr z = xSquared y ↔ toF z ^ 2 * (dF * toF y ^ 2 + 1) = toF y ^ 2 - 1 := by
  have := fact_prime
  rw [← toF_eq_iff (fsqr_lt z) (xSquared_lt y), toF_fsqr, toF_xSquared, eq_div_iff (den_ne_zero _)]
  rfl

/-- Bytes decode to a point exactly where the square root exists (R152). -/
theorem exists_decodesTo_iff (b : Word) :
    (∃ P, DecodesTo b P) ↔ ∃ x : GFp, x ^ 2 * (dF * fieldValue b ^ 2 + 1) = fieldValue b ^ 2 - 1 := by
  have hroot : (∃ P, DecodesTo b P) ↔ ∃ z, fsqr z = xSquared (fdec b) := by
    simpa using ((pdec_eq_none_iff b).symm.trans (pdec_none_iff b)).not
  rw [hroot, fieldValue_eq]
  constructor
  · rintro ⟨z, hz⟩
    exact ⟨toF z, (fsqr_eq_xSquared_iff z _).1 hz⟩
  · rintro ⟨x, hx⟩
    exact ⟨x.val, (fsqr_eq_xSquared_iff _ _).2 (by rwa [toF_val])⟩

/-- Settles O46: `DecodesTo` is the graph of the decoding function, which fails only where there is no root. -/
theorem pointDecodeChecks : Obligations.PointDecodeChecks := by
  refine ⟨fun rd rs1 s P hP => finishPoint_of_eq_some (f := id) (pointOp_some hP) (onCurve_of_decodesTo hP),
    fun rd rs1 s h => finishPoint_of_eq_none (map_pointOp_eq_none _ h), fun b P Q hP hQ => ?_, exists_decodesTo_iff,
    fun rd rs1 => decodeOfEncodeIsTheCommand (.pdec rd rs1) rfl, reservedAbove_of_no_rs2_rs3 rfl rfl rfl⟩
  exact Option.some.inj (((decodesTo_iff b P).1 hP).symm.trans ((decodesTo_iff b Q).1 hQ))

/-! ### The birational map -/

/-- Settles O47: the encoding of `e2m P` holds the u-coordinate of `P`. -/
theorem edwardsToMontgomeryMap : Obligations.EdwardsToMontgomeryMap := by
  refine ⟨fun rd rs1 s P hP => ?_, fun rd rs1 s h => finishPoint_of_eq_none (map_pointOp_eq_none _ h),
    fun rd rs1 => decodeOfEncodeIsTheCommand (.e2m rd rs1) rfl, reservedAbove_of_no_rs2_rs3 rfl rfl rfl⟩
  obtain ⟨t, ht, hw, hreg⟩ := exec_e2m_of_decodesTo (rd := rd) hP
  refine ⟨t, ht, hw, ?_⟩
  rw [hreg, uOf_eq]
  exact holdsField_fenc _

/-- `M2E` whose map finds a point writes it (R166). -/
theorem exec_m2e_of_some (rd : Reg) {rs1 rs2 : Reg} {s : State} {P : Point} (h : m2e (s.reg rs1) (s.signOp rs2) = some P) :
    ∃ t, exec (.m2e rd rs1 rs2) s = .next t ∧ WritesOnly [rd] true s t ∧ HoldsPoint (t.reg rd) P :=
  finishPoint_of_eq_some (f := id) h (m2e_onCurve h)

/-- The points over a register's u-coordinate with the sign operand's bit 255 are what the map finds (R159, R166). -/
theorem overU_operands_iff (s : State) (rs1 rs2 : Reg) (P : Point) :
    OverU (fieldValue (s.reg rs1)) (decide ((s.reg rs2).toNat / 2 ^ 255 = 1)) P ↔ m2e (s.reg rs1) (s.signOp rs2) = some P := by
  rw [← topBit_dec]
  exact overU_iff _ _ P

/-- Settles O48: `OverU` is the graph of the map. -/
theorem montgomeryToEdwardsMap : Obligations.MontgomeryToEdwardsMap := by
  refine ⟨fun rd rs1 rs2 s P hP => exec_m2e_of_some rd ((overU_operands_iff s rs1 rs2 P).1 hP), fun rd rs1 rs2 s h => ?_,
    fun rd rs1 rs2 => decodeOfEncodeIsTheCommand (.m2e rd rs1 rs2) rfl, reservedAbove_of_no_rs3 rfl rfl⟩
  refine finishPoint_of_eq_none (Option.map_eq_none_iff.2 (Option.eq_none_iff_forall_ne_some.2 fun P hP => ?_))
  exact h P ((overU_operands_iff s rs1 rs2 P).2 hP)

/-- Settles O49: `E2M` keeps the sign operand, whose bit 255 is the parity of the point's x, and `m2e` undoes `e2m` with that parity. -/
theorem birationalMapRoundTrip : Obligations.BirationalMapRoundTrip := by
  intro ru re rs s P hne hP hy hsign
  obtain ⟨t, ht, hw, hreg⟩ := exec_e2m_of_decodesTo (rd := ru) hP
  have hkept : t.reg rs = s.reg rs := hw.regs rs (by simpa using hne.symm)
  have hback : m2e (t.reg ru) (t.signOp rs) = some P := by
    rw [hreg, State.signOp, hkept, topBit_dec, hsign]
    exact m2e_e2m (onCurve_of_decodesTo hP) hy
  obtain ⟨u, hu, hw', hholds⟩ := exec_m2e_of_some re hback
  exact ⟨t, u, ht, hu, hw'.ends.flag, hholds⟩

end Sys2Proof.Laws
end

section
/-! PROOFS. The family of spec/44_protocol.md: the key pair and the shared secret, what the signature commands write and answer, and the
properties (a), (d) and (f) of R190. -/

namespace Sys2Proof.Laws

open Machine

/-! ### Pair fields -/

/-- A command whose pair fields are even is well formed (R81). -/
theorem wellFormed_of_even {i : Instr} (h : ∀ r ∈ i.pairFields, r.val % 2 = 0) : i.WellFormed :=
  List.all_eq_true.2 fun r hr => beq_iff_eq.2 (h r hr)

/-- The must-be-zero bits of a command without `rs2` and `rs3` (R80). -/
theorem mbzOk_of_no_rs2_rs3 {r : OpRow} (hd : r.rd ≠ .unused) (h1 : r.rs1 ≠ .unused) {w : BitVec 32} (hlo : w.toNat / 2 ^ 16 = 0) :
    r.mbzOk w = true :=
  (mbzOk_iff r w).2 ⟨by omega, fun h => absurd h hd, fun h => absurd h h1, fun _ => by omega, fun _ => by omega⟩

/-- The must-be-zero bits of a command with `rs1` and `rs2` but without `rs3` (R80). -/
theorem mbzOk_of_no_rs3 {r : OpRow} (h1 : r.rs1 ≠ .unused) (h2 : r.rs2 ≠ .unused) {w : BitVec 32} (hlo : w.toNat / 2 ^ 20 = 0)
    (hd : r.rd = .unused → w.toNat / 2 ^ 8 % 16 = 0) : r.mbzOk w = true :=
  (mbzOk_iff r w).2 ⟨by omega, hd, fun h => absurd h h1, fun h => absurd h h2, fun _ => by omega⟩

/-- The pair field `rd` of a command with the operands `rd` and `rs1` (R81). -/
theorem pairField_rd_of_no_rs2_rs3 {op : Nat} {r : OpRow} (hr : opRow op = some r) (hd : r.rd = .pair) (h1 : r.rs1 ≠ .unused) :
    PairField op 16 true 8 :=
  pairField_of hr (fun _ hlo _ => mbzOk_of_no_rs2_rs3 (by rw [hd]; nofun) h1 hlo) fun w hp => ((pairsOk_iff r w).1 hp).1 hd

/-- The pair field `rd` of a command with the operands `rd`, `rs1` and `rs2` (R81). -/
theorem pairField_rd_of_no_rs3 {op : Nat} {r : OpRow} (hr : opRow op = some r) (hd : r.rd = .pair) (h1 : r.rs1 ≠ .unused)
    (h2 : r.rs2 ≠ .unused) : PairField op 20 true 8 :=
  pairField_of hr (fun _ hlo _ => mbzOk_of_no_rs3 h1 h2 hlo (by rw [hd]; nofun)) fun w hp => ((pairsOk_iff r w).1 hp).1 hd

/-- The pair field `rs2` of a command without `rs3`, with `rd` or without (R81). -/
theorem pairField_rs2_of_no_rs3 {op : Nat} {hasRd : Bool} {r : OpRow} (hr : opRow op = some r) (hd : r.rd = .unused → hasRd = false)
    (h1 : r.rs1 ≠ .unused) (h2 : r.rs2 = .pair) : PairField op 20 hasRd 16 := by
  refine pairField_of hr (fun w hlo hrd => mbzOk_of_no_rs3 h1 (by rw [h2]; nofun) hlo fun h => hrd (hd h)) fun w hp => ?_
  obtain ⟨_, _, hrs2, _⟩ := (pairsOk_iff r w).1 hp
  exact hrs2 h2

/-! ### Key pairs and shared secrets -/

/-- The PublicKey of a key operand as an Edwards u-coordinate (R181, R185). -/
theorem publicKey_eq (kb : Word) : ladder (clamp kb) (BitVec.ofNat 256 uBase) = fenc (e2m (smul (keyScalar kb) basePoint)) := by
  rw [ladder_base, clamp_mod, keyScalar]

/-- No PublicKey is 0: the double of the key's point is not neutral (R185). -/
theorem publicKey_ne_zero (kb : Word) : ladder (clamp kb) (BitVec.ofNat 256 uBase) ≠ 0#256 := by
  intro h0
  have hE := smul_onCurve base_onCurve (keyScalar kb)
  rw [publicKey_eq, ← BitVec.toNat_inj, fenc_toNat, Nat.mod_eq_of_lt (e2m_lt _)] at h0
  exact e2m_ne_zero hE (key_double_ne kb) h0

/-- Settles O51: the public key is the ladder of the clamped seed on 9, and so the u-coordinate of the base point's multiple. -/
theorem generateKeyPair : Obligations.GenerateKeyPair := by
  refine ⟨fun lo hi rs1 s heven hnext => ?_,
    fun rd rs1 heven => decodeOfEncodeIsTheCommand (.genkey rd rs1) (wellFormed_of_even (by simpa [Instr.pairFields] using heven)),
    reservedAbove_of_no_rs2_rs3 rfl rfl rfl, pairField_rd_of_no_rs2_rs3 rfl rfl nofun⟩
  obtain rfl := eq_pairHigh heven hnext
  obtain ⟨t, ht, hw, hlow, hhigh⟩ := exec_genkey lo rs1 s
  have hladder := holdsField_ladder (clamp (s.reg rs1)) (BitVec.ofNat 256 uBase)
  rw [clamp_mod, fieldValue_uBase] at hladder
  have hcoord := holdsField_fenc (e2m (smul (keyScalar (s.reg rs1)) basePoint))
  rw [← publicKey_eq, ← uOf_eq, smul_eq_sumOf base_onCurve] at hcoord
  refine ⟨t, ht, hw, hlow, ?_, ?_, ?_⟩ <;> rw [hhigh]
  · exact hladder
  · exact hcoord
  · exact publicKey_ne_zero _

/-- Settles O52: `rd` is left with the ladder of the clamped key, whose scalar is below `2^255`. -/
theorem sharedSecretIsTheLadder : Obligations.SharedSecretIsTheLadder := by
  refine ⟨fun rd rs1 rs2 s => ?_, fun rd rs1 rs2 => decodeOfEncodeIsTheCommand (.shared rd rs1 rs2) rfl,
    reservedAbove_of_no_rs3 rfl rfl⟩
  obtain ⟨t, ht, hw, hreg⟩ := exec_shared rd rs1 rs2 s
  refine ⟨t, ht, hw, ?_⟩
  rw [hreg, ← clamp_mod]
  exact holdsField_ladder _ _

/-! ### The message and its bytes -/

/-- States that agree in the first `n` bytes of `MSG` have the same `n` bytes there. -/
theorem prefixBytes_congr {s t : State} {n : Nat} (h : ∀ a, a < n → t.msgByte a = s.msgByte a) :
    t.prefixBytes n = s.prefixBytes n :=
  List.map_congr_left fun a ha => h a (List.mem_range.1 ha)

/-- The current message is the first `MLEN` bytes of `MSG` (R23). -/
theorem message_eq (s : State) : s.message = s.prefixBytes s.mlen.toNat := memRead_eq s _

/-- Bytes stored in `MSG` from `a` upward are read back there. -/
theorem msgByte_memWrite_add (s : State) (a : Nat) {bs : List Byte} {k : Nat} (hk : k < bs.length) :
    (s.memWrite a bs).msgByte (a + k) = bs[k] := by
  rw [State.msgByte, State.memWrite_msg, memByte_memStoreBytes, dif_pos (by omega)]
  simp only [Nat.add_sub_cancel_left]

/-- Bytes stored in `MSG` change no byte before or after them. -/
theorem msgByte_memWrite_outside (s : State) {a c : Nat} {bs : List Byte} (h : c < a ∨ a + bs.length ≤ c) :
    (s.memWrite a bs).msgByte c = s.msgByte c := by
  rw [State.msgByte, State.memWrite_msg, memByte_memStoreBytes, dif_neg (by omega)]
  rfl

theorem getElem_bytesOf {n w : Nat} (v : BitVec w) {k : Nat} (hk : k < (bytesOf n v).length) :
    (bytesOf n v)[k] = v.extractLsb' (8 * k) 8 := by
  simp [bytesOf]

/-- A 64-byte value stored in `MSG` has its first half's bytes first (R16, R22). -/
theorem msgByte_memWrite_pair (s : State) (a : Nat) (v : DWord) {j : Nat} (hj : j < 32) :
    (s.memWrite a (bytesOf 64 v)).msgByte (a + j) = wordByte (lowHalf v) j ∧
    (s.memWrite a (bytesOf 64 v)).msgByte (a + 32 + j) = wordByte (highHalf v) j := by
  constructor
  · rw [msgByte_memWrite_add s a (by rw [length_bytesOf]; omega), getElem_bytesOf, extract_lowHalf v j hj]
  · rw [Nat.add_assoc, msgByte_memWrite_add s a (by rw [length_bytesOf]; omega), getElem_bytesOf, extract_highHalf v j hj]

/-! ### What the signature commands do -/

/-- A message command whose `MLEN` is out of range raises `MLEN` (R222). -/
theorem exec_of_mlenBad (i : Instr) {s : State} (h : i.mlenBad s) : ∃ t, exec i s = .next t ∧ Raises .mlen s t := by
  obtain ⟨t, ht, ⟨_, hraise⟩ | ⟨hok, _⟩⟩ := endsAs_exec i s
  · exact ⟨t, ht, hraise⟩
  · exact absurd h hok

/-- The signature of the current message under the key in `rk` (R183), with the implementation's `H` and `PAD32`. -/
def messageSignature (s : State) (rk : Reg) (rnd : Option DWord) : DWord := sign Config.hash Config.pad32 (s.reg rk) s.message rnd

theorem messageSignature_isSignature (s : State) (rk : Reg) (rnd : Option DWord) :
    IsSignature (s.reg rk) (s.prefixBytes s.mlen.toNat) (randomBytes rnd) (lowHalf (messageSignature s rk rnd))
      (highHalf (messageSignature s rk rnd)) := by
  rw [← message_eq]
  exact sign_isSignature _ _ _

/-- The bytes of a register pair as random operand (R183, R188). -/
theorem randomBytes_pair (s : State) (n : Reg) :
    randomBytes (some (s.pair n)) = registerBytes (s.reg n) ++ registerBytes (s.reg (pairHigh n)) := by
  rw [randomBytes, bytesOf_pair, State.pair, lowHalf_append, highHalf_append]

/-- The command `r` on `s` leaves the pair `rd` with the signature of the message, and nothing else but its end. -/
def WritesSignature (s : State) (rd rk : Reg) (rnd : Option DWord) (r : Result) : Prop :=
  ∃ t, r = .next t ∧ WritesOnly [rd, pairHigh rd] true s t ∧ t.reg rd = lowHalf (messageSignature s rk rnd) ∧
    t.reg (pairHigh rd) = highHalf (messageSignature s rk rnd)

/-- `SIGN` of a message in range (R187). -/
theorem exec_sign {s : State} (hlen : s.mlen.toNat ≤ s.msgMax.toNat) (rd rk : Reg) :
    WritesSignature s rd rk none (exec (.sign rd rk) s) := by
  rw [exec, execSign, checkMlen_of_ok ((messageTooLong_false_iff s).2 hlen)]
  exact finish_setPair flagTrue s rd _

/-- `SIGNR` of a message in range (R188). -/
theorem exec_signr {s : State} (hlen : s.mlen.toNat ≤ s.msgMax.toNat) (rd rk rnd : Reg) :
    WritesSignature s rd rk (some (s.pair rnd)) (exec (.signr rd rk rnd) s) := by
  rw [exec, execSignr, checkMlen_of_ok ((messageTooLong_false_iff s).2 hlen)]
  exact finish_setPair flagTrue s rd _

/-- Settles O53: the pair is left with the signature as the model computes it, which is the one of the six steps. -/
theorem signaturesAreAsDefined : Obligations.SignaturesAreAsDefined := by
  have back := decodeOfEncodeIsTheCommand
  refine ⟨fun lo hi rs1 s heven hnext hlen => ?_, fun lo hi rs1 rlo rhi s heven hnext hreven hrnext hlen => ?_,
    fun rd rs1 s hlong => exec_of_mlenBad (.sign rd rs1) hlong,
    fun rd rs1 heven => back (.sign rd rs1) (wellFormed_of_even (by simpa [Instr.pairFields] using heven)),
    reservedAbove_of_no_rs2_rs3 rfl rfl rfl, pairField_rd_of_no_rs2_rs3 rfl rfl nofun,
    fun rd rs1 rs2 s hlong => exec_of_mlenBad (.signr rd rs1 rs2) hlong,
    fun rd rs1 rs2 heven heven2 =>
      back (.signr rd rs1 rs2) (wellFormed_of_even (by simpa [Instr.pairFields] using ⟨heven, heven2⟩)),
    reservedAbove_of_no_rs3 rfl rfl, pairField_rd_of_no_rs3 rfl rfl nofun nofun, pairField_rs2_of_no_rs3 rfl nofun nofun rfl⟩
  · obtain rfl := eq_pairHigh heven hnext
    obtain ⟨t, ht, hw, hlow, hhigh⟩ := exec_sign hlen lo rs1
    refine ⟨t, ht, hw, ?_⟩
    rw [hlow, hhigh]
    exact messageSignature_isSignature s rs1 none
  · obtain rfl := eq_pairHigh heven hnext
    obtain rfl := eq_pairHigh hreven hrnext
    obtain ⟨t, ht, hw, hlow, hhigh⟩ := exec_signr hlen lo rs1 rlo
    refine ⟨t, ht, hw, ?_⟩
    rw [hlow, hhigh, ← randomBytes_pair]
    exact messageSignature_isSignature s rs1 _

/-- `VERIFY` of a message in range answers in `FLAG` whether the six steps accept (R184, R189). -/
theorem exec_verify {s : State} (hlen : s.mlen.toNat ≤ s.msgMax.toNat) (rp n : Reg) :
    ∃ t f, exec (.verify rp n) s = .next t ∧ WritesOnly [] f s t ∧
      (f = true ↔ Accepts (s.reg rp) (s.prefixBytes s.mlen.toNat) (s.reg n) (s.reg (pairHigh n))) := by
  rw [exec, execVerify, checkMlen_of_ok ((messageTooLong_false_iff s).2 hlen), ← message_eq, ← verify_iff]
  obtain ⟨t, ht, hw⟩ := finish_flag (verify Config.hash (s.reg rp) s.message (s.pair n)) s
  exact ⟨t, _, ht, hw, Iff.rfl⟩

/-- Settles O54: the flag is the value of `verify`, and that is the six steps. -/
theorem verificationAnswersInFlag : Obligations.VerificationAnswersInFlag := by
  refine ⟨fun rs1 lo hi s heven hnext hlen => ?_, fun rs1 rs2 s hlong => exec_of_mlenBad (.verify rs1 rs2) hlong,
    fun rs1 rs2 heven => decodeOfEncodeIsTheCommand (.verify rs1 rs2) (wellFormed_of_even (by simpa [Instr.pairFields] using heven)),
    reservedAbove_of_no_rd_rs3 rfl rfl rfl, pairField_rs2_of_no_rs3 rfl (fun _ => rfl) nofun rfl⟩
  obtain rfl := eq_pairHigh heven hnext
  exact exec_verify hlen rs1 lo

/-! ### Attached signatures -/

/-- `SIGNMSG` with room for 64 more bytes stores the signature behind the message (R191). -/
theorem exec_signmsg {s : State} (hroom : s.mlen.toNat + 64 ≤ s.msgMax.toNat) (rk : Reg) :
    ∃ t, exec (.signmsg rk) s = .next t ∧ t.mlen.toNat = s.mlen.toNat + 64 ∧
      (∀ j, j < 32 → t.msgByte (s.mlen.toNat + j) = wordByte (lowHalf (messageSignature s rk none)) j ∧
        t.msgByte (s.mlen.toNat + 32 + j) = wordByte (highHalf (messageSignature s rk none)) j) ∧
      (∀ a, a < s.mlen.toNat ∨ s.mlen.toNat + 64 ≤ a → t.msgByte a = s.msgByte a) ∧
      SameRegs [] s t ∧ SameControl s t ∧ Ends true t := by
  rw [exec, execSignmsg, checkMlen_of_ok ((noRoomForSignature_false_iff s).2 hroom)]
  refine ⟨_, rfl, mlen_add s hroom, fun j => msgByte_memWrite_pair s _ _, fun a ha => ?_, fun _ _ => rfl,
    ⟨rfl, rfl, rfl, rfl, rfl, rfl, rfl⟩, ⟨rfl, rfl, rfl⟩⟩
  exact msgByte_memWrite_outside s (by rwa [length_bytesOf])

/-- Settles O55: the 64 bytes that are stored are the two halves of the message's signature. -/
theorem signMessageAppends : Obligations.SignMessageAppends := by
  refine ⟨fun rs1 s hroom => ?_, fun rs1 s hfull => exec_of_mlenBad (.signmsg rs1) hfull,
    fun rs1 => decodeOfEncodeIsTheCommand (.signmsg rs1) rfl, reservedAbove_of_rs1_alone rfl rfl rfl rfl⟩
  obtain ⟨t, ht, hrest⟩ := exec_signmsg hroom rs1
  exact ⟨t, _, _, ht, messageSignature_isSignature s rs1 none, hrest⟩

/-- `OPENMSG` of a message in range answers in `FLAG` whether it accepts, and sets `MLEN` by that answer (R192). -/
theorem exec_openmsg {s : State} (hlen : s.mlen.toNat ≤ s.msgMax.toNat) (rp : Reg) :
    ∃ t, exec (.openmsg rp) s = .next t ∧ Ends (s.openAccepts (s.reg rp)) t ∧
      t.mlen = (if s.openAccepts (s.reg rp) then s.mlen - 64#16 else 0#16) ∧ SameBytes s t ∧ SameRegs [] s t ∧ SameControl s t := by
  rw [exec, execOpenmsg, checkMlen_of_ok ((messageTooLong_false_iff s).2 hlen)]
  cases s.openAccepts (s.reg rp) <;>
    exact ⟨_, rfl, ⟨rfl, rfl, rfl⟩, rfl, fun _ => rfl, fun _ _ => rfl, ⟨rfl, rfl, rfl, rfl, rfl, rfl, rfl⟩⟩

/-- A message below 64 bytes has no signature to accept (R192). -/
theorem openAccepts_of_short {s : State} (h : s.mlen.toNat < 64) (pb : Word) : s.openAccepts pb = false := by
  rw [State.openAccepts, decide_eq_false (by omega), Bool.false_and]

/-- Where the last 64 bytes of the message are `R` and `S`, `OPENMSG` accepts what the six steps accept for the bytes before (R192). -/
theorem openAccepts_iff {s : State} {R S : Word} (h64 : 64 ≤ s.mlen.toNat)
    (h : ∀ j, j < 32 → s.msgByte (s.mlen.toNat - 64 + j) = wordByte R j ∧ s.msgByte (s.mlen.toNat - 32 + j) = wordByte S j)
    (pb : Word) :
    s.openAccepts pb = true ↔ Accepts pb (s.prefixBytes (s.mlen.toNat - 64)) R S := by
  rw [State.openAccepts, decide_eq_true h64, Bool.true_and, attached_eq s R S h64 h, memRead_eq, verify_iff]

/-- Settles O56: the answer is the six steps' on the attached signature, and no for a message too short to have one. -/
theorem openMessageStrips : Obligations.OpenMessageStrips := by
  refine ⟨fun rs1 s R S hlen h64 hsig => ?_, fun rs1 s hlen hshort => ?_,
    fun rs1 s hlong => exec_of_mlenBad (.openmsg rs1) hlong,
    fun rs1 => decodeOfEncodeIsTheCommand (.openmsg rs1) rfl, reservedAbove_of_rs1_alone rfl rfl rfl rfl⟩
  · obtain ⟨t, ht, hends, hmlen, hbytes, hregs, hcontrol⟩ := exec_openmsg hlen rs1
    refine ⟨t, _, ht, hends, openAccepts_iff h64 hsig _, ?_, hbytes, hregs, hcontrol⟩
    rw [hmlen, apply_ite BitVec.toNat, mlen_sub _ h64]
    rfl
  · obtain ⟨t, ht, hends, hmlen, hframe⟩ := exec_openmsg hlen rs1
    rw [openAccepts_of_short hshort] at hends hmlen
    exact ⟨t, ht, hends, hmlen, hframe⟩

/-! ### Honest signatures -/

/-- The six steps accept the signature of a message under the PublicKey of its key, for every `H` and `PAD32` (R190 (a)). -/
theorem accepts_messageSignature (s : State) (rk : Reg) (rnd : Option DWord) :
    Accepts (ladder (clamp (s.reg rk)) 9#256) (s.prefixBytes s.mlen.toNat) (lowHalf (messageSignature s rk rnd))
      (highHalf (messageSignature s rk rnd)) := by
  rw [← verify_iff, highHalf_append_lowHalf, ← message_eq]
  exact verify_sign _ _ _

/-- `VERIFY` accepts what a signing command has left in its pair, under any register that then holds the PublicKey. -/
theorem verify_of_writesSignature {s : State} (hlen : s.mlen.toNat ≤ s.msgMax.toNat) {g rk : Reg} {rnd : Option DWord} {r : Result}
    (h : WritesSignature s g rk rnd r) : ∃ t, r = .next t ∧
      ∀ rp, (rp ∉ [g, pairHigh g] ∧ s.reg rp = ladder (clamp (s.reg rk)) 9#256) ∨ t.reg rp = ladder (clamp (s.reg rk)) 9#256 →
        ∃ u, exec (.verify rp g) t = .next u ∧ u.flag = true := by
  obtain ⟨t, ht, hw, hlow, hhigh⟩ := h
  refine ⟨t, ht, fun rp hrp => ?_⟩
  have hkey : t.reg rp = ladder (clamp (s.reg rk)) 9#256 := by
    rcases hrp with ⟨hout, hbefore⟩ | hafter
    · exact (hw.regs rp hout).trans hbefore
    · exact hafter
  have hmessage : t.prefixBytes t.mlen.toNat = s.prefixBytes s.mlen.toNat := by
    rw [hw.mlen]
    exact prefixBytes_congr fun a _ => hw.bytes a
  obtain ⟨u, f, hu, hw', hf⟩ := exec_verify (s := t) (by rw [hw.mlen, hw.control.msgMax]; exact hlen) rp g
  rw [hkey, hmessage, hlow, hhigh] at hf
  exact ⟨u, hu, hw'.ends.flag.trans (hf.2 (accepts_messageSignature s rk rnd))⟩

/-- Settles O57: both signing commands leave the signature of the message in the pair. -/
theorem verifyAcceptsOwnSignatures : Obligations.VerifyAcceptsOwnSignatures := by
  intro rk g rnd s _ _ hlen i hi
  simp only [List.mem_cons, List.not_mem_nil, or_false] at hi
  rcases hi with rfl | rfl
  · exact verify_of_writesSignature hlen (exec_sign hlen g rk)
  · exact verify_of_writesSignature hlen (exec_signr hlen g rk rnd)

/-- Settles O58: the bytes that `SIGNMSG` stores are the attached signature that `OPENMSG` reads, and the bytes before are the message. -/
theorem openAfterSignRestores : Obligations.OpenAfterSignRestores := by
  intro rk rp s hroom hkey
  obtain ⟨t, ht, hmlen, hsig, hrest, hregs, hcontrol, _⟩ := exec_signmsg hroom rk
  obtain ⟨u, hu, hends, humlen, hbytes, _⟩ := exec_openmsg (s := t) (by rw [hmlen, hcontrol.msgMax]; exact hroom) rp
  have hprefix : t.prefixBytes s.mlen.toNat = s.prefixBytes s.mlen.toNat := prefixBytes_congr fun a ha => hrest a (.inl ha)
  have hbefore : t.mlen.toNat - 64 = s.mlen.toNat := by omega
  have hattached : ∀ j, j < 32 → t.msgByte (t.mlen.toNat - 64 + j) = wordByte (lowHalf (messageSignature s rk none)) j ∧
      t.msgByte (t.mlen.toNat - 32 + j) = wordByte (highHalf (messageSignature s rk none)) j := by
    rw [hbefore, show t.mlen.toNat - 32 = s.mlen.toNat + 32 by omega]
    exact hsig
  have haccepts : t.openAccepts (t.reg rp) = true := by
    rw [openAccepts_iff (by omega) hattached, hbefore, hprefix, hregs rp List.not_mem_nil, hkey]
    exact accepts_messageSignature s rk none
  have hrestored : u.mlen = s.mlen := by
    rw [humlen, if_pos haccepts]
    exact BitVec.eq_of_toNat_eq ((mlen_sub _ (by omega)).trans hbefore)
  refine ⟨t, u, ht, hu, hends.flag.trans haccepts, hrestored, ?_⟩
  rw [hrestored, ← hprefix]
  exact prefixBytes_congr fun a _ => hbytes a

/-! ### Changed scalars -/

theorem penc_inj {P Q : Point} (hP : OnCurve P) (hQ : OnCurve Q) (h : penc P = penc Q) : P = Q :=
  Option.some.inj ((pdec_penc hP).symm.trans (h ▸ pdec_penc hQ))

theorem padd_right_cancel {P Q R : Point} (hP : OnCurve P) (hQ : OnCurve Q) (hR : OnCurve R) (h : padd P R = padd Q R) :
    P = Q := by
  have hback : ∀ {X : Point}, OnCurve X → padd (padd X R) (pneg R) = X := fun hX => by
    rw [padd_assoc hX hR (pneg_onCurve hR), padd_pneg hR, padd_neutral hX]
  rw [← hback hP, h, hback hQ]

/-- Below the order, `[s]B − [h]A` determines `s`. -/
theorem doubleSmul_inj {a b h : Nat} {A : Point} (hA : OnCurve A) (ha : a < groupOrder) (hb : b < groupOrder)
    (heq : doubleSmul a h A = doubleSmul b h A) : a = b :=
  smul_base_inj ha hb
    (padd_right_cancel (smul_onCurve base_onCurve a) (smul_onCurve base_onCurve b) (pneg_onCurve (smul_onCurve hA h)) heq)

/-- Two accepted signatures with one `R` and one sign bit, for one key and message, are the same: the challenge does not depend on `S`
(R190 (d)). -/
theorem accepts_scalar_unique {pb R S S' : Word} {m : List Byte} (h : Accepts pb m R S) (h' : Accepts pb m R S')
    (hsign : S'.toNat / 2 ^ 255 = S.toNat / 2 ^ 255) : S' = S := by
  obtain ⟨hlt, A, Aenc, hA, _, hAenc, Q, hQ, hRQ⟩ := h
  obtain ⟨hlt', A', Aenc', hA', _, hAenc', Q', hQ', hRQ'⟩ := h'
  have hcurve := (isPoint_iff A).1 hA.point
  -- One u-coordinate and one sign bit give one point `A`, and so one encoding and one challenge.
  rw [overU_iff] at hA hA'
  rw [hsign, hA] at hA'
  obtain rfl := Option.some.inj hA'
  obtain rfl : Aenc' = Aenc := BitVec.eq_of_toNat_eq (hAenc'.trans hAenc.symm)
  rw [isDouble_iff hcurve] at hQ hQ'
  have hQc := doubleSmul_onCurve (S.toNat % 2 ^ 255) (hashScalar (registerBytes R ++ registerBytes Aenc' ++ m)) hcurve
  have hQc' := doubleSmul_onCurve (S'.toNat % 2 ^ 255) (hashScalar (registerBytes R ++ registerBytes Aenc' ++ m)) hcurve
  rw [← hQ] at hQc
  rw [← hQ'] at hQc'
  have hpoint : Q' = Q := penc_inj hQc' hQc
    ((penc_of_holdsPoint hQc'.y_lt hRQ').symm.trans (penc_of_holdsPoint hQc.y_lt hRQ))
  have hscalar := doubleSmul_inj hcurve hlt' hlt (hQ'.symm.trans (hpoint.trans hQ))
  apply BitVec.eq_of_toNat_eq
  rw [← Nat.mod_add_div S'.toNat (2 ^ 255), hscalar, hsign, Nat.mod_add_div]

/-- `VERIFY` that ends with `FLAG = 1` had a message in range, and the six steps accept (R189). -/
theorem accepts_of_exec_verify {rp n : Reg} {s t : State} (ht : exec (.verify rp n) s = .next t) (hflag : t.flag = true) :
    s.mlen.toNat ≤ s.msgMax.toNat ∧ Accepts (s.reg rp) (s.prefixBytes s.mlen.toNat) (s.reg n) (s.reg (pairHigh n)) := by
  rcases Nat.lt_or_ge s.msgMax.toNat s.mlen.toNat with hlong | hlen
  · obtain ⟨t', ht', hraise⟩ := exec_of_mlenBad (.verify rp n) hlong
    obtain rfl := Host.Outcome.next.inj (ht.symm.trans ht')
    exact absurd hflag (Bool.eq_false_iff.1 hraise.ends.flag)
  · obtain ⟨t', f, ht', hw, hf⟩ := exec_verify hlen rp n
    obtain rfl := Host.Outcome.next.inj (ht.symm.trans ht')
    exact ⟨hlen, hf.1 (hw.ends.flag.symm.trans hflag)⟩

/-- Settles O59: the replaced register is the scalar and nothing else that `VERIFY` reads, and the accepted scalar is unique. -/
theorem changedScalarIsRejected : Obligations.ChangedScalarIsRejected := by
  intro rp lo hi s t S' heven hnext hne ht hflag hsign _ hchanged
  obtain rfl := eq_pairHigh heven hnext
  obtain ⟨hlen, haccepts⟩ := accepts_of_exec_verify ht hflag
  obtain ⟨u, f, hu, hw, hf⟩ := exec_verify (s := s.setReg (pairHigh lo) S') hlen rp lo
  refine ⟨u, hu, hw.ends.flag.trans (Bool.eq_false_iff.2 fun htrue => hchanged ?_)⟩
  have haccepts' := hf.1 htrue
  rw [State.setReg_reg_of_ne _ _ hne, State.setReg_reg_of_ne _ _ (pairHigh_ne lo).symm, State.setReg_reg_self] at haccepts'
  exact accepts_scalar_unique haccepts haccepts' hsign

end Sys2Proof.Laws
end

section
/-! PROOFS. The family of spec/45_system.md: `NOP` only ends, and `ZEROIZE` clears every register, `MSG` and `MLEN`. -/

namespace Sys2Proof.Laws

open Machine

/-- A command without operands has the reserved bits 31 to 8 (R80, R88). -/
theorem reservedAbove_of_no_operands {op : Nat} {r : OpRow} (hr : opRow op = some r) (hd : r.rd = .unused) (h1 : r.rs1 = .unused)
    (h2 : r.rs2 = .unused) (h3 : r.rs3 = .unused) : ReservedAbove op 8 true := by
  refine reservedAbove_of hr fun w hm => ?_
  obtain ⟨hhigh, hrd, hrs1, hrs2, hrs3⟩ := (mbzOk_iff r w).1 hm
  have hzerod := hrd hd
  have hzero1 := hrs1 h1
  have hzero2 := hrs2 h2
  have hzero3 := hrs3 h3
  exact ⟨by omega, nofun⟩

/-- `ZEROIZE` ends with every register, every byte of `MSG` and `MLEN` cleared (R211). -/
theorem exec_zeroize (s : State) : ∃ t, exec .zeroize s = .next t ∧ (∀ i, t.reg i = 0#256) ∧ (∀ a, t.msgByte a = 0#8) ∧
    t.mlen = 0#16 ∧ SameControl s t ∧ Ends true t :=
  ⟨_, rfl, State.clearRegs_reg s, State.clearMsg_msgByte s.clearRegs, rfl, ⟨rfl, rfl, rfl, rfl, rfl, rfl, rfl⟩, ⟨rfl, rfl, rfl⟩⟩

/-- Settles O29: `NOP` writes nothing but `FLAG`, `ZEROIZE` clears, and a word of either with an operand bit set is reserved. -/
theorem nopAndZeroizeEffects : Obligations.NopAndZeroizeEffects :=
  ⟨finish_flag flagTrue, decodeOfEncodeIsTheCommand .nop rfl, reservedAbove_of_no_operands rfl rfl rfl rfl rfl,
    exec_zeroize, decodeOfEncodeIsTheCommand .zeroize rfl, reservedAbove_of_no_operands rfl rfl rfl rfl rfl⟩

end Sys2Proof.Laws
end

section
/-! PROOFS. The family of spec/60_exceptions.md: which error a completion reports, what an error leaves alone, and the interrupt line. -/

namespace Sys2Proof.Machine

open Laws

/-! ### The word's own errors, in the order of R221 -/

/-- An opcode of the map has a line (R86). -/
theorem exists_opRow_of_mem_opcodes {w : BitVec 32} (hop : w.toNat % 256 ∈ opcodes) : ∃ r, opRow (opcodeField w) = some r :=
  Option.ne_none_iff_exists'.1 fun hnone => (opRow_none_iff _).1 hnone hop

theorem decode_of_notMem_opcodes {w : BitVec 32} (hop : w.toNat % 256 ∉ opcodes) : decode w = .error .illop := by
  have hnone : opRow (opcodeField w) = none := (opRow_none_iff _).2 hop
  rw [decode, hnone]

theorem decode_of_reservedBits {w : BitVec 32} (hop : w.toNat % 256 ∈ opcodes) (hres : ReservedBits w.toNat) :
    decode w = .error .rsvd := by
  obtain ⟨r, hr⟩ := exists_opRow_of_mem_opcodes hop
  obtain ⟨hmbz, _⟩ := row_checks hr
  exact decode_rsvd hr (hmbz.2 hres)

theorem decode_of_oddPair {w : BitVec 32} (hop : w.toNat % 256 ∈ opcodes) (hres : ¬ReservedBits w.toNat) (hodd : OddPair w.toNat) :
    decode w = .error .pair := by
  obtain ⟨r, hr⟩ := exists_opRow_of_mem_opcodes hop
  obtain ⟨hmbz, hpairs⟩ := row_checks hr
  exact decode_pair hr (Bool.of_not_eq_false fun hbad => hres (hmbz.1 hbad)) (hpairs.2 hodd)

/-- The commands that check `MLEN` are those of the five opcodes that R222 lists, each with its own limit. -/
theorem mlenBad_build_iff {w : Nat} {r : OpRow} (hr : opRow (w % 256) = some r) (a b c d : Reg) (s : State) :
    (r.build a b c d).mlenBad s ↔ MlenOut w s.mlen.toNat s.msgMax.toNat := by
  unfold MlenOut
  generalize w % 256 = op at hr ⊢
  -- One case for each of the 30 lines.
  unfold opRow at hr
  split at hr <;> cases hr <;> simp [Instr.mlenBad]

/-- A word to which none of the first three errors applies decodes, and its command checks `MLEN` as R222 says. -/
theorem exists_decode_of_no_error {w : BitVec 32} (hop : w.toNat % 256 ∈ opcodes) (hres : ¬ReservedBits w.toNat)
    (hodd : ¬OddPair w.toNat) :
    ∃ i, decode w = .ok i ∧ ∀ s : State, i.mlenBad s ↔ MlenOut w.toNat s.mlen.toNat s.msgMax.toNat := by
  obtain ⟨r, hr⟩ := exists_opRow_of_mem_opcodes hop
  obtain ⟨hmbz, hpairs⟩ := row_checks hr
  refine ⟨r.build (regField w 8) (regField w 12) (regField w 16) (regField w 20), ?_, mlenBad_build_iff hr _ _ _ _⟩
  rw [decode, hr]
  exact (if_neg fun hbad => hres (hmbz.1 hbad)).trans (if_neg fun hbad => hodd (hpairs.1 hbad))

/-! ### The ends of a completion -/

theorem step_inFlight (s : State) (w : BitVec 32) : step (s.inFlight w) = complete (s.inFlight w) :=
  (step_nil rfl).trans (engineTurn_busy rfl)

/-- The completion of a word that does not decode raises the word's error (R83). -/
theorem raises_of_complete {s t : State} {e : ErrCode} (ht : complete s = .next t) (hdec : decode s.cmd = .error e) : Raises e s t := by
  obtain ⟨u, hu, hraise⟩ := raiseError_spec e s
  obtain rfl := Host.Outcome.next.inj (ht.symm.trans ((complete_of_error hdec).trans hu))
  exact hraise

/-- The completion of a command raises `MLEN` or performs the command (R83, R222). -/
theorem ends_of_complete {s t : State} {i : Instr} (ht : complete s = .next t) (hdec : decode s.cmd = .ok i) :
    i.mlenBad s ∧ Raises .mlen s t ∨ ¬i.mlenBad s ∧ Performed i s t := by
  obtain ⟨u, hu, hend⟩ := endsAs_exec i s
  obtain rfl := Host.Outcome.next.inj (ht.symm.trans ((complete_of_ok hdec).trans hu))
  exact hend

/-- `ERR` after the completion of a command: `MLEN` where `MLEN` is out of range for it, as before elsewhere (R222). -/
theorem err_of_complete {s t : State} {i : Instr} (ht : complete s = .next t) (hdec : decode s.cmd = .ok i) :
    (i.mlenBad s → t.err = .mlen) ∧ (¬i.mlenBad s → t.err = s.err) := by
  obtain ⟨hbad, hraise⟩ | ⟨hok, hperformed⟩ := ends_of_complete ht hdec
  · exact ⟨fun _ => hraise.err, fun hok => absurd hbad hok⟩
  · exact ⟨fun hbad => absurd hbad hok, fun _ => hperformed.control.err⟩

/-- A completion raises the error that it reports, or keeps all that only an error or the host writes (R83, R225). -/
theorem raises_or_sameControl_of_complete {s t : State} (ht : complete s = .next t) : Raises t.err s t ∨ SameControl s t := by
  cases hdec : decode s.cmd with
  | error e =>
    have hraise := raises_of_complete ht hdec
    exact .inl (hraise.err.symm ▸ hraise)
  | ok i =>
    obtain ⟨_, hraise⟩ | ⟨_, hperformed⟩ := ends_of_complete ht hdec
    · exact .inl (hraise.err.symm ▸ hraise)
    · exact .inr hperformed.control

/-- Settles O4: each of the first three causes fixes what the word decodes to, and the command of any other word checks `MLEN` itself. -/
theorem firstErrorOfEveryWord : Obligations.FirstErrorOfEveryWord := by
  intro s w
  obtain ⟨t, ht, _⟩ := complete_next (s.inFlight w)
  have hword : ∀ e, decode w = .error e → t.err = e := fun e hdec => (raises_of_complete ht hdec).err
  refine ⟨t, (step_inFlight s w).trans ht, fun hop => hword _ (decode_of_notMem_opcodes hop),
    fun hop hres => hword _ (decode_of_reservedBits hop hres), fun hop hres hodd => hword _ (decode_of_oddPair hop hres hodd),
    fun hop hres hodd hout => ?_, fun hop hres hodd hin => ?_⟩
  · obtain ⟨i, hdec, hmlen⟩ := exists_decode_of_no_error hop hres hodd
    obtain ⟨hbad, _⟩ := err_of_complete ht hdec
    exact hbad ((hmlen (s.inFlight w)).2 hout)
  · obtain ⟨i, hdec, hmlen⟩ := exists_decode_of_no_error hop hres hodd
    obtain ⟨_, hgood⟩ := err_of_complete ht hdec
    exact hgood (mt (hmlen (s.inFlight w)).1 hin)

/-- Settles O5: a completion that does not raise keeps `ERR`, here 0; one that raises leaves the engine idle, so that `CMD` issues. -/
theorem errorChangesNothingElse : Obligations.ErrorChangesNothingElse := by
  intro s t w hnone ht herr
  obtain hraise | hkeep := raises_or_sameControl_of_complete ((step_inFlight s w).symm.trans ht)
  · exact ⟨hraise, busWrite_cmd_of_idle hraise.ends.busy⟩
  · exact absurd (hkeep.err.trans hnone) herr

/-! ### The interrupt line -/

theorem irq_iff (s : State) : s.irq = true ↔ s.done = true ∧ s.ie = true := Bool.and_eq_true_iff

theorem irq_of_done_false {s : State} (h : s.done = false) : s.irq = false := by rw [State.irq, h, Bool.false_and]

theorem irq_of_ie_false {s : State} (h : s.ie = false) : s.irq = false := by rw [State.irq, h, Bool.and_false]

/-- The line after a completion is the enable (R228): `DONE` is set, and no completion writes `IE`. -/
theorem irq_of_complete {s t : State} (ht : complete s = .next t) : t.irq = s.ie := by
  obtain ⟨u, hu, _, hdone⟩ := complete_next s
  obtain rfl := Host.Outcome.next.inj (ht.symm.trans hu)
  have hie : t.ie = s.ie := (raises_or_sameControl_of_complete ht).elim Raises.ie SameControl.ie
  rw [State.irq, hdone, hie, Bool.true_and]

/-- Settles O19: each write of a control register fixes `DONE` or `IE`, and a completion sets `DONE`. -/
theorem interruptLineFollowsDone : Obligations.InterruptLineFollowsDone := by
  refine ⟨irq_iff, fun s t hb hplan ht => ?_, fun s data hack => ?_, fun s data hidle => ?_, fun s data hclear => ?_,
    fun s data hdone hset => ?_⟩
  · exact irq_of_complete ((engineTurn_busy hb).symm.trans ((step_nil hplan).symm.trans ht))
  · obtain ⟨_, hwrite⟩ := statusWriteClears s data
    rw [hwrite]
    exact irq_of_done_false (if_pos hack)
  · rw [busWrite_cmd_of_idle hidle]
    exact irq_of_done_false (State.issue_done s data)
  · obtain ⟨⟨b, hb, hwrite⟩, _⟩ := otherControlWrites s data
    rw [hwrite]
    exact irq_of_ie_false (Bool.eq_false_iff.2 fun htrue => by have := hb.1 htrue; omega)
  · obtain ⟨⟨b, hb, hwrite⟩, _⟩ := otherControlWrites s data
    rw [hwrite]
    exact (irq_iff _).2 ⟨hdone, hb.2 hset⟩

end Sys2Proof.Machine
end

section
/-! PROOFS. The family of spec/70_reset_and_hazards.md: the reset event. -/

namespace Sys2Proof.Machine

/-! ### The reset event -/

/-- A reset event is enabled in every state and leaves the rest of the plan (R250, R251, log entry 5). -/
theorem step_reset {s : State} {bytes : Memory} {rest : List HostAction} (h : s.agenda = .reset bytes :: rest) :
    step s = .next (s.popAction.hardReset bytes) := step_cons h

/-- Every register is zero after a reset event (R250). -/
theorem State.hardReset_reg (s : State) (bytes : Memory) (i : Reg) : (s.hardReset bytes).reg i = 0#256 :=
  State.clearRegs_reg (s.hardReset bytes) i

/-- A byte that the event does not name is kept (R251). -/
theorem State.hardReset_msgByte_of_notMem {bytes : Memory} {a : Nat} (h : ∀ v, (a, v) ∉ bytes) (s : State) :
    (s.hardReset bytes).msgByte a = s.msgByte a := memByte_memTake_of_notMem h s.msg

/-- The event's list that names every index below `size`, with the bytes of `f` (U3). -/
def bytesBelow (size : Nat) (f : Nat → Byte) : Memory := (List.range size).map fun k => (k, f k)

/-- The event that names every byte of `MSG` leaves exactly the bytes it names (R251, U3). -/
theorem State.hardReset_msgByte_bytesBelow (s : State) (f : Nat → Byte) {a : Nat} (h : a < s.msgSize) :
    (s.hardReset (bytesBelow s.msgSize f)).msgByte a = f a :=
  memByte_memTake_map f (List.range s.msgSize) s.msg (fun _ => List.mem_range.1) (List.mem_range.2 h)

/-- Settles O21: the step is `State.hardReset`, whose fields are those of the reset state; any contents of `MSG` are reached by
naming all its bytes. -/
theorem resetEventAbandonsTheCommand : Obligations.ResetEventAbandonsTheCommand := by
  intro s bytes rest hplan
  refine ⟨_, step_reset hplan, State.hardReset_reg _ bytes, rfl, rfl, rfl, rfl, rfl, rfl, rfl,
    fun a hkept => State.hardReset_msgByte_of_notMem hkept s.popAction, fun f => ?_⟩
  exact ⟨bytesBelow s.msgSize f, _, step_reset rfl, fun a ha => State.hardReset_msgByte_bytesBelow _ f ha⟩

end Sys2Proof.Machine
end
